-- ==== Sys2Proof/Word.lean ====
section
/-! DEFINITION. The word types of the machine and the two conversions of 00_scope R8 between a word and the
mathematical integer it stands for. -/

namespace Sys2Proof

/-- A 32-bit word: a `u32`, or an `i32` by two's-complement reinterpretation (00_scope R6, R8). -/
abbrev Word := BitVec 32

/-- One byte of the buffer. -/
abbrev Byte := BitVec 8

/-- `u32(v) = v mod 2^32` (00_scope R8). -/
abbrev u32 (v : Int) : Word := BitVec.ofInt 32 v

/-- `s32(v)`: the word's value as a signed integer (00_scope R8). -/
abbrev s32 (w : Word) : Int := w.toInt

end Sys2Proof
end

