-- ==== Sys2Proof/Config.lean ====
section
/-! DEFINITION. The fixed parameters of the core (00_scope R6). The spec leaves no value open, so nothing here is opaque. -/

namespace Sys2Proof

/-- `MAXREGS`: the number of registers (00_scope R6, D3). -/
abbrev maxRegs : Nat := 16

/-- `BOOT_LEN`: the number of bootstrap entries (00_scope R6, D10). -/
abbrev bootLen : Nat := 31

/-- `BOOTSTRAP_ENTRY`: bit offset 64, entry 0 (00_scope R6). -/
abbrev bootstrapEntry : Word := 64

/-- `HALT_SENTINEL_REG` (00_scope R6, 10_state R20). -/
abbrev haltSentinelReg : Nat := 0

/-- `ACTIVE_STATE_REG` (00_scope R6, 10_state R20). -/
abbrev activeStateReg : Nat := 1

/-- `INSTRUCTION_PTR_REG` (00_scope R6, 10_state R20). -/
abbrev instructionPtrReg : Nat := 2

/-- The bit offset of the header field `wordCount` (10_state R15). -/
abbrev wordCountOffset : Nat := 0

/-- The bit offset of the header field `currentOffset`, the instruction pointer (10_state R16). -/
abbrev pcOffset : Nat := 32

/-- The largest buffer, in bits: `8·N ≤ 2^31` (00_scope R7, D27). -/
abbrev maxBits : Nat := 2 ^ 31

end Sys2Proof
end

