-- ==== Sys2Proof/Syntax.lean ====
section
/-! DEFINITION. The instructions: one constructor per row of spec/opcode_table.json (30_encoding R55), with the fields
the row's format gives it. Arguments an instruction ignores are no fields of it (30_encoding R54, R57); `next` is a field
of every generic instruction, also of HALT and RET, whose syntax may name one (30_encoding R59) though they ignore it. -/

namespace Sys2Proof

/-- The fields of a format T entry (30_encoding R53): for each symbol read, the symbol to write, the direction code and
the offset of the next state. -/
structure Transition where
  sym0 : BitVec 2
  sym1 : BitVec 2
  sym2 : BitVec 2
  dir0 : BitVec 2
  dir1 : BitVec 2
  dir2 : BitVec 2
  next0 : Word
  next1 : Word
  next2 : Word
deriving DecidableEq, Repr

/-- One entry of the instruction/table region. An argument is the raw 32-bit word of its place; as a register operand
it is read as an `i32` and is valid in `[0, 16)` only (30_encoding R54), which the meaning checks. -/
inductive Instr where
  /-- `CLRREGS` (opcode 0, R68). -/
  | clrregs (next : Word)
  /-- `LOADC #v -> rd` (opcode 1, R69). -/
  | loadc (v d next : Word)
  /-- `RDW [ra] -> rd` (opcode 2, R73). -/
  | rdw (a d next : Word)
  /-- `WRW [ra] <- rs` (opcode 3, R74). -/
  | wrw (a src next : Word)
  /-- `RDS [ra] -> rd` (opcode 4, R75). -/
  | rds (a d next : Word)
  /-- `WRS [ra] <- rs` (opcode 5, R76). -/
  | wrs (a src next : Word)
  /-- `MUL rp, rq -> rd` (opcode 6, R70). -/
  | mul (p q d next : Word)
  /-- `ADD rp, rq -> rd` (opcode 7, R71). -/
  | add (p q d next : Word)
  /-- `HALT` (opcode 8, R77); `next` is ignored. -/
  | halt (next : Word)
  /-- `RET [ra] <- rs` (opcode 9, R78); `next` is ignored. -/
  | ret (a src next : Word)
  /-- `TMSTATE` (opcode 10, R79): a transition entry. -/
  | tmstate (t : Transition)
deriving DecidableEq, Repr

end Sys2Proof
end

