-- ==== Sys2Proof/WellFormed.lean ====
section
/-! DEFINITION. Which instruction terms are well formed: every register operand names a register (30_encoding R54), and
every symbol and direction field of a transition holds 0, 1 or 2 (10_state R24, 44_bootstrap R81). The machine needs no
such check: an entry that breaks one is decoded all the same and faults when it is executed (log entry 7). -/

namespace Sys2Proof

/-- A register operand is valid: `0 ≤ i < MAXREGS` as an `i32` (10_state R17, 30_encoding R54). -/
def isRegister (w : Word) : Bool := decide (0 ≤ s32 w) && decide (s32 w < maxRegs)

/-- A 2-bit field holds a symbol or a direction code: 0, 1 or 2 (10_state R24, 44_bootstrap R81). -/
def isCode (c : BitVec 2) : Bool := decide (c ≠ 3)

/-- Every field of a transition entry is a symbol or a direction code (70_reset_and_hazards R113, item 5). -/
def Transition.wf (t : Transition) : Bool :=
  isCode t.sym0 && isCode t.sym1 && isCode t.sym2 && isCode t.dir0 && isCode t.dir1 && isCode t.dir2

/-- The instruction's operands are valid (30_encoding R54, R55). -/
def Instr.wf : Instr → Bool
  | .clrregs _ => true
  | .loadc _ d _ => isRegister d
  | .rdw a d _ => isRegister a && isRegister d
  | .wrw a src _ => isRegister a && isRegister src
  | .rds a d _ => isRegister a && isRegister d
  | .wrs a src _ => isRegister a && isRegister src
  | .mul p q d _ => isRegister p && isRegister q && isRegister d
  | .add p q d _ => isRegister p && isRegister q && isRegister d
  | .halt _ => true
  | .ret a src _ => isRegister a && isRegister src
  | .tmstate t => t.wf

end Sys2Proof
end

