-- ==== Sys2Proof/Decode.lean ====
section
/-! DEFINITION. Decoding an entry of five little-endian words (30_encoding R49 to R58), total on any bytes and rejecting
by name, and after it the encoder of 30_encoding R53 and R59. -/

namespace Sys2Proof

/-! The opcode map of 30_encoding R55. -/

def Opcode.clrregs : Word := 0
def Opcode.loadc : Word := 1
def Opcode.rdw : Word := 2
def Opcode.wrw : Word := 3
def Opcode.rds : Word := 4
def Opcode.wrs : Word := 5
def Opcode.mul : Word := 6
def Opcode.add : Word := 7
def Opcode.halt : Word := 8
def Opcode.ret : Word := 9
def Opcode.tmstate : Word := 10

/-- Why bytes are no entry. -/
inductive DecodeError where
  /-- Fewer than the 20 bytes of an entry (30_encoding R49). -/
  | truncated
  /-- An opcode word of 11 or more (30_encoding R56). -/
  | illegalOpcode (opcode : Word)
deriving DecidableEq, Repr

/-- The word whose bytes, lowest address first, are `b0 b1 b2 b3` (20_memory R31: little-endian). -/
def wordOfBytes (b0 b1 b2 b3 : Byte) : Word := b3 ++ b2 ++ b1 ++ b0

/-- The bytes of a word, lowest address first (20_memory R31). -/
def wordBytes (w : Word) : List Byte :=
  [w.extractLsb' 0 8, w.extractLsb' 8 8, w.extractLsb' 16 8, w.extractLsb' 24 8]

/-- The fields of a format T entry from its words `w1` to `w4` (30_encoding R53); bits 7:6 and 31:14 of `w1` are reserved
and not read (30_encoding R57). -/
def transitionOfWords (w1 w2 w3 w4 : Word) : Transition where
  sym0 := w1.extractLsb' 0 2
  sym1 := w1.extractLsb' 2 2
  sym2 := w1.extractLsb' 4 2
  dir0 := w1.extractLsb' 8 2
  dir1 := w1.extractLsb' 10 2
  dir2 := w1.extractLsb' 12 2
  next0 := w2
  next1 := w3
  next2 := w4

/-- The instruction of five words (30_encoding R52, R53, R55); an opcode word of 11 or more is illegal (R56). -/
def decodeWords (w0 w1 w2 w3 w4 : Word) : Except DecodeError Instr :=
  if w0 = Opcode.clrregs then .ok (.clrregs w4)
  else if w0 = Opcode.loadc then .ok (.loadc w1 w2 w4)
  else if w0 = Opcode.rdw then .ok (.rdw w1 w2 w4)
  else if w0 = Opcode.wrw then .ok (.wrw w1 w2 w4)
  else if w0 = Opcode.rds then .ok (.rds w1 w2 w4)
  else if w0 = Opcode.wrs then .ok (.wrs w1 w2 w4)
  else if w0 = Opcode.mul then .ok (.mul w1 w2 w3 w4)
  else if w0 = Opcode.add then .ok (.add w1 w2 w3 w4)
  else if w0 = Opcode.halt then .ok (.halt w4)
  else if w0 = Opcode.ret then .ok (.ret w1 w2 w4)
  else if w0 = Opcode.tmstate then .ok (.tmstate (transitionOfWords w1 w2 w3 w4))
  else .error (.illegalOpcode w0)

/-- The first word of a list of bytes, and the bytes after it. -/
def takeWord : List Byte → Except DecodeError (Word × List Byte)
  | b0 :: b1 :: b2 :: b3 :: rest => .ok (wordOfBytes b0 b1 b2 b3, rest)
  | _ => .error .truncated

/-- The instruction that the first 20 bytes of a list hold (30_encoding R49: every entry is exactly 160 bits). -/
def decode (bytes : List Byte) : Except DecodeError Instr := do
  let (w0, bytes) ← takeWord bytes
  let (w1, bytes) ← takeWord bytes
  let (w2, bytes) ← takeWord bytes
  let (w3, bytes) ← takeWord bytes
  let (w4, _) ← takeWord bytes
  decodeWords w0 w1 w2 w3 w4

/-- The `k` lowest bytes of a number, least significant first. -/
def natBytes : Nat → Nat → List Byte
  | 0, _ => []
  | k + 1, w => BitVec.ofNat 8 w :: natBytes k (w / 256)

/-- What the decoder reads from an instruction whose lowest `nbits` bits are `w`, bit 0 the least significant bit of the
first word, and whose bits above `nbits` are 0. -/
def decodeTableWord (nbits w : Nat) : Option Instr :=
  (decode (natBytes 20 (w % 2 ^ nbits))).toOption

/-! The encoder. -/

/-- The word `w1` of a format T entry: the `sym` byte, the `dir` byte and the pad, every reserved bit 0 (30_encoding R53,
R57). -/
def Transition.fieldsWord (t : Transition) : Word :=
  (0 : BitVec 18) ++ t.dir2 ++ t.dir1 ++ t.dir0 ++ (0 : BitVec 2) ++ t.sym2 ++ t.sym1 ++ t.sym0

/-- The five words of an instruction, ignored arguments and reserved bits 0 (30_encoding R53, R57, R59). -/
def encodeWords : Instr → List Word
  | .clrregs next => [Opcode.clrregs, 0, 0, 0, next]
  | .loadc v d next => [Opcode.loadc, v, d, 0, next]
  | .rdw a d next => [Opcode.rdw, a, d, 0, next]
  | .wrw a src next => [Opcode.wrw, a, src, 0, next]
  | .rds a d next => [Opcode.rds, a, d, 0, next]
  | .wrs a src next => [Opcode.wrs, a, src, 0, next]
  | .mul p q d next => [Opcode.mul, p, q, d, next]
  | .add p q d next => [Opcode.add, p, q, d, next]
  | .halt next => [Opcode.halt, 0, 0, 0, next]
  | .ret a src next => [Opcode.ret, a, src, 0, next]
  | .tmstate t => [Opcode.tmstate, t.fieldsWord, t.next0, t.next1, t.next2]

/-- The 20 bytes of an instruction, lowest address first (30_encoding R49, 20_memory R31). -/
def encode (i : Instr) : List Byte := (encodeWords i).flatMap wordBytes

end Sys2Proof
end

