-- ==== Sys2Proof/Machine/Memory.lean ====
section
/-! DEFINITION. The buffer as sparse byte cells, and the unchecked primitives of 20_memory R30 over it. A byte no cell
lists is 0, the value construction gives every byte it does not write (70_reset_and_hazards R111; log entry 1). -/

namespace Sys2Proof.Machine

/-- The buffer: its non-zero bytes, addresses strictly rising. -/
abbrev Memory := List Host.Cell

/-- What a byte that no cell lists reads as (70_reset_and_hazards R111: "mem <- N zero bytes"; log entry 1). -/
abbrev unlistedByte : Byte := 0

/-- The byte at a byte address. -/
def Memory.byte (m : Memory) (i : Nat) : Byte :=
  match m with
  | [] => unlistedByte
  | (k, v) :: rest => if k = i then v else Memory.byte rest i

/-- The cells but those of one address. -/
def Memory.erase (m : Memory) (i : Nat) : Memory :=
  match m with
  | [] => []
  | (k, v) :: rest => if k = i then Memory.erase rest i else (k, v) :: Memory.erase rest i

/-- The cells with one more, put before the first of a higher address. -/
def Memory.insert (m : Memory) (i : Nat) (b : Byte) : Memory :=
  match m with
  | [] => [(i, b)]
  | (k, v) :: rest => if i < k then (i, b) :: (k, v) :: rest else (k, v) :: Memory.insert rest i b

/-- The memory with one byte written; the value an unlisted byte reads as takes the cell away. -/
def Memory.setByte (m : Memory) (i : Nat) (b : Byte) : Memory :=
  if b = unlistedByte then Memory.erase m i else Memory.insert (Memory.erase m i) i b

/-- Every address is above `low`, addresses rise strictly, no cell holds what an unlisted byte reads as. -/
def Memory.risingFrom (m : Memory) (low : Nat) : Bool :=
  match m with
  | [] => true
  | (k, v) :: rest => decide (low ≤ k) && decide (v ≠ unlistedByte) && Memory.risingFrom rest (k + 1)

/-- The canonical form: strictly rising addresses and no cell that an unlisted byte would read the same as. -/
def Memory.wf (m : Memory) : Bool := Memory.risingFrom m 0

/-- Every listed address is below `n`. -/
def Memory.below (m : Memory) (n : Nat) : Bool := m.all fun c => decide (c.1 < n)

/-- Bit offset `b` names bit `b mod 8` of byte `b div 8` (00_scope R9, 20_memory R30). -/
def Memory.bit (m : Memory) (b : Nat) : Bool := (Memory.byte m (b / 8)).getLsbD (b % 8)

/-- The number that `count` bytes from byte `i` on hold, lowest address least significant (20_memory R31). -/
def Memory.readBytes (m : Memory) (i : Nat) : Nat → Nat
  | 0 => 0
  | count + 1 => (Memory.byte m i).toNat + 256 * Memory.readBytes m (i + 1) count

/-- The memory with the `count` lowest bytes of `v` written from byte `i` on, least significant first (20_memory R31). -/
def Memory.writeBytes (m : Memory) (i : Nat) : Nat → Nat → Memory
  | 0, _ => m
  | count + 1, v => Memory.writeBytes (Memory.setByte m i (BitVec.ofNat 8 v)) (i + 1) count (v / 256)

/-- How many bytes the `n` bits at bit offset `a` lie in, counted from byte `a div 8`. -/
def spanBytes (a n : Nat) : Nat := (a % 8 + n + 7) / 8

/-- `RawRead(a, n)`: the `n` bits at bit offsets `a .. a+n-1`, bit `a` least significant; no checks (20_memory R30). -/
def Memory.rawRead (m : Memory) (a n : Nat) : BitVec n :=
  BitVec.ofNat n (Memory.readBytes m (a / 8) (spanBytes a n) / 2 ^ (a % 8))

/-- The number `old` with its bits `lo .. lo+n-1` replaced by `v`. -/
def replaceBits (old lo : Nat) {n : Nat} (v : BitVec n) : Nat :=
  old % 2 ^ lo + 2 ^ lo * (v.toNat + 2 ^ n * (old / 2 ^ (lo + n)))

/-- `RawWrite(a, n, v)`: sets the `n` bits at bit offsets `a .. a+n-1` to `v`; no other bit changes; no checks (20_memory
R30). -/
def Memory.rawWrite (m : Memory) (a : Nat) {n : Nat} (v : BitVec n) : Memory :=
  Memory.writeBytes m (a / 8) (spanBytes a n)
    (replaceBits (Memory.readBytes m (a / 8) (spanBytes a n)) (a % 8) v)

/-- The memory that holds a list of bytes from byte `i` on and nothing else. -/
def Memory.ofBytesFrom (bytes : List Byte) (i : Nat) : Memory :=
  match bytes with
  | [] => []
  | b :: rest =>
    if b = unlistedByte then Memory.ofBytesFrom rest (i + 1) else (i, b) :: Memory.ofBytesFrom rest (i + 1)

/-- The memory that holds a byte image. -/
def Memory.ofBytes (bytes : List Byte) : Memory := Memory.ofBytesFrom bytes 0

/-- The bytes `[lo, lo + count)`. -/
def Memory.bytesOf (m : Memory) (lo : Nat) : Nat → List Byte
  | 0 => []
  | count + 1 => Memory.byte m lo :: Memory.bytesOf m (lo + 1) count

end Sys2Proof.Machine
end

