-- ==== Sys2Proof/Machine/Layout.lean ====
section
/-! DEFINITION. The layout of a machine (10_state R14, 20_memory R40, R41): the two quantities fixed when a machine is
constructed or loaded, and the constants derived from them. -/

namespace Sys2Proof.Machine

/-- The quantities that are "fixed when the machine is constructed or loaded and never change while it runs" (00_scope
R7). `N` follows from these two (20_memory R41) and is `Layout.size` (log entry 2). -/
structure Layout where
  /-- `E`, the number of entries. -/
  entries : Nat
  /-- `L`, the tape length in symbols. -/
  tapeLen : Nat
deriving DecidableEq, Repr

/-- `W = 2 + 5·E`, the size of the instruction/table region in words (10_state R14, R15). -/
def Layout.wordCount (y : Layout) : Nat := 2 + 5 * y.entries

/-- `RB = 32·W`, the bit offset of register 0 (10_state R14). -/
def Layout.regBase (y : Layout) : Nat := 32 * y.wordCount

/-- `TB = RB + 32·MAXREGS`, the bit offset of the working-tape region (10_state R14). -/
def Layout.tapeBase (y : Layout) : Nat := y.regBase + 32 * maxRegs

/-- `TW = 2 + L/16`, the size of the working-tape region in words (10_state R14, R22). -/
def Layout.tapeWordCount (y : Layout) : Nat := 2 + y.tapeLen / 16

/-- The bit offset of the tape header's `head` field (10_state R23). -/
def Layout.headOffset (y : Layout) : Nat := y.tapeBase + 32

/-- `SB = TB + 64`, the bit offset of tape symbol 0 (10_state R14). -/
def Layout.symBase (y : Layout) : Nat := y.tapeBase + 64

/-- `N = 4·W + 4·MAXREGS + 4·TW`, the size of the buffer in bytes (10_state R14). -/
def Layout.size (y : Layout) : Nat := 4 * y.wordCount + 4 * maxRegs + 4 * y.tapeWordCount

/-- `8·N`, the size of the buffer in bits (20_memory R29). -/
def Layout.bits (y : Layout) : Nat := 8 * y.size

/-- `L` is a multiple of 16 and `8·N ≤ 2^31` (00_scope R7). -/
def Layout.wf (y : Layout) : Bool := decide (y.tapeLen % 16 = 0) && decide (y.bits ≤ maxBits)

/-- The bit offset of register `i` (10_state R17). -/
def Layout.regOffset (y : Layout) (i : Nat) : Nat := y.regBase + 32 * i

/-- The bit offset of tape symbol `j` (10_state R24). -/
def Layout.symOffset (y : Layout) (j : Nat) : Nat := y.symBase + 2 * j

/-! Offsets of entries and of states (30_encoding R50, R51). -/

/-- `EntryOffset(k) = 64 + 160·k` (30_encoding R50). -/
def entryOffset (k : Nat) : Nat := 64 + 160 * k

/-- `EntryIndex(o)`, the inverse, where it is defined (30_encoding R50). -/
def entryIndex (o : Nat) : Option Nat :=
  if 64 ≤ o ∧ (o - 64) % 160 = 0 then some ((o - 64) / 160) else none

/-- `StateOffset(i) = EntryOffset(BOOT_LEN + i) = 5024 + 160·i` (30_encoding R51). -/
def stateOffset (i : Nat) : Nat := entryOffset (bootLen + i)

/-- `StateIndex(o)`, the inverse, where it is defined (30_encoding R51). -/
def stateIndex (o : Nat) : Option Nat :=
  if 5024 ≤ o ∧ (o - 5024) % 160 = 0 then some ((o - 5024) / 160) else none

end Sys2Proof.Machine
end

