-- ==== Sys2Proof/Machine/Exceptions.lean ====
section
/-! DEFINITION. The faults of 60_exceptions R98 and the record a fault leaves (R100). A fault is machine state: taking it
is `State.takeFault` in Machine/Ops.lean. -/

namespace Sys2Proof.Machine

/-- The ten kinds of fault (60_exceptions R98). -/
inductive FaultKind where
  | illegalOpcode
  | registerIndex
  | misalignedWord
  | misalignedSymbol
  | outOfBounds
  | invalidSymbolValue
  | invalidSymbolPattern
  | arithOverflow
  | headOutOfTape
  | layoutWordWrite
deriving DecidableEq, Repr

/-- What a fault records beside its kind (60_exceptions R98, R100). -/
inductive FaultInfo where
  | opcode (w : Word)
  | index (i : Int)
  | addr (a : Int)
  | value (v : Int)
  | result (r : Int)
  | head (h : Word)
deriving DecidableEq, Repr

/-- `raise <Kind>(info)`: a kind of fault with what it records (60_exceptions R98, 00_scope R10). -/
inductive Violation where
  /-- `ILLEGAL_OPCODE(opcode)`: an opcode word of 11 or more. -/
  | illegalOpcode (opcode : Word)
  /-- `REGISTER_INDEX(index)`: a register operand outside `[0, 16)`. -/
  | registerIndex (index : Int)
  /-- `MISALIGNED_WORD(addr)`: a word access at `a mod 32 ≠ 0`. -/
  | misalignedWord (addr : Int)
  /-- `MISALIGNED_SYMBOL(addr)`: a symbol access at an odd offset. -/
  | misalignedSymbol (addr : Int)
  /-- `OUT_OF_BOUNDS(addr)`: an access not inside `[0, 8·N)`. -/
  | outOfBounds (addr : Int)
  /-- `INVALID_SYMBOL_VALUE(value)`: a symbol write of a value other than 0, 1, 2. -/
  | invalidSymbolValue (value : Int)
  /-- `INVALID_SYMBOL_PATTERN(addr)`: a symbol read of the bit pattern 3. -/
  | invalidSymbolPattern (addr : Int)
  /-- `ARITH_OVERFLOW(result)`: a sum or product outside the `i32` range. -/
  | arithOverflow (result : Int)
  /-- `HEAD_OUT_OF_TAPE(head)`: a head field that names no symbol, at a dispatch that does not halt. -/
  | headOutOfTape (head : Word)
  /-- `LAYOUT_WORD_WRITE(addr)`: a write touching one of the two layout words. -/
  | layoutWordWrite (addr : Int)
deriving DecidableEq, Repr

/-- The kind raised (60_exceptions R98). -/
def Violation.kind : Violation → FaultKind
  | .illegalOpcode _ => .illegalOpcode
  | .registerIndex _ => .registerIndex
  | .misalignedWord _ => .misalignedWord
  | .misalignedSymbol _ => .misalignedSymbol
  | .outOfBounds _ => .outOfBounds
  | .invalidSymbolValue _ => .invalidSymbolValue
  | .invalidSymbolPattern _ => .invalidSymbolPattern
  | .arithOverflow _ => .arithOverflow
  | .headOutOfTape _ => .headOutOfTape
  | .layoutWordWrite _ => .layoutWordWrite

/-- The `info` recorded (60_exceptions R98). -/
def Violation.info : Violation → FaultInfo
  | .illegalOpcode w => .opcode w
  | .registerIndex i => .index i
  | .misalignedWord a => .addr a
  | .misalignedSymbol a => .addr a
  | .outOfBounds a => .addr a
  | .invalidSymbolValue v => .value v
  | .invalidSymbolPattern a => .addr a
  | .arithOverflow r => .result r
  | .headOutOfTape h => .head h
  | .layoutWordWrite a => .addr a

/-- The code of a kind (60_exceptions R98). -/
def FaultKind.code : FaultKind → Nat
  | .illegalOpcode => 1
  | .registerIndex => 2
  | .misalignedWord => 3
  | .misalignedSymbol => 4
  | .outOfBounds => 5
  | .invalidSymbolValue => 6
  | .invalidSymbolPattern => 7
  | .arithOverflow => 8
  | .headOutOfTape => 9
  | .layoutWordWrite => 10

/-- A fault record `f` (60_exceptions R100). Its `code`, `kind` and `info` are read off the violation. -/
structure FaultRecord where
  /-- The `pc` at the start of the faulting step. -/
  pc : Word
  /-- The opcode word, where it was read. -/
  opcode : Option Word
  /-- The kind and the info. -/
  violation : Violation
deriving DecidableEq, Repr

/-- The record's field `kind` (60_exceptions R100). -/
def FaultRecord.kind (f : FaultRecord) : FaultKind := f.violation.kind

/-- The record's field `code` (60_exceptions R100). -/
def FaultRecord.code (f : FaultRecord) : Nat := f.kind.code

/-- The record's field `info` (60_exceptions R100). -/
def FaultRecord.info (f : FaultRecord) : FaultInfo := f.violation.info

end Sys2Proof.Machine
end

