-- ==== Sys2Proof/Machine/Bootstrap.lean ====
section
/-! DEFINITION. The Turing-machine bootstrap (44_bootstrap): the fixed program of entries 0 to 30. The core does not
treat these entries specially; construction writes them and ordinary steps execute them. -/

namespace Sys2Proof.Machine

/-- The listing of 44_bootstrap R82, each instruction waiting for its `next`. -/
def bootstrapListing : List (Word → Instr) :=
  [ .loadc 0 3, .loadc 32 2, .rdw 3 4, .loadc 16 5, .add 4 5 6, .mul 6 2 7, .add 7 2 8, .rdw 8 9,
    .add 8 2 10, .add 9 10 11, .rds 11 12, .add 12 12 13, .add 1 13 14, .add 14 2 15, .rds 15 5,
    .loadc 8 3 ] ++
  [ .add 15 3 15, .rds 15 6, .loadc 16 3, .mul 13 3 13, .add 1 13 13, .loadc 64 3, .add 13 3 13,
    .rdw 13 14, .loadc (-1) 3, .add 6 3 6, .add 6 6 6, .add 9 6 9, .wrs 11 5, .wrw 8 9, .ret 2 14 ]

/-- A listing laid out from entry `k` on: each entry's `next` is the offset of the following entry. -/
def layOut : List (Word → Instr) → Nat → List Instr
  | [], _ => []
  | f :: rest, k => f (BitVec.ofNat 32 (entryOffset (k + 1))) :: layOut rest (k + 1)

/-- The bootstrap: entry `k` has `next = 64 + 160·(k+1)`, entry 30 included (44_bootstrap R82). -/
def bootstrap : List Instr := layOut bootstrapListing 0

end Sys2Proof.Machine
end

