-- ==== Sys2Proof/Machine/Image.lean ====
section
/-! DEFINITION. The byte image that construction writes (70_reset_and_hazards R111), region by region in buffer order
(20_memory R40). -/

namespace Sys2Proof.Machine

/-- One state of a transition table: the 9-tuple `(w0, d0, n0, w1, d1, n1, w2, d2, n2)` of 70_reset_and_hazards R111, as
the integers the host passes. -/
structure TableRow where
  w0 : Int
  d0 : Int
  n0 : Int
  w1 : Int
  d1 : Int
  n1 : Int
  w2 : Int
  d2 : Int
  n2 : Int
deriving DecidableEq, Repr

/-- Every write symbol and direction code is 0, 1 or 2, and every next-state index lies in `[0, n]`
(70_reset_and_hazards R111). -/
def TableRow.valid (r : TableRow) (n : Nat) : Bool :=
  [r.w0, r.w1, r.w2, r.d0, r.d1, r.d2].all (fun v => decide (0 ≤ v) && decide (v ≤ 2)) &&
  [r.n0, r.n1, r.n2].all (fun v => decide (0 ≤ v) && decide (v ≤ n))

/-- The offset a next-state index stands for (30_encoding R51). -/
def stateWord (i : Nat) : Word := BitVec.ofNat 32 (stateOffset i)

/-- The transition entry of a table row (70_reset_and_hazards R111, 30_encoding R53). -/
def TableRow.transition (r : TableRow) : Transition where
  sym0 := BitVec.ofInt 2 r.w0
  sym1 := BitVec.ofInt 2 r.w1
  sym2 := BitVec.ofInt 2 r.w2
  dir0 := BitVec.ofInt 2 r.d0
  dir1 := BitVec.ofInt 2 r.d1
  dir2 := BitVec.ofInt 2 r.d2
  next0 := stateWord r.n0.toNat
  next1 := stateWord r.n1.toNat
  next2 := stateWord r.n2.toNat

/-- The halt entry: `w0 = 10`, the other 128 bits 0 (70_reset_and_hazards R111). -/
def haltTransition : Transition where
  sym0 := 0
  sym1 := 0
  sym2 := 0
  dir0 := 0
  dir1 := 0
  dir2 := 0
  next0 := 0
  next1 := 0
  next2 := 0

/-- The blank symbol (00_scope §6). -/
abbrev blankSymbol : BitVec 2 := 2

/-- The symbol an input character stands for: `'0'` is 0, `'1'` is 1, `'_'` and `' '` are blank (70_reset_and_hazards
R111). Another character stands for none (log entry 9). -/
def charSymbol (c : Char) : Option (BitVec 2) :=
  if c = '0' then some 0
  else if c = '1' then some 1
  else if c = '_' then some blankSymbol
  else if c = ' ' then some blankSymbol
  else none

/-- The symbols of an input string, where every character stands for one. -/
def inputSymbols : List Char → Option (List (BitVec 2))
  | [] => some []
  | c :: rest => do
    let x ← charSymbol c
    let xs ← inputSymbols rest
    some (x :: xs)

/-- The tape: blank everywhere, with the input placed (70_reset_and_hazards R111). -/
def tapeSymbols (len : Nat) (input : List (BitVec 2)) (inputPos : Nat) : List (BitVec 2) :=
  List.replicate inputPos blankSymbol ++ input ++
    List.replicate (len - (inputPos + input.length)) blankSymbol

/-- Symbols packed four to a byte, the first in the low bits (10_state R24). -/
def packSymbols : List (BitVec 2) → List Byte
  | a :: b :: c :: d :: rest => (d ++ c ++ b ++ a) :: packSymbols rest
  | _ => []

/-- The layout of a constructed machine with an `n`-state table (70_reset_and_hazards R111: `E = 31 + n + 1`). -/
def constructLayout (n len : Nat) : Layout := ⟨bootLen + n + 1, len⟩

/-- The instruction/table region of a constructed machine: header, bootstrap, states, halt entry
(70_reset_and_hazards R111). -/
def tableBytes (table : List TableRow) (len start : Nat) : List Byte :=
  wordBytes (BitVec.ofNat 32 (constructLayout table.length len).wordCount) ++
  wordBytes (stateWord start) ++
  bootstrap.flatMap encode ++
  table.flatMap (fun r => encode (.tmstate r.transition)) ++
  encode (.tmstate haltTransition)

/-- The register region of a constructed machine: `x[0]` the halt entry's offset, the others 0 (10_state R21). -/
def registerBytes (n : Nat) : List Byte := wordBytes (stateWord n) ++ List.replicate 60 0

/-- The working-tape region of a constructed machine (70_reset_and_hazards R111). -/
def tapeBytes (n len headPos : Nat) (input : List (BitVec 2)) (inputPos : Nat) : List Byte :=
  wordBytes (BitVec.ofNat 32 (constructLayout n len).tapeWordCount) ++
  wordBytes (BitVec.ofNat 32 (2 * headPos)) ++
  packSymbols (tapeSymbols len input inputPos)

/-- The whole buffer of a constructed machine (70_reset_and_hazards R111, 20_memory R40). -/
def constructImage (table : List TableRow) (len start headPos : Nat) (input : List (BitVec 2)) (inputPos : Nat) :
    List Byte :=
  tableBytes table len start ++ registerBytes table.length ++ tapeBytes table.length len headPos input inputPos

end Sys2Proof.Machine
end

