-- ==== Sys2Proof/Machine/State.lean ====
section
/-! DEFINITION. The state of the machine as plain data, the reasons a step could stop, and the state after reset. -/

namespace Sys2Proof.Machine

/-- The control state (10_state R13). -/
inductive Ctl where
  /-- The machine steps. -/
  | running
  /-- The machine has stopped normally; a step changes nothing. -/
  | halted
  /-- A fatal invariant violation stopped the machine; a step changes nothing. -/
  | faulted (f : FaultRecord)
deriving DecidableEq, Repr

/-- The machine state: the pair `(mem, ctl)` of 10_state R12, with the layout that construction or load fixed (10_state
R14, 00_scope R7; log entry 2). Registers, `pc`, headers, entries and tape are views of `mem`. -/
structure State where
  layout : Layout
  mem : List Host.Cell
  ctl : Ctl
deriving DecidableEq, Repr

/-- A reason for a step to stop outside the machine's own states: there is none. Every step is defined in every state
(70_reset_and_hazards R113), and a fault of the spec is machine state (`Ctl.faulted`), reached by a next state. No
constructor, so nobody raises one (log entry 4). -/
inductive Fault where
deriving DecidableEq, Repr

/-- A reason to give an instruction no meaning. -/
inductive Refusal where
  /-- Raised only by an arm of `exec` whose instruction has no meaning yet; no arm is of this kind. Safe: the model stops
  where the machine would go on. -/
  | notModelled (mnemonic : String)
deriving DecidableEq, Repr

/-- The machine right after reset. The spec has two resets, construction and load, both of a machine the host describes
(70_reset_and_hazards, opening); this is what construction R111 writes whatever the table is: the algorithm run with no
state, the shortest tape, the head at 0 and no input (log entry 3). -/
def State.reset : State where
  layout := constructLayout 0 16
  mem := Memory.ofBytes (constructImage [] 16 0 0 [] 0)
  ctl := .running

end Sys2Proof.Machine
end

