-- ==== Sys2Proof/Machine/Ops.lean ====
section
/-! DEFINITION. The named operations over the state: the views of the buffer (10_state), checked access (20_memory R35,
R36), and taking a fault (60_exceptions R101). -/

namespace Sys2Proof.Machine

/-! Views of the buffer. Every read and write of the machine goes through these. -/

/-- The byte at a byte address of the buffer. -/
def State.byte (s : State) (i : Nat) : Byte := Memory.byte s.mem i

/-- The bit at a bit offset of the buffer (20_memory R30). -/
def State.bit (s : State) (b : Nat) : Bool := Memory.bit s.mem b

/-- `RawRead(a, n)` on the buffer (20_memory R30). -/
def State.bits (s : State) (a n : Nat) : BitVec n := Memory.rawRead s.mem a n

/-- `RawWrite(a, n, v)` on the buffer (20_memory R30). -/
def State.setBits (s : State) (a : Nat) {n : Nat} (v : BitVec n) : State :=
  { s with mem := Memory.rawWrite s.mem a v }

/-- `pc`, the instruction pointer (10_state R16). -/
def State.pc (s : State) : Word := s.bits pcOffset 32

/-- `pc <- v` (10_state R16). -/
def State.setPc (s : State) (v : Word) : State := s.setBits pcOffset v

/-- Register `i` without the index check (10_state R17, R18). -/
def State.reg (s : State) (i : Nat) : Word := s.bits (s.layout.regOffset i) 32

/-- Write of register `i` without the index check (10_state R17, R18). -/
def State.setReg (s : State) (i : Nat) (v : Word) : State := s.setBits (s.layout.regOffset i) v

/-- The tape header's `head` field (10_state R23). -/
def State.head (s : State) : Word := s.bits s.layout.headOffset 32

/-- Write of the `head` field (10_state R23). -/
def State.setHead (s : State) (v : Word) : State := s.setBits s.layout.headOffset v

/-- Tape symbol `j`, as its two bits (10_state R24). -/
def State.sym (s : State) (j : Nat) : BitVec 2 := s.bits (s.layout.symOffset j) 2

/-- The head field names a tape symbol: it is even and below `2·L` (10_state R23). -/
def State.headValid (s : State) : Bool :=
  decide (s.head.toNat % 2 = 0) && decide (s.head.toNat < 2 * s.layout.tapeLen)

/-- Word `k` of the entry at bit offset `o` (30_encoding R49). -/
def State.entryWord (s : State) (o k : Nat) : Word := s.bits (o + 32 * k) 32

/-- `ctl <- Halted` (10_state R13). -/
def State.halt (s : State) : State := { s with ctl := .halted }

/-! Checked access. -/

/-- `[a, a+n)` overlaps `[lo, hi)`. -/
def overlaps (a : Int) (n : Nat) (lo hi : Nat) : Bool := decide (a < hi) && decide ((lo : Int) < a + n)

/-- `[a, a+n)` touches one of the two layout words (20_memory R37). -/
def State.touchesLayout (s : State) (a : Int) (n : Nat) : Bool :=
  overlaps a n wordCountOffset (wordCountOffset + 32) ||
    overlaps a n s.layout.tapeBase (s.layout.tapeBase + 32)

/-- The alignment and bounds checks that a read and a write of `n ∈ {2, 32}` bits share (20_memory R33, R34). -/
def State.checkAccess (s : State) (a : Int) (n : Nat) : Except Violation Unit :=
  if n = 32 ∧ a % 32 ≠ 0 then .error (.misalignedWord a)
  else if n = 2 ∧ (a % 2 ≠ 0 ∨ a % 8 > 6) then .error (.misalignedSymbol a)
  else if a < 0 ∨ a + n > s.layout.bits then .error (.outOfBounds a)
  else .ok ()

/-- `MemRead(a, n)`, for `n ∈ {2, 32}` (20_memory R35). -/
def State.memRead (s : State) (a : Int) (n : Nat) : Except Violation (BitVec n) := do
  s.checkAccess a n
  let v := s.bits a.toNat n
  if n = 2 ∧ v.toNat = 3 then .error (.invalidSymbolPattern a) else .ok v

/-- `MemWrite(a, n, v)`, for `n ∈ {2, 32}` (20_memory R36). -/
def State.memWrite (s : State) (a : Int) (n : Nat) (v : Int) : Except Violation State := do
  s.checkAccess a n
  if s.touchesLayout a n then .error (.layoutWordWrite a)
  else if n = 2 ∧ ¬(v = 0 ∨ v = 1 ∨ v = 2) then .error (.invalidSymbolValue v)
  else .ok (s.setBits a.toNat (BitVec.ofInt n v))

/-! Faults. -/

/-- Taking a fault (60_exceptions R100, R101): `s` is the state BEFORE the step, so every write of the step is discarded
and `pc` still names the faulting entry; only `ctl` changes. There is no trap return (60_exceptions R103): nothing leaves
`Faulted`. -/
def State.takeFault (s : State) (opcode : Option Word) (v : Violation) : State :=
  { s with ctl := .faulted ⟨s.pc, opcode, v⟩ }

/-- The end of an instruction executed from `s`: its next state, or the fault it raised, taken from `s` (40_step_loop
R65, 60_exceptions R101). -/
def State.conclude (s : State) (opcode : Word) (r : Except Violation State) : Host.Outcome State Fault Refusal :=
  match r with
  | .ok t => .next t
  | .error v => .next (s.takeFault (some opcode) v)

end Sys2Proof.Machine
end

