-- ==== Sys2Proof/Machine/Operands.lean ====
section
/-! DEFINITION. Operand decoding (30_encoding R54): an argument is a register operand, or LOADC's immediate, which is the
whole word and needs no decoding. A data address is always the value of a register operand. -/

namespace Sys2Proof.Machine

/-- The index a register operand names, checked: `0 ≤ i < MAXREGS` as an `i32`, else `REGISTER_INDEX(i)` (10_state R18).
-/
def regIndex (w : Word) : Except Violation Nat :=
  if 0 ≤ s32 w ∧ s32 w < maxRegs then .ok (s32 w).toNat else .error (.registerIndex (s32 w))

/-- `x[i]` for a register operand `i` (10_state R18). -/
def State.readReg (s : State) (w : Word) : Except Violation Word := do
  let i ← regIndex w
  .ok (s.reg i)

/-- The address a register operand holds: the register's `i32` value, a bit offset (20_memory R29). -/
def State.readAddr (s : State) (w : Word) : Except Violation Int := do
  let v ← s.readReg w
  .ok (s32 v)

/-- All sixteen registers 0, in rising order (41_register_instructions R68). -/
def State.clearRegs (s : State) : State := (List.range maxRegs).foldl (fun t i => t.setReg i 0) s

end Sys2Proof.Machine
end

