-- ==== Sys2Proof/Machine/Flags.lean ====
section
/-! DEFINITION. The core has no flags, condition codes or predicates (10_state R26), so no flag computation stands here:
what arithmetic has in their place is the range check of 41_register_instructions R67. -/

namespace Sys2Proof.Machine

/-- An exact result lies in the `i32` range `[-2^31, 2^31)` (41_register_instructions R67). -/
def inRange (r : Int) : Bool := decide (-2 ^ 31 ≤ r) && decide (r < 2 ^ 31)

/-- The word of an exact result, or `ARITH_OVERFLOW(result)` outside the `i32` range (41_register_instructions R67): no
wrap-around, no saturation. -/
def narrow (r : Int) : Except Violation Word := if inRange r then .ok (u32 r) else .error (.arithOverflow r)

end Sys2Proof.Machine
end

