-- ==== Sys2Proof/Machine/Fetch.lean ====
section
/-! DEFINITION. Fetching and decoding the entry at `pc` (40_step_loop R60, R62, R63). -/

namespace Sys2Proof.Machine

/-- A violation raised while fetching, with the opcode word if it was read (60_exceptions R100). -/
def raised {α : Type} (opcode : Option Word) : Except Violation α → Except (Option Word × Violation) α
  | .ok a => .ok a
  | .error v => .error (opcode, v)

/-- The transition entry at bit offset `p`. The step reads none of its fields (40_step_loop R63), so they are read
without checks and the dispatch does not use them (log entry 5). -/
def State.transitionAt (s : State) (p : Nat) : Transition :=
  transitionOfWords (s.entryWord p 1) (s.entryWord p 2) (s.entryWord p 3) (s.entryWord p 4)

/-- The instruction at `pc`, or the first violation its fetch and decode raise (40_step_loop R60, R62, R63;
60_exceptions R102): the opcode word; for the marker nothing more; else the other four words in order and then the
opcode check. -/
def State.fetch (s : State) : Except (Option Word × Violation) Instr := do
  let p : Int := s.pc.toNat
  let w0 ← raised none (s.memRead p 32)
  if w0 = Opcode.tmstate then .ok (.tmstate (s.transitionAt s.pc.toNat))
  else do
    let w1 ← raised (some w0) (s.memRead (p + 32) 32)
    let w2 ← raised (some w0) (s.memRead (p + 64) 32)
    let w3 ← raised (some w0) (s.memRead (p + 96) 32)
    let w4 ← raised (some w0) (s.memRead (p + 128) 32)
    match decodeWords w0 w1 w2 w3 w4 with
    | .ok i => .ok i
    | .error _ => .error (some w0, .illegalOpcode w0)

/-- Where `State.placeEntry` puts an entry: at `pc` where that is the place of an aligned entry of the
instruction/table region, else at entry 0. -/
def State.entrySlot (s : State) : Word :=
  if s.pc.toNat % 32 = 0 ∧ 64 ≤ s.pc.toNat ∧ s.pc.toNat + 160 ≤ s.layout.regBase then s.pc else bootstrapEntry

/-- The machine running with an entry of 160 bits stored where it fetches next. -/
def State.placeEntry (s : State) (w : BitVec 160) : State :=
  { ((s.setPc s.entrySlot).setBits s.entrySlot.toNat w) with ctl := .running }

end Sys2Proof.Machine
end

