-- ==== Sys2Proof/Machine/Register.lean ====
section
/-! DEFINITION. The register instructions CLRREGS, LOADC, MUL and ADD (41_register_instructions). -/

namespace Sys2Proof.Machine

/-- `CLRREGS` (R68). -/
def execClrregs (next : Word) (s : State) : Host.Outcome State Fault Refusal :=
  s.conclude Opcode.clrregs (.ok (s.clearRegs.setPc next))

/-- `LOADC #v -> rd` (R69). -/
def execLoadc (v d next : Word) (s : State) : Host.Outcome State Fault Refusal :=
  s.conclude Opcode.loadc do
    let i ← regIndex d
    .ok ((s.setReg i v).setPc next)

/-- A computation on two source registers, its exact result written to a third: sources first, then the destination's
index, then the range (R67, R70, R71; 60_exceptions R102). -/
def State.arith (s : State) (f : Int → Int → Int) (p q d : Word) : Except Violation State := do
  let u ← s.readReg p
  let w ← s.readReg q
  let i ← regIndex d
  let r ← narrow (f (s32 u) (s32 w))
  .ok (s.setReg i r)

/-- `MUL rp, rq -> rd` (R70). -/
def execMul (p q d next : Word) (s : State) : Host.Outcome State Fault Refusal :=
  s.conclude Opcode.mul do
    let t ← s.arith (fun u w => u * w) p q d
    .ok (t.setPc next)

/-- `ADD rp, rq -> rd` (R71). -/
def execAdd (p q d next : Word) (s : State) : Host.Outcome State Fault Refusal :=
  s.conclude Opcode.add do
    let t ← s.arith (fun u w => u + w) p q d
    .ok (t.setPc next)

end Sys2Proof.Machine
end

