-- ==== Sys2Proof/Machine/Store.lean ====
section
/-! DEFINITION. The store instructions RDW, WRW, RDS and WRS (42_store_instructions). -/

namespace Sys2Proof.Machine

/-- A read of `n` bits at the address a register holds into a destination register, zero-extended: the address register,
the destination's index, then the access (R73, R75). -/
def State.loadIndirect (s : State) (n : Nat) (a d : Word) : Except Violation State := do
  let addr ← s.readAddr a
  let i ← regIndex d
  let v ← s.memRead addr n
  .ok (s.setReg i (v.setWidth 32))

/-- A write of `n` bits of a source register at the address a register holds (R74, R76, R78). -/
def State.storeIndirect (s : State) (n : Nat) (a src : Word) : Except Violation State := do
  let addr ← s.readAddr a
  let v ← s.readReg src
  s.memWrite addr n (s32 v)

/-- `RDW [ra] -> rd` (R73). -/
def execRdw (a d next : Word) (s : State) : Host.Outcome State Fault Refusal :=
  s.conclude Opcode.rdw do
    let t ← s.loadIndirect 32 a d
    .ok (t.setPc next)

/-- `WRW [ra] <- rs` (R74). -/
def execWrw (a src next : Word) (s : State) : Host.Outcome State Fault Refusal :=
  s.conclude Opcode.wrw do
    let t ← s.storeIndirect 32 a src
    .ok (t.setPc next)

/-- `RDS [ra] -> rd` (R75). -/
def execRds (a d next : Word) (s : State) : Host.Outcome State Fault Refusal :=
  s.conclude Opcode.rds do
    let t ← s.loadIndirect 2 a d
    .ok (t.setPc next)

/-- `WRS [ra] <- rs` (R76). -/
def execWrs (a src next : Word) (s : State) : Host.Outcome State Fault Refusal :=
  s.conclude Opcode.wrs do
    let t ← s.storeIndirect 2 a src
    .ok (t.setPc next)

end Sys2Proof.Machine
end

