-- ==== Sys2Proof/Machine/Control.lean ====
section
/-! DEFINITION. HALT, RET and the dispatch of a transition entry (43_control_instructions). -/

namespace Sys2Proof.Machine

/-- `HALT` (R77): `pc` is not written. -/
def execHalt (_next : Word) (s : State) : Host.Outcome State Fault Refusal :=
  s.conclude Opcode.halt (.ok s.halt)

/-- `RET [ra] <- rs` (R78): WRW's store and no write of `next` after it. -/
def execRet (a src _next : Word) (s : State) : Host.Outcome State Fault Refusal :=
  s.conclude Opcode.ret (s.storeIndirect 32 a src)

/-- The halt test (R80): the entry's offset is the `u32` pattern of `x[HALT_SENTINEL_REG]`. -/
def State.haltTest (s : State) : Bool := decide (s.pc = s.reg haltSentinelReg)

/-- `TmDispatch(p)` with `p = pc` (R79): the state after it, and `printable`. -/
def State.tmDispatch (s : State) : Except Violation (State × Bool) :=
  if s.haltTest then .ok (s.halt, false)
  else if s.headValid then .ok ((s.setReg activeStateReg s.pc).setPc bootstrapEntry, true)
  else .error (.headOutOfTape s.head)

/-- `TMSTATE` (R79): the dispatch, which uses none of the entry's fields. -/
def execTmstate (_t : Transition) (s : State) : Host.Outcome State Fault Refusal :=
  s.conclude Opcode.tmstate (s.tmDispatch.map Prod.fst)

/-- What one step from this state returns to the host: true exactly at a TM dispatch that does not halt (40_step_loop
R60, R66). It is no machine state (10_state R28; log entry 6). -/
def State.printable (s : State) : Bool :=
  match s.ctl, s.fetch with
  | .running, .ok (.tmstate _) =>
    match s.tmDispatch with
    | .ok (_, shown) => shown
    | .error _ => false
  | _, _ => false

end Sys2Proof.Machine
end

