-- ==== Sys2Proof/Machine/Dispatch.lean ====
section
/-! DEFINITION. The meaning of each instruction, one arm per constructor of `Instr`. -/

namespace Sys2Proof.Machine

def exec (i : Instr) (s : State) : Host.Outcome State Fault Refusal :=
  match i with
  | .clrregs next => Sys2Proof.Machine.execClrregs next s
  | .loadc v d next => Sys2Proof.Machine.execLoadc v d next s
  | .rdw a d next => Sys2Proof.Machine.execRdw a d next s
  | .wrw a src next => Sys2Proof.Machine.execWrw a src next s
  | .rds a d next => Sys2Proof.Machine.execRds a d next s
  | .wrs a src next => Sys2Proof.Machine.execWrs a src next s
  | .mul p q d next => Sys2Proof.Machine.execMul p q d next s
  | .add p q d next => Sys2Proof.Machine.execAdd p q d next s
  | .halt next => Sys2Proof.Machine.execHalt next s
  | .ret a src next => Sys2Proof.Machine.execRet a src next s
  | .tmstate t => Sys2Proof.Machine.execTmstate t s

end Sys2Proof.Machine
end

