-- ==== Sys2Proof/Machine/Step.lean ====
section
/-! DEFINITION. One step of the machine (40_step_loop R60), and the state with an instruction stored where the next step
fetches it. -/

namespace Sys2Proof.Machine

/-- One step (40_step_loop R60): a stopped machine stays as it is (R61); a running one fetches the entry at `pc` and
executes it, or takes the fault that fetching raised. -/
def step (s : State) : Host.Outcome State Fault Refusal :=
  match s.ctl with
  | .halted => .next s
  | .faulted _ => .next s
  | .running =>
    match s.fetch with
    | .ok i => exec i s
    | .error (opcode, v) => .next (s.takeFault opcode v)

/-- The state with the instruction whose lowest `nbits` bits are `w` (its other bits 0) stored where `step` fetches its
next instruction. It stands for the load of a program from outside (log entry 3). -/
def State.withFetchWord (s : State) (nbits w : Nat) : State := s.placeEntry (BitVec.ofNat 160 (w % 2 ^ nbits))

end Sys2Proof.Machine
end

