-- ==== Sys2Proof/Machine/HostOps.lean ====
section
/-! DEFINITION. The host's operations (45_host_interface R86 to R95, 70_reset_and_hazards R111, R112). Each is one
indivisible action between steps (45_host_interface R96). -/

namespace Sys2Proof.Machine

/-- Why a host call fails with `HOST_ARGUMENT` (45_host_interface R88, R89, R90; for construction log entry 9). -/
inductive HostReason where
  /-- `HEAD_INVALID`: the head field names no tape symbol. -/
  | headInvalid (head : Word)
  /-- `SYMBOL_PATTERN`: the symbol under the head holds the pattern 3. -/
  | symbolPattern (head : Word)
  /-- `SYMBOL_VALUE`: the symbol to write is not 0, 1 or 2. -/
  | symbolValue (value : Int)
  /-- `POSITION`: the head position is not in `[0, L)`. -/
  | position (value : Int)
  /-- An argument of `construct` breaks a requirement of 70_reset_and_hazards R111. -/
  | construction
deriving DecidableEq, Repr

/-- The two errors of the host interface, never machine state (60_exceptions R99). -/
inductive HostError where
  | hostArgument (reason : HostReason)
  | loadFailure
deriving DecidableEq, Repr

/-- The code of a host error (60_exceptions R99). -/
def HostError.code : HostError → Nat
  | .hostArgument _ => 11
  | .loadFailure => 12

/-! Status, head and `pc`. -/

/-- `isHalted()` (45_host_interface R87). -/
def State.isHalted (s : State) : Bool := decide (s.ctl = .halted)

/-- `faultRecord()` (45_host_interface R87). -/
def State.faultRecord (s : State) : Option FaultRecord :=
  match s.ctl with
  | .faulted f => some f
  | .running => none
  | .halted => none

/-- `readSymbolAtHead()` (45_host_interface R88). -/
def State.readSymbolAtHead (s : State) : Except HostError (BitVec 2) :=
  if !s.headValid then .error (.hostArgument (.headInvalid s.head))
  else
    let v := s.bits (s.layout.symBase + s.head.toNat) 2
    if v.toNat = 3 then .error (.hostArgument (.symbolPattern s.head)) else .ok v

/-- `writeSymbolAtHead(s)` (45_host_interface R89). -/
def State.writeSymbolAtHead (s : State) (v : Int) : Except HostError State :=
  if !s.headValid then .error (.hostArgument (.headInvalid s.head))
  else if ¬(v = 0 ∨ v = 1 ∨ v = 2) then .error (.hostArgument (.symbolValue v))
  else .ok (s.setBits (s.layout.symBase + s.head.toNat) (BitVec.ofInt 2 v))

/-- `headPosition()`, in symbols, with no check (45_host_interface R90). -/
def State.headPosition (s : State) : Nat := s.head.toNat / 2

/-- `setHeadPosition(p)` (45_host_interface R90). -/
def State.setHeadPosition (s : State) (p : Int) : Except HostError State :=
  if 0 ≤ p ∧ p < s.layout.tapeLen then .ok (s.setHead (u32 (2 * p)))
  else .error (.hostArgument (.position p))

/-- `activeInstructionOffset()` (45_host_interface R91). -/
def State.activeInstructionOffset (s : State) : Word := s.pc

/-- `setActiveInstructionOffset(o)`, which validates nothing (45_host_interface R91). -/
def State.setActiveInstructionOffset (s : State) (o : Int) : State := s.setPc (u32 o)

/-! Stepping and running. -/

/-- `step()`: the state after one step, and `printable` (40_step_loop R60, R66). -/
def State.hostStep (s : State) : State × Bool :=
  match step s with
  | .next t => (t, s.printable)
  | .fault _ => (s, false)
  | .refused _ => (s, false)

/-- The outcomes of a run (45_host_interface R92). -/
inductive RunOutcome where
  | halted
  | faulted (f : FaultRecord)
  | budgetExhausted
deriving DecidableEq, Repr

/-- What `run` hands back, with the machine after it (45_host_interface R92, R93). -/
structure RunResult where
  machine : State
  outcome : RunOutcome
  steps : Nat
  transitions : Nat
deriving DecidableEq, Repr

/-- The loop of `run`: the machine, `steps` and `transitions` after at most `budget` more steps (45_host_interface R92).
-/
def runLoop : Nat → State → Nat → Nat → State × Nat × Nat
  | 0, s, steps, transitions => (s, steps, transitions)
  | budget + 1, s, steps, transitions =>
    match s.ctl with
    | .running =>
      let (t, shown) := s.hostStep
      runLoop budget t (steps + 1) (if shown then transitions + 1 else transitions)
    | .halted => (s, steps, transitions)
    | .faulted _ => (s, steps, transitions)

/-- The outcome a control state reports (45_host_interface R92). -/
def Ctl.outcome : Ctl → RunOutcome
  | .halted => .halted
  | .faulted f => .faulted f
  | .running => .budgetExhausted

/-- `run(maxSteps, silent)` (45_host_interface R92). `silent` only tells the host whether to render snapshots, which the
core does not do (00_scope R5). -/
def State.run (s : State) (maxSteps : Nat) (_silent : Bool) : RunResult :=
  let (t, steps, transitions) := runLoop maxSteps s 0 0
  { machine := t, outcome := t.ctl.outcome, steps := steps, transitions := transitions }

/-! Construction, load, serialization, equality. -/

/-- The requirements on the arguments of `construct` but those on the input (70_reset_and_hazards R111). -/
def constructValid (table : List TableRow) (len start headPos : Int) : Bool :=
  decide (1 ≤ table.length) && table.all (fun r => r.valid table.length) &&
  decide (len % 16 = 0) && decide (16 ≤ len) &&
  decide (0 ≤ start) && decide (start < table.length) &&
  decide (0 ≤ headPos) && decide (headPos < len) &&
  decide ((constructLayout table.length len.toNat).bits ≤ maxBits)

/-- `construct(table, L, start, headPos, input, inputPos)` (70_reset_and_hazards R111). The spec's default for `start`
is 0. -/
def construct (table : List TableRow) (len start headPos : Int) (input : List Char) (inputPos : Int) :
    Except HostError State :=
  match inputSymbols input with
  | none => .error (.hostArgument .construction)
  | some symbols =>
    if constructValid table len start headPos ∧ 0 ≤ inputPos ∧ inputPos + symbols.length ≤ len then
      .ok { layout := constructLayout table.length len.toNat
            mem := Memory.ofBytes
              (constructImage table len.toNat start.toNat headPos.toNat symbols inputPos.toNat)
            ctl := .running }
    else .error (.hostArgument .construction)

/-- The little-endian word at byte `i` of a byte image (70_reset_and_hazards R112). -/
def imageWord (bytes : List Byte) (i : Nat) : Nat := (Memory.rawRead (Memory.ofBytes bytes) (8 * i) 32).toNat

/-- The layout of a byte image, where it has one (70_reset_and_hazards R112, 10_state R14). -/
def imageLayout (bytes : List Byte) : Except HostError Layout :=
  let n := bytes.length
  if n < 8 ∨ n % 4 ≠ 0 then .error .loadFailure
  else if 8 * n > maxBits then .error .loadFailure
  else
    let w := imageWord bytes 0
    if w < 2 ∨ (w - 2) % 5 ≠ 0 then .error .loadFailure
    else if 4 * w + 4 * maxRegs + 8 > n then .error .loadFailure
    else
      let tw := imageWord bytes (4 * w + 4 * maxRegs)
      if tw < 2 ∨ 4 * w + 4 * maxRegs + 4 * tw ≠ n then .error .loadFailure
      else .ok ⟨(w - 2) / 5, 16 * (tw - 2)⟩

/-- `loadFromBytes(buf)` (70_reset_and_hazards R112): the layout is checked and nothing else. -/
def loadFromBytes (bytes : List Byte) : Except HostError State := do
  let layout ← imageLayout bytes
  .ok { layout := layout, mem := Memory.ofBytes bytes, ctl := .running }

/-- `toBytes()`: all `N` bytes in buffer order; `ctl` is not in the image (45_host_interface R94). -/
def State.toBytes (s : State) : List Byte := Memory.bytesOf s.mem 0 s.layout.size

/-- The bytes `[0, 4·W)` of the instruction/table region (45_host_interface R95). -/
def State.tableRegion (s : State) : List Byte := Memory.bytesOf s.mem 0 (4 * s.layout.wordCount)

/-- The bytes `[TB/8, N)` of the working-tape region (45_host_interface R95). -/
def State.tapeRegion (s : State) : List Byte :=
  Memory.bytesOf s.mem (s.layout.tapeBase / 8) (s.layout.size - s.layout.tapeBase / 8)

/-- `equal(M1, M2)`: the instruction/table regions and the working-tape regions are equal as byte sequences; registers
and `ctl` are excluded (45_host_interface R95). -/
def machinesEqual (m1 m2 : State) : Bool :=
  decide (m1.tableRegion = m2.tableRegion) && decide (m1.tapeRegion = m2.tapeRegion)

end Sys2Proof.Machine
end

