-- ==== Sys2Proof/Safety.lean ====
section
/-! DEFINITION. What counts as a state of a machine that construction or load made, as a state in which the
Turing-machine layer works, and as a step that stays safe. -/

namespace Sys2Proof.Machine

/-- The two layout words hold what the layout says (10_state R14, R15, R22). -/
def State.layoutWordsHold (s : State) : Bool :=
  decide (s.bits wordCountOffset 32 = BitVec.ofNat 32 s.layout.wordCount) &&
  decide (s.bits s.layout.tapeBase 32 = BitVec.ofNat 32 s.layout.tapeWordCount)

/-- The state is that of a machine that construction or load made: a legal layout, a canonical memory inside the buffer,
and the layout words in their places (10_state R14, 70_reset_and_hazards R111, R112). -/
def State.wf (s : State) : Bool :=
  s.layout.wf && Memory.wf s.mem && Memory.below s.mem s.layout.size && s.layoutWordsHold

/-- The five words of the entry at bit offset `o` (30_encoding R49). -/
def State.entryWords (s : State) (o : Nat) : List Word :=
  [s.entryWord o 0, s.entryWord o 1, s.entryWord o 2, s.entryWord o 3, s.entryWord o 4]

/-- Entries 0 to 30 hold the listing of 44_bootstrap R82 (70_reset_and_hazards R113, item 1). -/
def State.bootstrapLoaded (s : State) : Bool :=
  decide (bootLen ≤ s.layout.entries) &&
  (List.range bootLen).all fun k => decide (bootstrap[k]?.map encodeWords = some (s.entryWords (entryOffset k)))

/-- `o` is the offset of a transition entry of the instruction/table region (70_reset_and_hazards R113). -/
def State.isTransitionEntry (s : State) (o : Word) : Bool :=
  match entryIndex o.toNat with
  | some k => decide (k < s.layout.entries) && decide (s.entryWord o.toNat 0 = Opcode.tmstate)
  | none => false

/-- The fields of a transition entry are usable: symbols and direction codes below 3, next states that are offsets of
transition entries (70_reset_and_hazards R113, item 5). -/
def State.transitionUsable (s : State) (o : Nat) : Bool :=
  let t := s.transitionAt o
  t.wf && s.isTransitionEntry t.next0 && s.isTransitionEntry t.next1 && s.isTransitionEntry t.next2

/-- The six conditions under which the TM layer behaves as a Turing machine (70_reset_and_hazards R113). Item 5 is asked
of every transition entry but the halt entry, whose fields are never read (43_control_instructions R80; log entry 8). -/
def State.tmReady (s : State) : Bool :=
  s.bootstrapLoaded &&
  s.isTransitionEntry (s.reg haltSentinelReg) &&
  s.isTransitionEntry s.pc &&
  s.headValid &&
  (List.range s.layout.entries).all (fun k =>
    decide (s.entryWord (entryOffset k) 0 ≠ Opcode.tmstate) ||
    decide (entryOffset k = (s.reg haltSentinelReg).toNat) || s.transitionUsable (entryOffset k)) &&
  (List.range s.layout.tapeLen).all (fun j => decide (s.sym j ≠ 3))

/-- The machine has not faulted (10_state R13). -/
def State.notFaulted (s : State) : Bool := s.faultRecord.isNone

/-! Words for what an instruction leaves alone and for the fault it takes, used in statements. -/

/-- Byte `i` is one of the four bytes of the word at bit offset `a`. -/
abbrev inWord (a i : Nat) : Prop := a / 8 ≤ i ∧ i < a / 8 + 4

/-- Byte `i` lies in the register region (10_state R17). -/
abbrev Layout.inRegisters (y : Layout) (i : Nat) : Prop := y.regBase / 8 ≤ i ∧ i < y.tapeBase / 8

/-- The instruction, executed from `s`, takes the fault `v`: the memory is as before, and `ctl` is `Faulted` with the
record of `pc`, the opcode word and the violation (60_exceptions R100, R101). -/
def takesFault (i : Instr) (s : State) (opcode : Word) (v : Violation) : Prop :=
  ∃ t, exec i s = .next t ∧ t.mem = s.mem ∧ t.layout = s.layout ∧ t.ctl = .faulted ⟨s.pc, some opcode, v⟩

/-- A step from `s` takes the fault `v` while fetching: as above, with the opcode word only if it was read. -/
def stepFaults (s : State) (opcode : Option Word) (v : Violation) : Prop :=
  ∃ t, step s = .next t ∧ t.mem = s.mem ∧ t.layout = s.layout ∧ t.ctl = .faulted ⟨s.pc, opcode, v⟩

end Sys2Proof.Machine
end

