-- ==== Sys2Proof/Certificates/Slice0/Obligations.lean ====
section
/-! DEFINITION. The statements about this machine, from the numbered rules of spec/. -/

open Sys2Proof Sys2Proof.Machine

/-! Encoding (30_encoding). -/

/-- A few words written out from the encoding tables: 44_bootstrap R82 (entries 0, 5, 10, 24, 28, 29, 30) and
95_test_vectors 2.4 (a transition entry), 2.2 A1 and 2.4 C1. -/
def Obligations.KnownWordsDecode : Prop :=
  decodeTableWord 160 0x000000E000000000000000030000000000000001 = some (.loadc 0 3 0xE0) ∧
  decodeTableWord 160 0x0000040000000007000000020000000600000006 = some (.mul 6 2 7 0x400) ∧
  decodeTableWord 160 0x00000720000000000000000C0000000B00000004 = some (.rds 11 12 0x720) ∧
  decodeTableWord 160 0x00000FE00000000000000003FFFFFFFF00000001 = some (.loadc (-1) 3 0xFE0) ∧
  decodeTableWord 160 0x0000126000000000000000050000000B00000005 = some (.wrs 11 5 0x1260) ∧
  decodeTableWord 160 0x0000130000000000000000090000000800000003 = some (.wrw 8 9 0x1300) ∧
  decodeTableWord 160 0x000013A0000000000000000E0000000200000009 = some (.ret 2 14 0x13A0) ∧
  decodeTableWord 160 0x000000E000000000000000000000000000000000 = some (.clrregs 0xE0) ∧
  decodeTableWord 160 0x000000E000000000000000000000000000000008 = some (.halt 0xE0) ∧
  decodeTableWord 160 0x00000180000000E00000004000001A240000000A = some (.tmstate ⟨0, 1, 2, 2, 2, 1, 64, 224, 384⟩)

/-- Decode and encode agree: the decoder reads back every instruction, with every operand at every value, from its
encoding, whatever bytes follow (30_encoding R49, R52, R53, R55). -/
def Obligations.DecodeReadsBackEncode : Prop :=
  ∀ (i : Instr) (rest : List Byte), decode (encode i ++ rest) = .ok i

/-- Exactly the opcode words 0 to 10 are legal; every other is refused by its own name (30_encoding R56, R58). -/
def Obligations.OnlyElevenOpcodesAreLegal : Prop :=
  ∀ w0 w1 w2 w3 w4 : Word,
    (w0.toNat ≤ 10 → ∃ i, decodeWords w0 w1 w2 w3 w4 = .ok i) ∧
    (11 ≤ w0.toNat → decodeWords w0 w1 w2 w3 w4 = .error (.illegalOpcode w0))

/-- Reserved fields have no effect: entries that differ only in ignored arguments, or in the reserved bits 7:6, 15:14 and
31:16 of a transition entry's `w1`, decode to the same instruction, and `next` of HALT and RET changes nothing that they
do (30_encoding R54, R57). -/
def Obligations.ReservedFieldsHaveNoEffect : Prop :=
  (∀ w1 w2 w3 w1' w2' w3' w4 : Word,
    decodeWords 0 w1 w2 w3 w4 = decodeWords 0 w1' w2' w3' w4 ∧
    decodeWords 8 w1 w2 w3 w4 = decodeWords 8 w1' w2' w3' w4) ∧
  (∀ op w1 w2 w3 w3' w4 : Word, op = 1 ∨ op = 2 ∨ op = 3 ∨ op = 4 ∨ op = 5 ∨ op = 9 →
    decodeWords op w1 w2 w3 w4 = decodeWords op w1 w2 w3' w4) ∧
  (∀ w1 w1' w2 w3 w4 : Word, w1 &&& 0x3F3F = w1' &&& 0x3F3F →
    decodeWords 10 w1 w2 w3 w4 = decodeWords 10 w1' w2 w3 w4) ∧
  (∀ (next next' : Word) (s : State), exec (.halt next) s = exec (.halt next') s) ∧
  (∀ (a src next next' : Word) (s : State), exec (.ret a src next) s = exec (.ret a src next') s)

/-- An instruction stored where the machine fetches is the one the next step runs. `withFetchWord` is the model's own
(log entry 3); the rest is 40_step_loop R62 and R63. -/
def Obligations.StoredInstructionRunsNext : Prop :=
  ∀ (i : Instr) (w : Nat) (s : State), natBytes 20 w = encode i →
    decodeTableWord 160 w = some i ∧ step (s.withFetchWord 160 w) = exec i (s.withFetchWord 160 w)

/-! Addresses and layout (30_encoding R50, R51, 20_memory R41). -/

/-- `EntryIndex` and `StateIndex` invert `EntryOffset` and `StateOffset`, and are undefined elsewhere (30_encoding R50,
R51). -/
def Obligations.OffsetsRoundTrip : Prop :=
  (∀ k, entryOffset k = 64 + 160 * k ∧ entryOffset k % 32 = 0 ∧ entryIndex (entryOffset k) = some k) ∧
  (∀ o, (o < 64 ∨ (o - 64) % 160 ≠ 0) → entryIndex o = none) ∧
  (∀ i, stateOffset i = entryOffset (31 + i) ∧ stateOffset i = 5024 + 160 * i ∧ stateIndex (stateOffset i) = some i) ∧
  (∀ o, (o < 5024 ∨ (o - 5024) % 160 ≠ 0) → stateIndex o = none)

/-- The buffer size in closed form (20_memory R41). -/
def Obligations.BufferSizeInClosedForm : Prop :=
  (∀ y : Layout, y.tapeLen % 16 = 0 → y.size = 80 + 20 * y.entries + y.tapeLen / 4) ∧
  ∀ n len, len % 16 = 0 →
    (constructLayout n len).entries = 32 + n ∧ (constructLayout n len).size = 720 + 20 * n + len / 4

/-! The store (20_memory). -/

/-- The unchecked primitives, bit by bit (20_memory R30). -/
def Obligations.RawAccessIsBitwise : Prop :=
  ∀ (m : Memory) (a n : Nat),
    (∀ b, (Memory.bit m b).toNat = (Memory.byte m (b / 8)).toNat / 2 ^ (b % 8) % 2) ∧
    (Memory.rawRead m a n).toNat = ((List.range n).map fun k => (Memory.bit m (a + k)).toNat * 2 ^ k).sum ∧
    ∀ (v : BitVec n) (b : Nat),
      Memory.bit (Memory.rawWrite m a v) b = if a ≤ b ∧ b < a + n then v.toNat.testBit (b - a) else Memory.bit m b

/-- A symbol inside a word is the two bits of the word's value at its place (20_memory R32). -/
def Obligations.SymbolInsideWord : Prop :=
  ∀ (s : State) (a : Nat), a % 2 = 0 →
    s.bits a 2 = (s.bits (a - a % 32) 32).extractLsb' (a % 32) 2

/-- A word at an aligned offset is its four bytes, least significant first (20_memory R31). -/
def Obligations.WordsAreLittleEndian : Prop :=
  ∀ (s : State) (a : Nat), a % 32 = 0 →
    (s.bits a 32).toNat = (s.byte (a / 8)).toNat + 256 * (s.byte (a / 8 + 1)).toNat +
      65536 * (s.byte (a / 8 + 2)).toNat + 16777216 * (s.byte (a / 8 + 3)).toNat

/-- A checked read makes its checks in the order alignment, bounds, value (20_memory R35). -/
def Obligations.CheckedReadOrder : Prop :=
  ∀ (s : State) (a : Int),
    s.memRead a 32 =
      (if a % 32 ≠ 0 then .error (.misalignedWord a)
       else if a < 0 ∨ a + 32 > s.layout.bits then .error (.outOfBounds a)
       else .ok (s.bits a.toNat 32)) ∧
    s.memRead a 2 =
      (if a % 2 ≠ 0 ∨ a % 8 > 6 then .error (.misalignedSymbol a)
       else if a < 0 ∨ a + 2 > s.layout.bits then .error (.outOfBounds a)
       else if s.bits a.toNat 2 = 3 then .error (.invalidSymbolPattern a)
       else .ok (s.bits a.toNat 2))

/-- A checked write makes its checks in the order alignment, bounds, layout word, value, and then changes the addressed
bits and no other (20_memory R36). -/
def Obligations.CheckedWriteOrder : Prop :=
  ∀ (s : State) (a v : Int),
    (s.memWrite a 32 v =
      (if a % 32 ≠ 0 then .error (.misalignedWord a)
       else if a < 0 ∨ a + 32 > s.layout.bits then .error (.outOfBounds a)
       else if (a < 32 ∧ 0 < a + 32) ∨ (a < s.layout.tapeBase + 32 ∧ s.layout.tapeBase < a + 32) then
         .error (.layoutWordWrite a)
       else .ok (s.setBits a.toNat (u32 v)))) ∧
    (s.memWrite a 2 v =
      (if a % 2 ≠ 0 ∨ a % 8 > 6 then .error (.misalignedSymbol a)
       else if a < 0 ∨ a + 2 > s.layout.bits then .error (.outOfBounds a)
       else if (a < 32 ∧ 0 < a + 2) ∨ (a < s.layout.tapeBase + 32 ∧ s.layout.tapeBase < a + 2) then
         .error (.layoutWordWrite a)
       else if v ≠ 0 ∧ v ≠ 1 ∧ v ≠ 2 then .error (.invalidSymbolValue v)
       else .ok (s.setBits a.toNat (BitVec.ofInt 2 v)))) ∧
    ∀ n t, s.memWrite a n v = .ok t →
      t.bits a.toNat n = BitVec.ofInt n v ∧ t.layout = s.layout ∧ t.ctl = s.ctl ∧
      ∀ b : Nat, (b < a ∨ a + n ≤ b) → t.bit b = s.bit b

/-- No program write changes a layout word: an aligned in-bounds write that touches one raises LAYOUT_WORD_WRITE, any
other leaves both, and both can be read (20_memory R37). -/
def Obligations.LayoutWordsCannotBeWritten : Prop :=
  ∀ (s : State) (v : Int),
    s.memWrite 0 32 v = .error (.layoutWordWrite 0) ∧
    s.memWrite s.layout.tapeBase 32 v = .error (.layoutWordWrite s.layout.tapeBase) ∧
    (∀ a : Int, a % 2 = 0 → (0 ≤ a ∧ a < 32 ∨ s.layout.tapeBase ≤ a ∧ a < s.layout.tapeBase + 32) →
      s.memWrite a 2 v = .error (.layoutWordWrite a)) ∧
    (∀ (a : Int) (n : Nat) (t : State), 0 < n → s.memWrite a n v = .ok t →
      t.bits 0 32 = s.bits 0 32 ∧ t.bits s.layout.tapeBase 32 = s.bits s.layout.tapeBase 32) ∧
    s.memRead 0 32 = .ok (s.bits 0 32) ∧
    s.memRead s.layout.tapeBase 32 = .ok (s.bits s.layout.tapeBase 32)

/-! Registers (10_state R17 to R19). -/

/-- The register primitives: an index outside `[0, 16)` raises REGISTER_INDEX with the operand's signed value; a valid one
names the word at `RB + 32·i`; what is written is read back, and no other register changes (10_state R18). -/
def Obligations.RegisterPrimitives : Prop :=
  ∀ (s : State) (w v : Word),
    (¬(0 ≤ w.toInt ∧ w.toInt < 16) →
      regIndex w = .error (.registerIndex w.toInt) ∧ s.readReg w = .error (.registerIndex w.toInt)) ∧
    (0 ≤ w.toInt → w.toInt < 16 →
      regIndex w = .ok w.toInt.toNat ∧
      s.readReg w = .ok (s.bits (s.layout.regBase + 32 * w.toInt.toNat) 32) ∧
      (s.setReg w.toInt.toNat v).readReg w = .ok v ∧
      (∀ j, j ≠ w.toInt.toNat → (s.setReg w.toInt.toNat v).reg j = s.reg j) ∧
      ∀ b, (b < s.layout.regBase + 32 * w.toInt.toNat ∨ s.layout.regBase + 32 * w.toInt.toNat + 32 ≤ b) →
        (s.setReg w.toInt.toNat v).bit b = s.bit b)

/-- Registers and memory are one storage: the word at `RB + 32·i` reads and writes `x[i]`, and a symbol read there gives
the pattern's two bits (10_state R19). -/
def Obligations.RegistersAreMemory : Prop :=
  ∀ (s : State) (i : Nat) (v : Int), i < 16 →
    s.memRead (s.layout.regBase + 32 * i : Nat) 32 = .ok (s.reg i) ∧
    s.memWrite (s.layout.regBase + 32 * i : Nat) 32 v = .ok (s.setReg i (u32 v)) ∧
    ∀ k, k < 16 → (s.reg i).extractLsb' (2 * k) 2 ≠ 3 →
      s.memRead (s.layout.regBase + 32 * i + 2 * k : Nat) 2 = .ok ((s.reg i).extractLsb' (2 * k) 2)

/-! What each instruction does when it completes: its result and its frame. Registers, `pc`, head and tape are bytes of
the one memory, so the last clause of each covers them too. -/

/-- CLRREGS completes in every state: all sixteen registers are 0, `pc` is `next`, nothing else changes
(41_register_instructions R68). -/
def Obligations.ClrregsClearsAllRegisters : Prop :=
  ∀ (next : Word) (s : State), ∃ t, exec (.clrregs next) s = .next t ∧
    (∀ j, j < 16 → t.reg j = 0) ∧ t.pc = next ∧ t.ctl = s.ctl ∧ t.layout = s.layout ∧ t.head = s.head ∧
    ∀ i, ¬inWord pcOffset i → ¬s.layout.inRegisters i → t.byte i = s.byte i

/-- LOADC with a valid destination completes: the destination holds the whole constant, `pc` is `next`, nothing else
changes (41_register_instructions R69). -/
def Obligations.LoadcLoadsConstant : Prop :=
  ∀ (v d next : Word) (s : State), isRegister d →
    ∃ t, exec (.loadc v d next) s = .next t ∧
      t.reg d.toInt.toNat = v ∧ (∀ j, j < 16 → j ≠ d.toInt.toNat → t.reg j = s.reg j) ∧
      t.pc = next ∧ t.ctl = s.ctl ∧ t.layout = s.layout ∧ t.head = s.head ∧
      ∀ i, ¬inWord pcOffset i → ¬inWord (s.layout.regOffset d.toInt.toNat) i → t.byte i = s.byte i

/-- ADD with valid registers and a sum in range completes: the destination holds the exact sum of the sources as they
were, `pc` is `next`, nothing else changes (41_register_instructions R67, R71). -/
def Obligations.AddWritesExactSum : Prop :=
  ∀ (p q d next : Word) (s : State), isRegister p → isRegister q → isRegister d →
    let r := (s.reg p.toInt.toNat).toInt + (s.reg q.toInt.toNat).toInt
    ((-2 ^ 31 : Int) ≤ r) → r < 2 ^ 31 →
    ∃ t, exec (.add p q d next) s = .next t ∧
      (t.reg d.toInt.toNat).toInt = r ∧ (∀ j, j < 16 → j ≠ d.toInt.toNat → t.reg j = s.reg j) ∧
      t.pc = next ∧ t.ctl = s.ctl ∧ t.layout = s.layout ∧ t.head = s.head ∧
      ∀ i, ¬inWord pcOffset i → ¬inWord (s.layout.regOffset d.toInt.toNat) i → t.byte i = s.byte i

/-- MUL with valid registers and a product in range completes: the destination holds the exact product of the sources as
they were, `pc` is `next`, nothing else changes (41_register_instructions R67, R70). -/
def Obligations.MulWritesExactProduct : Prop :=
  ∀ (p q d next : Word) (s : State), isRegister p → isRegister q → isRegister d →
    let r := (s.reg p.toInt.toNat).toInt * (s.reg q.toInt.toNat).toInt
    ((-2 ^ 31 : Int) ≤ r) → r < 2 ^ 31 →
    ∃ t, exec (.mul p q d next) s = .next t ∧
      (t.reg d.toInt.toNat).toInt = r ∧ (∀ j, j < 16 → j ≠ d.toInt.toNat → t.reg j = s.reg j) ∧
      t.pc = next ∧ t.ctl = s.ctl ∧ t.layout = s.layout ∧ t.head = s.head ∧
      ∀ i, ¬inWord pcOffset i → ¬inWord (s.layout.regOffset d.toInt.toNat) i → t.byte i = s.byte i

/-- RDW with valid registers and an aligned in-bounds address completes: the destination holds the word at the address,
`pc` is `next`, nothing else changes (42_store_instructions R73). -/
def Obligations.RdwReadsWord : Prop :=
  ∀ (a d next : Word) (s : State), isRegister a → isRegister d →
    let addr := (s.reg a.toInt.toNat).toInt
    addr % 32 = 0 → 0 ≤ addr → addr + 32 ≤ s.layout.bits →
    ∃ t, exec (.rdw a d next) s = .next t ∧
      t.reg d.toInt.toNat = s.bits addr.toNat 32 ∧ (∀ j, j < 16 → j ≠ d.toInt.toNat → t.reg j = s.reg j) ∧
      t.pc = next ∧ t.ctl = s.ctl ∧ t.layout = s.layout ∧ t.head = s.head ∧
      ∀ i, ¬inWord pcOffset i → ¬inWord (s.layout.regOffset d.toInt.toNat) i → t.byte i = s.byte i

/-- RDS with valid registers and an even in-bounds address whose two bits hold a symbol completes: the destination holds
the symbol zero-extended, `pc` is `next`, nothing else changes (42_store_instructions R75). -/
def Obligations.RdsReadsSymbol : Prop :=
  ∀ (a d next : Word) (s : State), isRegister a → isRegister d →
    let addr := (s.reg a.toInt.toNat).toInt
    addr % 2 = 0 → 0 ≤ addr → addr + 2 ≤ s.layout.bits → s.bits addr.toNat 2 ≠ 3 →
    ∃ t, exec (.rds a d next) s = .next t ∧
      (t.reg d.toInt.toNat).toInt = ((s.bits addr.toNat 2).toNat : Int) ∧
      (∀ j, j < 16 → j ≠ d.toInt.toNat → t.reg j = s.reg j) ∧
      t.pc = next ∧ t.ctl = s.ctl ∧ t.layout = s.layout ∧ t.head = s.head ∧
      ∀ i, ¬inWord pcOffset i → ¬inWord (s.layout.regOffset d.toInt.toNat) i → t.byte i = s.byte i

/-- WRW with valid registers and an aligned in-bounds address that is no layout word completes: the word at the address
holds the source (but for the word of `pc`, which then holds `next`), and no byte outside the stored word and `pc`
changes (42_store_instructions R74). -/
def Obligations.WrwWritesWord : Prop :=
  ∀ (a src next : Word) (s : State), isRegister a → isRegister src →
    let addr := (s.reg a.toInt.toNat).toInt
    addr % 32 = 0 → 0 < addr → addr + 32 ≤ s.layout.bits → addr ≠ s.layout.tapeBase →
    ∃ t, exec (.wrw a src next) s = .next t ∧
      (addr ≠ 32 → t.bits addr.toNat 32 = s.reg src.toInt.toNat) ∧
      (∀ j, j < 16 → addr ≠ s.layout.regOffset j → t.reg j = s.reg j) ∧
      (addr ≠ s.layout.headOffset → t.head = s.head) ∧
      t.pc = next ∧ t.ctl = s.ctl ∧ t.layout = s.layout ∧
      ∀ i, ¬inWord pcOffset i → ¬inWord addr.toNat i → t.byte i = s.byte i

/-- WRS with valid registers, an even in-bounds address outside the layout words and a symbol to write completes: the two
addressed bits hold the symbol (but for those of `pc`, which then holds `next`), and no bit outside them and `pc` changes,
so that the other symbols of the byte stay (42_store_instructions R76). -/
def Obligations.WrsWritesSymbol : Prop :=
  ∀ (a src next : Word) (s : State), isRegister a → isRegister src →
    let addr := (s.reg a.toInt.toNat).toInt
    let v := (s.reg src.toInt.toNat).toInt
    addr % 2 = 0 → 32 ≤ addr → addr + 2 ≤ s.layout.bits →
    (addr < s.layout.tapeBase ∨ s.layout.tapeBase + 32 ≤ addr) → (v = 0 ∨ v = 1 ∨ v = 2) →
    ∃ t, exec (.wrs a src next) s = .next t ∧
      (64 ≤ addr → ((t.bits addr.toNat 2).toNat : Int) = v) ∧
      (∀ b : Nat, (b < 32 ∨ 64 ≤ b) → (b < addr ∨ addr + 2 ≤ b) → t.bit b = s.bit b) ∧
      t.pc = next ∧ t.ctl = s.ctl ∧ t.layout = s.layout ∧
      (∀ j, j < 16 → (addr < s.layout.regOffset j ∨ s.layout.regOffset j + 32 ≤ addr) → t.reg j = s.reg j) ∧
      ∀ i, ¬inWord pcOffset i → i ≠ addr.toNat / 8 → t.byte i = s.byte i

/-- HALT completes in every state: `ctl` is Halted and the whole memory, `pc` and `x[0]` included, is as before, whatever
`x[0]` holds (43_control_instructions R77). -/
def Obligations.HaltStopsTheMachine : Prop :=
  ∀ (next : Word) (s : State), ∃ t, exec (.halt next) s = .next t ∧
    t.ctl = .halted ∧ t.pc = s.pc ∧ t.layout = s.layout ∧ (∀ j, t.reg j = s.reg j) ∧ ∀ i, t.byte i = s.byte i

/-- RET with valid registers and an aligned in-bounds address that is no layout word completes: the word at the address
holds the source; at address 32 that is a jump, elsewhere `pc` is unchanged; no byte outside the stored word changes
(43_control_instructions R78). -/
def Obligations.RetStoresWithoutAdvancing : Prop :=
  ∀ (a src next : Word) (s : State), isRegister a → isRegister src →
    let addr := (s.reg a.toInt.toNat).toInt
    addr % 32 = 0 → 0 < addr → addr + 32 ≤ s.layout.bits → addr ≠ s.layout.tapeBase →
    ∃ t, exec (.ret a src next) s = .next t ∧
      t.bits addr.toNat 32 = s.reg src.toInt.toNat ∧
      (addr = 32 → t.pc = s.reg src.toInt.toNat) ∧ (addr ≠ 32 → t.pc = s.pc) ∧
      (∀ j, j < 16 → addr ≠ s.layout.regOffset j → t.reg j = s.reg j) ∧
      t.ctl = s.ctl ∧ t.layout = s.layout ∧
      ∀ i, ¬inWord addr.toNat i → t.byte i = s.byte i

/-- A transition entry that is not the halt entry, with the head on the tape, enters the bootstrap: `x[1]` is the entry's
offset, `pc` is 64, and nothing else changes: no tape symbol, not the head (43_control_instructions R79). -/
def Obligations.TmstateEntersBootstrap : Prop :=
  ∀ (e : Transition) (s : State), s.pc ≠ s.reg 0 → s.head.toNat % 2 = 0 → s.head.toNat < 2 * s.layout.tapeLen →
    ∃ t, exec (.tmstate e) s = .next t ∧
      t.reg 1 = s.pc ∧ t.pc = 64 ∧ (∀ j, j < 16 → j ≠ 1 → t.reg j = s.reg j) ∧
      t.ctl = s.ctl ∧ t.layout = s.layout ∧ t.head = s.head ∧ (∀ j, t.sym j = s.sym j) ∧
      ∀ i, ¬inWord pcOffset i → ¬inWord (s.layout.regOffset 1) i → t.byte i = s.byte i

/-- A transition entry whose offset is the pattern of `x[0]` halts the machine, even with the head off the tape, and
changes no byte (43_control_instructions R79, R80). -/
def Obligations.TmstateHaltsAtSentinel : Prop :=
  ∀ (e : Transition) (s : State), s.pc = s.reg 0 →
    ∃ t, exec (.tmstate e) s = .next t ∧ t.ctl = .halted ∧ t.layout = s.layout ∧ t.pc = s.pc ∧
      (∀ j, t.reg j = s.reg j) ∧ ∀ i, t.byte i = s.byte i

/-! Where each instruction traps, in the order of its checks (60_exceptions R98, R102). -/

/-- LOADC, ADD and MUL: REGISTER_INDEX for the operands in order, then, for ADD and MUL, ARITH_OVERFLOW with the exact
result (41_register_instructions R69 to R71; 60_exceptions R102). -/
def Obligations.RegisterInstructionFaults : Prop :=
  ∀ (v p q d next : Word) (s : State),
    (¬isRegister d → takesFault (.loadc v d next) s 1 (.registerIndex d.toInt)) ∧
    ∀ (i : Instr) (op : Word) (r : Int),
      (i = .add p q d next ∧ op = 7 ∧ r = (s.reg p.toInt.toNat).toInt + (s.reg q.toInt.toNat).toInt ∨
       i = .mul p q d next ∧ op = 6 ∧ r = (s.reg p.toInt.toNat).toInt * (s.reg q.toInt.toNat).toInt) →
      (¬isRegister p → takesFault i s op (.registerIndex p.toInt)) ∧
      (isRegister p → ¬isRegister q → takesFault i s op (.registerIndex q.toInt)) ∧
      (isRegister p → isRegister q → ¬isRegister d → takesFault i s op (.registerIndex d.toInt)) ∧
      (isRegister p → isRegister q → isRegister d → (r < -2 ^ 31 ∨ 2 ^ 31 ≤ r) →
        takesFault i s op (.arithOverflow r))

/-- RDW and RDS: REGISTER_INDEX for the address register, then the destination; then alignment, bounds and, for RDS, the
bit pattern 3 (42_store_instructions R73, R75; 60_exceptions R102). -/
def Obligations.LoadFaults : Prop :=
  ∀ (a d next : Word) (s : State),
    let addr := (s.reg a.toInt.toNat).toInt
    (¬isRegister a → takesFault (.rdw a d next) s 2 (.registerIndex a.toInt) ∧
      takesFault (.rds a d next) s 4 (.registerIndex a.toInt)) ∧
    (isRegister a → ¬isRegister d → takesFault (.rdw a d next) s 2 (.registerIndex d.toInt) ∧
      takesFault (.rds a d next) s 4 (.registerIndex d.toInt)) ∧
    (isRegister a → isRegister d →
      (addr % 32 ≠ 0 → takesFault (.rdw a d next) s 2 (.misalignedWord addr)) ∧
      (addr % 32 = 0 → (addr < 0 ∨ addr + 32 > s.layout.bits) →
        takesFault (.rdw a d next) s 2 (.outOfBounds addr)) ∧
      (addr % 2 ≠ 0 → takesFault (.rds a d next) s 4 (.misalignedSymbol addr)) ∧
      (addr % 2 = 0 → (addr < 0 ∨ addr + 2 > s.layout.bits) →
        takesFault (.rds a d next) s 4 (.outOfBounds addr)) ∧
      (addr % 2 = 0 → 0 ≤ addr → addr + 2 ≤ s.layout.bits → s.bits addr.toNat 2 = 3 →
        takesFault (.rds a d next) s 4 (.invalidSymbolPattern addr)))

/-- WRW, RET and WRS: REGISTER_INDEX for the address register, then the source; then alignment, bounds, layout word and,
for WRS, the symbol value (42_store_instructions R74, R76; 43_control_instructions R78; 60_exceptions R102). -/
def Obligations.StoreFaults : Prop :=
  ∀ (a src next : Word) (s : State),
    let addr := (s.reg a.toInt.toNat).toInt
    let v := (s.reg src.toInt.toNat).toInt
    (∀ (i : Instr) (op : Word),
      (i = .wrw a src next ∧ op = 3 ∨ i = .ret a src next ∧ op = 9 ∨ i = .wrs a src next ∧ op = 5) →
      (¬isRegister a → takesFault i s op (.registerIndex a.toInt)) ∧
      (isRegister a → ¬isRegister src → takesFault i s op (.registerIndex src.toInt))) ∧
    (isRegister a → isRegister src →
      (∀ (i : Instr) (op : Word), (i = .wrw a src next ∧ op = 3 ∨ i = .ret a src next ∧ op = 9) →
        (addr % 32 ≠ 0 → takesFault i s op (.misalignedWord addr)) ∧
        (addr % 32 = 0 → (addr < 0 ∨ addr + 32 > s.layout.bits) → takesFault i s op (.outOfBounds addr)) ∧
        ((addr = 0 ∨ addr = s.layout.tapeBase) → takesFault i s op (.layoutWordWrite addr))) ∧
      (addr % 2 ≠ 0 → takesFault (.wrs a src next) s 5 (.misalignedSymbol addr)) ∧
      (addr % 2 = 0 → (addr < 0 ∨ addr + 2 > s.layout.bits) →
        takesFault (.wrs a src next) s 5 (.outOfBounds addr)) ∧
      (addr % 2 = 0 →
        (0 ≤ addr ∧ addr < 32 ∨ s.layout.tapeBase ≤ addr ∧ addr < s.layout.tapeBase + 32) →
        takesFault (.wrs a src next) s 5 (.layoutWordWrite addr)) ∧
      (addr % 2 = 0 → 32 ≤ addr → addr + 2 ≤ s.layout.bits →
        (addr < s.layout.tapeBase ∨ s.layout.tapeBase + 32 ≤ addr) → ¬(v = 0 ∨ v = 1 ∨ v = 2) →
        takesFault (.wrs a src next) s 5 (.invalidSymbolValue v)))

/-- A dispatch that does not halt, with the head field odd or at or past `2·L`, takes HEAD_OUT_OF_TAPE
(43_control_instructions R79). -/
def Obligations.HeadOffTapeFaults : Prop :=
  ∀ (e : Transition) (s : State), s.pc ≠ s.reg 0 →
    (s.head.toNat % 2 ≠ 0 ∨ 2 * s.layout.tapeLen ≤ s.head.toNat) →
    takesFault (.tmstate e) s 10 (.headOutOfTape s.head)

/-- Fetching: a misaligned `pc`, then one past the buffer, faults with no opcode recorded; a generic entry cut off by the
buffer's end faults at the first word that does not fit, also with an illegal opcode; a whole entry with an opcode of 11
or more faults ILLEGAL_OPCODE (40_step_loop R62, R63; 30_encoding R56; 60_exceptions R102). -/
def Obligations.FetchFaults : Prop :=
  ∀ s : State, s.ctl = .running →
    let p := s.pc.toNat
    let w0 := s.bits p 32
    (p % 32 ≠ 0 → stepFaults s none (.misalignedWord p)) ∧
    (p % 32 = 0 → s.layout.bits < p + 32 → stepFaults s none (.outOfBounds p)) ∧
    (∀ k, p % 32 = 0 → w0 ≠ 10 → 1 ≤ k → k ≤ 4 → p + 32 * k ≤ s.layout.bits → s.layout.bits < p + 32 * k + 32 →
      stepFaults s (some w0) (.outOfBounds (p + 32 * k : Nat))) ∧
    (p % 32 = 0 → p + 160 ≤ s.layout.bits → 11 ≤ w0.toNat → stepFaults s (some w0) (.illegalOpcode w0))

/-! The machine as a whole. -/

/-- A step runs the decoded instruction: where the 20 bytes at `pc` decode to `i`, a running machine's step is `exec` of
`i` at the same state; this model's step adds nothing around `exec` (40_step_loop R60). -/
def Obligations.StepRunsDecodedInstruction : Prop :=
  ∀ (s : State) (i : Instr), s.ctl = .running → s.pc.toNat % 32 = 0 → s.pc.toNat + 160 ≤ s.layout.bits →
    decode (Memory.bytesOf s.mem (s.pc.toNat / 8) 20) = .ok i → step s = exec i s

/-- A transition entry needs only its opcode word: the step is the dispatch even where the rest of the entry does not lie
in the buffer, and whatever its fields hold (40_step_loop R63, 43_control_instructions R79). -/
def Obligations.TransitionNeedsOnlyItsOpcode : Prop :=
  ∀ (s : State) (e : Transition), s.ctl = .running → s.pc.toNat % 32 = 0 → s.pc.toNat + 32 ≤ s.layout.bits →
    s.bits s.pc.toNat 32 = 10 → step s = exec (.tmstate e) s

/-- A step from Halted or Faulted changes nothing and returns `printable = false` (40_step_loop R61). -/
def Obligations.StoppedMachineStays : Prop :=
  ∀ s : State, s.ctl ≠ .running → step s = .next s ∧ s.hostStep = (s, false)

/-- Every step is defined in every state: it answers a next state, never a stop of the model's own
(70_reset_and_hazards R113). -/
def Obligations.EveryStepIsDefined : Prop :=
  ∀ s : State, ∃ t, step s = .next t ∧ s.hostStep.1 = t ∧ ∀ i : Instr, ∃ u, exec i s = .next u

/-- Faults are precise: a step that faults leaves the memory and the layout as they were, records the `pc` of the faulting
entry and its opcode word if it could be read, and is not printable (40_step_loop R65, 60_exceptions R100, R101). -/
def Obligations.FaultsArePrecise : Prop :=
  ∀ (s t : State) (f : FaultRecord), s.ctl = .running → step s = .next t → t.ctl = .faulted f →
    t.mem = s.mem ∧ t.layout = s.layout ∧ f.pc = s.pc ∧ t.pc = s.pc ∧ s.printable = false ∧
    (∀ w, f.opcode = some w → w = s.bits s.pc.toNat 32) ∧
    (f.opcode = none ↔ (s.pc.toNat % 32 ≠ 0 ∨ s.layout.bits < s.pc.toNat + 32))

/-- A step returns `printable = true` in exactly one case: a dispatch that does not halt (40_step_loop R66). -/
def Obligations.PrintableExactlyAtDispatch : Prop :=
  ∀ s : State, s.hostStep.2 = true ↔
    (s.ctl = .running ∧ s.pc.toNat % 32 = 0 ∧ s.pc.toNat + 32 ≤ s.layout.bits ∧ s.bits s.pc.toNat 32 = 10 ∧
      s.pc ≠ s.reg 0 ∧ s.head.toNat % 2 = 0 ∧ s.head.toNat < 2 * s.layout.tapeLen)

/-- The final `pc` of every step, case by case (40_step_loop R64). -/
def Obligations.FinalPcOfEveryStep : Prop :=
  (∀ (i : Instr) (s t : State), exec i s = .next t →
    (∀ f, t.ctl = .faulted f → s.ctl = .running → t.pc = s.pc) ∧
    (t.ctl = s.ctl → s.ctl = .running → match i with
      | .clrregs next => t.pc = next
      | .loadc _ _ next => t.pc = next
      | .rdw _ _ next => t.pc = next
      | .wrw _ _ next => t.pc = next
      | .rds _ _ next => t.pc = next
      | .wrs _ _ next => t.pc = next
      | .mul _ _ _ next => t.pc = next
      | .add _ _ _ next => t.pc = next
      | .halt _ => False
      | .ret a src _ =>
        t.pc = if (s.reg a.toInt.toNat).toInt = 32 then s.reg src.toInt.toNat else s.pc
      | .tmstate _ => t.pc = 64) ∧
    (t.ctl = .halted → s.ctl = .running → t.pc = s.pc)) ∧
  (∀ s t : State, s.ctl ≠ .running → step s = .next t → t.pc = s.pc) ∧
  ∀ (s t : State) (f : FaultRecord), s.ctl = .running → step s = .next t → t.ctl = .faulted f → t.pc = s.pc

/-- `ctl` is written by HALT, by a halt test that matched and by a fault, and by nothing else in a step; no step leaves
Halted or Faulted (10_state R13). -/
def Obligations.ControlStateWriters : Prop :=
  ∀ s t : State, step s = .next t →
    (s.ctl ≠ .running → t.ctl = s.ctl) ∧
    (s.ctl = .running → t.ctl = .halted →
      s.bits s.pc.toNat 32 = 8 ∨ (s.bits s.pc.toNat 32 = 10 ∧ s.pc = s.reg 0)) ∧
    (s.ctl = .running → s.pc.toNat % 32 = 0 → s.pc.toNat + 160 ≤ s.layout.bits → s.bits s.pc.toNat 32 = 8 →
      t.ctl = .halted) ∧
    (s.ctl = .running → s.pc.toNat % 32 = 0 → s.pc.toNat + 32 ≤ s.layout.bits → s.bits s.pc.toNat 32 = 10 →
      s.pc = s.reg 0 → t.ctl = .halted)

/-- The state invariant: every step keeps the legal layout, the canonical memory inside the buffer and the layout words in
their places (10_state R14, 20_memory R37). -/
def Obligations.StepKeepsTheInvariant : Prop :=
  ∀ s t : State, s.wf → step s = .next t → t.wf ∧ t.layout = s.layout

/-- Reset is a machine that meets the invariant; it is one that load accepts. That reset is the construction with an empty
table, the shortest tape and nothing on it is the model's choice (log entry 3). -/
def Obligations.ResetMeetsTheInvariant : Prop :=
  State.reset.wf = true ∧ State.reset.bootstrapLoaded = true ∧ State.reset.ctl = .running ∧
  State.reset.pc = 5024 ∧ State.reset.reg 0 = 5024 ∧ State.reset.head = 0 ∧
  (∀ j, 1 ≤ j → j < 16 → State.reset.reg j = 0) ∧ ∀ j, j < 16 → State.reset.sym j = 2

/-- A store to `pc` by WRW or WRS is lost: the step ends as if the store had not been made (70_reset_and_hazards R115,
40_step_loop R64). -/
def Obligations.StoreToPcIsLost : Prop :=
  ∀ (a src next : Word) (s : State), isRegister a → isRegister src →
    let addr := (s.reg a.toInt.toNat).toInt
    let v := (s.reg src.toInt.toNat).toInt
    (addr = 32 → ∃ t, exec (.wrw a src next) s = .next t ∧ t.pc = next ∧ t.ctl = s.ctl ∧ t.layout = s.layout ∧
      ∀ i, ¬inWord pcOffset i → t.byte i = s.byte i) ∧
    (addr % 2 = 0 → 32 ≤ addr → addr < 64 → (v = 0 ∨ v = 1 ∨ v = 2) →
      ∃ t, exec (.wrs a src next) s = .next t ∧ t.pc = next ∧ t.ctl = s.ctl ∧ t.layout = s.layout ∧
      ∀ i, ¬inWord pcOffset i → t.byte i = s.byte i)

/-- While `x[0]` is 0, as after CLRREGS, no dispatch can halt: a step that halts ran HALT (70_reset_and_hazards R117). -/
def Obligations.NoDispatchHaltsAfterClear : Prop :=
  ∀ s t : State, s.wf → s.ctl = .running → s.reg 0 = 0 → step s = .next t → t.ctl = .halted →
    s.bits s.pc.toNat 32 = 8

/-- A RET whose store is not to 32, and changes neither its own entry nor its two registers, repeats: the machine stays on
it, and the step after runs it again and changes no byte (70_reset_and_hazards R119). -/
def Obligations.RetElsewhereRepeats : Prop :=
  ∀ (s : State) (a src next : Word), s.ctl = .running → s.pc.toNat % 32 = 0 → s.pc.toNat + 160 ≤ s.layout.bits →
    decode (Memory.bytesOf s.mem (s.pc.toNat / 8) 20) = .ok (.ret a src next) →
    isRegister a → isRegister src →
    let addr := (s.reg a.toInt.toNat).toInt
    addr % 32 = 0 → 32 < addr → addr + 32 ≤ s.layout.bits → addr ≠ s.layout.tapeBase →
    (addr + 32 ≤ s.pc.toNat ∨ s.pc.toNat + 160 ≤ addr) →
    addr ≠ s.layout.regOffset a.toInt.toNat → addr ≠ s.layout.regOffset src.toInt.toNat →
    ∃ t, step s = .next t ∧ t.pc = s.pc ∧ t.ctl = .running ∧ t.bits addr.toNat 32 = s.reg src.toInt.toNat ∧
      ∃ u, step t = .next u ∧ u.pc = s.pc ∧ u.ctl = .running ∧ ∀ i, u.byte i = t.byte i

/-- One Turing-machine transition: from a dispatch that does not halt, in a machine whose bootstrap is in place and whose
symbol, write-symbol and direction fields are usable, 32 steps write the symbol under the head, move the head, go to the
next state, leave the registers of 44_bootstrap R83, and change no other bit; only the first is printable (44_bootstrap
R84). The transition entry is one of the instruction/table region. -/
def Obligations.TransitionTakesThirtyTwoSteps : Prop :=
  ∀ s : State, s.wf → s.ctl = .running → s.bootstrapLoaded →
    let p := s.pc.toNat
    let h := s.head.toNat
    64 ≤ p → p % 32 = 0 → p + 160 ≤ s.layout.regBase → s.bits p 32 = 10 → s.pc ≠ s.reg 0 → s.headValid →
    let x := (s.sym (h / 2)).toNat
    let w := s.bits (p + 32 + 2 * x) 2
    let d := s.bits (p + 40 + 2 * x) 2
    let n := s.bits (p + 64 + 32 * x) 32
    x ≠ 3 → w ≠ 3 → d ≠ 3 →
    ∃ t, Sys2Proof.core.run 32 s = .next t ∧ t.ctl = .running ∧ t.layout = s.layout ∧
      t.sym (h / 2) = w ∧ t.head = u32 ((h : Int) + 2 * ((d.toNat : Int) - 1)) ∧ t.pc = n ∧
      t.reg 0 = s.reg 0 ∧ t.reg 1 = s.pc ∧ t.reg 2 = 32 ∧ t.reg 3 = u32 (-1) ∧
      t.reg 4 = u32 s.layout.wordCount ∧ t.reg 5 = u32 w.toNat ∧ t.reg 6 = u32 (2 * ((d.toNat : Int) - 1)) ∧
      t.reg 7 = u32 s.layout.tapeBase ∧ t.reg 8 = u32 s.layout.headOffset ∧
      t.reg 9 = u32 ((h : Int) + 2 * ((d.toNat : Int) - 1)) ∧ t.reg 10 = u32 s.layout.symBase ∧
      t.reg 11 = u32 (s.layout.symBase + h : Nat) ∧ t.reg 12 = u32 x ∧ t.reg 13 = u32 (p + 64 + 32 * x : Nat) ∧
      t.reg 14 = n ∧ t.reg 15 = u32 (p + 40 + 2 * x : Nat) ∧
      (∀ b, (b < 32 ∨ 64 ≤ b) → (b < s.layout.regOffset 1 ∨ s.layout.tapeBase ≤ b) →
        (b < s.layout.headOffset ∨ s.layout.symBase ≤ b) →
        (b < s.layout.symBase + h ∨ s.layout.symBase + h + 2 ≤ b) → t.bit b = s.bit b) ∧
      s.printable = true ∧
      ∀ k u, 1 ≤ k → k ≤ 31 → Sys2Proof.core.run k s = .next u → u.ctl = .running ∧ u.printable = false

/-! The host's operations (45_host_interface, 70_reset_and_hazards). -/

/-- The two status queries (45_host_interface R87). -/
def Obligations.StatusQueries : Prop :=
  ∀ s : State, (s.isHalted = true ↔ s.ctl = .halted) ∧
    (∀ f, s.faultRecord = some f ↔ s.ctl = .faulted f) ∧ (s.faultRecord = none ↔ ∀ f, s.ctl ≠ .faulted f)

/-- The symbol operations at the head: their failures in order, and that what was written is read back while no other bit
changes (45_host_interface R88, R89). -/
def Obligations.SymbolAtHead : Prop :=
  ∀ (s : State) (v : Int),
    let h := s.head.toNat
    let bad := h % 2 ≠ 0 ∨ 2 * s.layout.tapeLen ≤ h
    (bad → s.readSymbolAtHead = .error (.hostArgument (.headInvalid s.head)) ∧
      s.writeSymbolAtHead v = .error (.hostArgument (.headInvalid s.head))) ∧
    (¬bad →
      (s.sym (h / 2) = 3 → s.readSymbolAtHead = .error (.hostArgument (.symbolPattern s.head))) ∧
      (s.sym (h / 2) ≠ 3 → s.readSymbolAtHead = .ok (s.sym (h / 2))) ∧
      (¬(v = 0 ∨ v = 1 ∨ v = 2) → s.writeSymbolAtHead v = .error (.hostArgument (.symbolValue v))) ∧
      ((v = 0 ∨ v = 1 ∨ v = 2) → ∃ t, s.writeSymbolAtHead v = .ok t ∧
        t.readSymbolAtHead = .ok (BitVec.ofInt 2 v) ∧ (∀ j, j ≠ h / 2 → t.sym j = s.sym j) ∧
        t.ctl = s.ctl ∧ t.layout = s.layout ∧
        ∀ b, (b < s.layout.symBase + h ∨ s.layout.symBase + h + 2 ≤ b) → t.bit b = s.bit b))

/-- The head position is in symbols: the setter accepts exactly `[0, L)`, the getter gives it back, and the head is then
valid; only the head word changes (45_host_interface R90). -/
def Obligations.HeadPositionIsInSymbols : Prop :=
  ∀ (s : State) (p : Int), s.layout.wf →
    s.headPosition = (s.bits s.layout.headOffset 32).toNat / 2 ∧
    (¬(0 ≤ p ∧ p < s.layout.tapeLen) → s.setHeadPosition p = .error (.hostArgument (.position p))) ∧
    (0 ≤ p → p < s.layout.tapeLen → ∃ t, s.setHeadPosition p = .ok t ∧
      (t.headPosition : Int) = p ∧ (t.head.toNat : Int) = 2 * p ∧ t.headValid = true ∧ t.ctl = s.ctl ∧
      t.layout = s.layout ∧ ∀ i, ¬inWord s.layout.headOffset i → t.byte i = s.byte i)

/-- The active instruction offset is `pc`; the setter validates nothing and changes only `pc`, in every control state; a
misaligned value or one past the buffer faults at the next fetch of a running machine (45_host_interface R91). -/
def Obligations.ActiveInstructionOffset : Prop :=
  ∀ (s : State) (o : Int),
    s.activeInstructionOffset = s.pc ∧ (s.setActiveInstructionOffset o).pc = u32 o ∧
    (s.setActiveInstructionOffset o).ctl = s.ctl ∧ (s.setActiveInstructionOffset o).layout = s.layout ∧
    (∀ i, ¬inWord pcOffset i → (s.setActiveInstructionOffset o).byte i = s.byte i) ∧
    (s.ctl = .running → (u32 o).toNat % 32 ≠ 0 →
      stepFaults (s.setActiveInstructionOffset o) none (.misalignedWord (u32 o).toNat)) ∧
    (s.ctl = .running → (u32 o).toNat % 32 = 0 → s.layout.bits < (u32 o).toNat + 32 →
      stepFaults (s.setActiveInstructionOffset o) none (.outOfBounds (u32 o).toNat))

/-- `run` is iterated stepping: its machine is the one that many steps reach, whatever `silent` says
(45_host_interface R92). -/
def Obligations.RunIsIteratedStep : Prop :=
  ∀ (k : Nat) (s : State) (silent : Bool), Sys2Proof.core.run k s = .next (s.run k silent).machine

/-- `run`'s counts and outcome: at most the budget of steps, transitions among them; the budget is spent if the machine
still runs; the outcome is the control state's; a stopped machine takes no step; one more step of budget counts one more
step of a running machine, and its transition if it is printable (45_host_interface R92). -/
def Obligations.RunCountsAndOutcome : Prop :=
  ∀ (k : Nat) (s : State) (silent : Bool),
    (s.run k silent).steps ≤ k ∧ (s.run k silent).transitions ≤ (s.run k silent).steps ∧
    ((s.run k silent).machine.ctl = .running →
      (s.run k silent).outcome = .budgetExhausted ∧ (s.run k silent).steps = k) ∧
    ((s.run k silent).machine.ctl = .halted → (s.run k silent).outcome = .halted) ∧
    (∀ f, (s.run k silent).machine.ctl = .faulted f → (s.run k silent).outcome = .faulted f) ∧
    (s.ctl ≠ .running → (s.run k silent).steps = 0 ∧ (s.run k silent).transitions = 0 ∧
      (s.run k silent).machine = s) ∧
    (s.ctl = .running →
      (s.run (k + 1) silent).steps = 1 + (s.hostStep.1.run k silent).steps ∧
      (s.run (k + 1) silent).transitions =
        (if s.hostStep.2 then 1 else 0) + (s.hostStep.1.run k silent).transitions ∧
      (s.run (k + 1) silent).machine = (s.hostStep.1.run k silent).machine)

/-- Saving and loading give the machine back, running: `toBytes` of a machine is an image that load accepts, of the same
layout and memory (45_host_interface R94, 70_reset_and_hazards R112). -/
def Obligations.SavedMachineLoadsBack : Prop :=
  ∀ s : State, s.wf →
    s.toBytes.length = s.layout.size ∧ (∀ i, i < s.layout.size → s.toBytes[i]? = some (s.byte i)) ∧
    loadFromBytes s.toBytes = .ok { s with ctl := .running }

/-- A loaded machine meets the invariant, is running, and holds exactly the image. An image is accepted exactly where none
of the listed checks fails, and a refused one answers LOAD_FAILURE, code 12, and no machine (70_reset_and_hazards R112,
60_exceptions R99). -/
def Obligations.LoadedMachineHoldsTheImage : Prop :=
  (∀ (bytes : List Byte) (s : State), loadFromBytes bytes = .ok s →
    s.wf ∧ s.ctl = .running ∧ s.layout.size = bytes.length ∧ s.toBytes = bytes) ∧
  ∀ bytes : List Byte,
    let n := bytes.length
    let word := fun i : Nat => (bytes.getD i 0).toNat + 256 * (bytes.getD (i + 1) 0).toNat +
      65536 * (bytes.getD (i + 2) 0).toNat + 16777216 * (bytes.getD (i + 3) 0).toNat
    let w := word 0
    let tw := word (4 * w + 64)
    ((∃ s, loadFromBytes bytes = .ok s) ↔
      (8 ≤ n ∧ n % 4 = 0 ∧ 8 * n ≤ 2 ^ 31 ∧ 2 ≤ w ∧ (w - 2) % 5 = 0 ∧ 4 * w + 64 + 8 ≤ n ∧
        2 ≤ tw ∧ 4 * w + 64 + 4 * tw = n)) ∧
    ∀ e, loadFromBytes bytes = .error e → e = .loadFailure ∧ e.code = 12

/-- Construction succeeds on exactly the arguments that meet the requirements, and otherwise answers HOST_ARGUMENT with no
machine (70_reset_and_hazards R111). That a character other than 0, 1, blank fails so is the model's choice (log entry 9).
-/
def Obligations.ConstructAcceptsExactlyValidArguments : Prop :=
  ∀ (table : List TableRow) (len start headPos : Int) (input : List Char) (inputPos : Int),
    ((∃ s, construct table len start headPos input inputPos = .ok s) ↔
      (1 ≤ table.length ∧ (∀ r ∈ table,
          (0 ≤ r.w0 ∧ r.w0 ≤ 2) ∧ (0 ≤ r.w1 ∧ r.w1 ≤ 2) ∧ (0 ≤ r.w2 ∧ r.w2 ≤ 2) ∧
          (0 ≤ r.d0 ∧ r.d0 ≤ 2) ∧ (0 ≤ r.d1 ∧ r.d1 ≤ 2) ∧ (0 ≤ r.d2 ∧ r.d2 ≤ 2) ∧
          (0 ≤ r.n0 ∧ r.n0 ≤ table.length) ∧ (0 ≤ r.n1 ∧ r.n1 ≤ table.length) ∧
          (0 ≤ r.n2 ∧ r.n2 ≤ table.length)) ∧
        len % 16 = 0 ∧ 16 ≤ len ∧ 0 ≤ start ∧ start < table.length ∧ 0 ≤ headPos ∧ headPos < len ∧
        (∀ c ∈ input, c = '0' ∨ c = '1' ∨ c = '_' ∨ c = ' ') ∧ 0 ≤ inputPos ∧ inputPos + input.length ≤ len ∧
        8 * (720 + 20 * (table.length : Int) + len / 4) ≤ 2 ^ 31)) ∧
    ∀ e, construct table len start headPos input inputPos = .error e → e = .hostArgument .construction

/-- The values construction writes, region by region: `wordCount` and `pc`; the bootstrap; for each row of the table its
entry, with the marker, the packed symbols and directions, pad and reserved bits 0, and the next states' offsets; the halt
entry, its other words 0; the registers; the tape header; the tape (70_reset_and_hazards R111, 10_state R21). -/
def Obligations.ConstructedValues : Prop :=
  ∀ (table : List TableRow) (len start headPos : Int) (input : List Char) (inputPos : Int) (s : State),
    construct table len start headPos input inputPos = .ok s →
    s.ctl = .running ∧ s.layout = ⟨32 + table.length, len.toNat⟩ ∧
    s.bits 0 32 = BitVec.ofNat 32 s.layout.wordCount ∧
    s.bits s.layout.tapeBase 32 = BitVec.ofNat 32 s.layout.tapeWordCount ∧
    (∀ k, k < 31 → bootstrap[k]?.map encodeWords = some (s.entryWords (entryOffset k))) ∧
    (∀ (k : Nat) (r : TableRow), table[k]? = some r → s.entryWords (stateOffset k) =
      [10, u32 (r.w0 + 4 * r.w1 + 16 * r.w2 + 256 * (r.d0 + 4 * r.d1 + 16 * r.d2)),
        u32 (stateOffset r.n0.toNat), u32 (stateOffset r.n1.toNat), u32 (stateOffset r.n2.toNat)]) ∧
    s.entryWords (stateOffset table.length) = [10, 0, 0, 0, 0] ∧
    s.pc = BitVec.ofNat 32 (stateOffset start.toNat) ∧
    s.reg 0 = BitVec.ofNat 32 (stateOffset table.length) ∧ (∀ j, 1 ≤ j → j < 16 → s.reg j = 0) ∧
    (s.head.toNat : Int) = 2 * headPos ∧
    ∀ j : Nat, j < len.toNat →
      s.sym j = if inputPos ≤ j ∧ j < inputPos + input.length
        then (charSymbol (input.getD (j - inputPos.toNat) '_')).getD 2 else 2

/-- A constructed machine meets the invariant and every condition under which the TM layer works (70_reset_and_hazards
R113; item 5 read as log entry 8 says). -/
def Obligations.ConstructedMachineIsReady : Prop :=
  ∀ (table : List TableRow) (len start headPos : Int) (input : List Char) (inputPos : Int) (s : State),
    construct table len start headPos input inputPos = .ok s → s.wf ∧ s.tmReady

/-- Two machines are equal exactly when their table regions and tape regions are, byte for byte and in length; registers
and `ctl` do not matter (45_host_interface R95). -/
def Obligations.EqualityComparesTableAndTape : Prop :=
  (∀ m1 m2 : State, machinesEqual m1 m2 = true ↔
    (m1.layout.wordCount = m2.layout.wordCount ∧ m1.layout.tapeWordCount = m2.layout.tapeWordCount ∧
      (∀ i, i < 4 * m1.layout.wordCount → m1.byte i = m2.byte i) ∧
      ∀ i, m1.layout.tapeBase / 8 ≤ i → i < m1.layout.size → m1.byte i = m2.byte i)) ∧
  ∀ (s : State) (i : Nat) (v : Word) (c : Ctl), i < 16 →
    machinesEqual s (s.setReg i v) = true ∧ machinesEqual s { s with ctl := c } = true

/-- The host's writing operations (`writeSymbolAtHead`, `setHeadPosition`, `setActiveInstructionOffset`) write no `ctl`, no
layout and no register, and what `readSymbolAtHead`, `headPosition`, `activeInstructionOffset`, `toBytes` and `equal` answer
does not depend on the control state; `isHalted` and `faultRecord`, which read it, are StatusQueries (45_host_interface
R86, R97). -/
def Obligations.HostOperationsKeepCtl : Prop :=
  ∀ (s t : State) (v : Int) (c : Ctl),
    (s.writeSymbolAtHead v = .ok t → t.ctl = s.ctl ∧ t.layout = s.layout ∧ ∀ j, j < 16 → t.reg j = s.reg j) ∧
    (s.setHeadPosition v = .ok t → t.ctl = s.ctl ∧ t.layout = s.layout ∧ ∀ j, j < 16 → t.reg j = s.reg j) ∧
    ((s.setActiveInstructionOffset v).ctl = s.ctl ∧ (s.setActiveInstructionOffset v).layout = s.layout ∧ ∀ j, (s.setActiveInstructionOffset v).reg j = s.reg j) ∧
    (State.readSymbolAtHead { s with ctl := c } = s.readSymbolAtHead ∧
     State.headPosition { s with ctl := c } = s.headPosition ∧
     State.activeInstructionOffset { s with ctl := c } = s.activeInstructionOffset ∧
     State.toBytes { s with ctl := c } = s.toBytes ∧ ∀ m, machinesEqual { s with ctl := c } m = machinesEqual s m)

/-- Exactly three faults can stop the bootstrap after a dispatch that does not halt: the pattern 3 under the head, in the
write symbol or in the direction of the symbol read; each leaves head and tape, and every bit but those of `pc` and of `x[1]`
to `x[15]`, as they were. With none of them, the 32 steps end running, with the symbol, the head and the next state in
place. The transition entry lies in the instruction/table region or in the working-tape region, where the bootstrap's own
register writes do not reach it (44_bootstrap R84, R85). -/
def Obligations.BootstrapFaultsExactlyOnPattern3 : Prop :=
  ∀ s : State, s.wf → s.ctl = .running → s.bootstrapLoaded →
    let p := s.pc.toNat
    let h := s.head.toNat
    64 ≤ p → p % 32 = 0 → (p + 160 ≤ s.layout.regBase ∨ s.layout.tapeBase ≤ p ∧ p + 160 ≤ s.layout.bits) →
    s.bits p 32 = 10 → s.pc ≠ s.reg 0 → s.headValid →
    let x := (s.sym (h / 2)).toNat
    let w := s.bits (p + 32 + 2 * x) 2
    let d := s.bits (p + 40 + 2 * x) 2
    ∃ t, Sys2Proof.core.run 32 s = .next t ∧ t.layout = s.layout ∧
      (x = 3 → t.ctl = .faulted ⟨1664, some 4, .invalidSymbolPattern (s.layout.symBase + h : Nat)⟩) ∧
      (x ≠ 3 → w = 3 → t.ctl = .faulted ⟨2304, some 4, .invalidSymbolPattern (p + 32 + 2 * x : Nat)⟩) ∧
      (x ≠ 3 → w ≠ 3 → d = 3 → t.ctl = .faulted ⟨2784, some 4, .invalidSymbolPattern (p + 40 + 2 * x : Nat)⟩) ∧
      ((x = 3 ∨ w = 3 ∨ d = 3) → t.head = s.head ∧ ∀ b, (b < 32 ∨ 64 ≤ b) →
        (b < s.layout.regOffset 1 ∨ s.layout.tapeBase ≤ b) → t.bit b = s.bit b) ∧
      (x ≠ 3 → w ≠ 3 → d ≠ 3 → t.ctl = .running ∧ t.sym (h / 2) = w ∧
        t.head = u32 ((h : Int) + 2 * ((d.toNat : Int) - 1)) ∧ t.pc = s.bits (p + 64 + 32 * x) 32)
end

