-- ==== Sys2Proof/Laws/Memory.lean ====
section
/-! SUPPORT. Laws of the buffer: one byte after a write, the canonical form, and RawRead and RawWrite bit by bit
(20_memory R30). -/

namespace Sys2Proof.Machine

/-! One byte. -/

theorem Memory.byte_erase (m : Memory) (i j : Nat) :
    Memory.byte (Memory.erase m i) j = if j = i then unlistedByte else Memory.byte m j := by
  induction m with
  | nil => simp [Memory.erase, Memory.byte]
  | cons c rest ih =>
    obtain ⟨k, v⟩ := c
    by_cases hk : k = i
    · subst hk
      by_cases hj : j = k
      · subst hj; simpa [Memory.erase] using ih
      · simp [Memory.erase, ih, hj, Memory.byte, Ne.symm hj]
    · by_cases hj : j = i
      · subst hj
        simpa [Memory.erase, Memory.byte, hk] using ih
      · simp only [Memory.erase, hk, if_false, Memory.byte, ih, hj]

theorem Memory.mem_erase {m : Memory} {i : Nat} {c : Host.Cell} (h : c ∈ Memory.erase m i) : c ∈ m ∧ c.1 ≠ i := by
  induction m with
  | nil => simp [Memory.erase] at h
  | cons d rest ih =>
    obtain ⟨k, v⟩ := d
    by_cases hk : k = i
    · simp only [Memory.erase, hk, if_true] at h
      exact ⟨List.mem_cons_of_mem _ (ih h).1, (ih h).2⟩
    · simp only [Memory.erase, hk, if_false, List.mem_cons] at h
      rcases h with h | h
      · subst h; exact ⟨List.mem_cons_self, hk⟩
      · exact ⟨List.mem_cons_of_mem _ (ih h).1, (ih h).2⟩

theorem Memory.byte_insert (m : Memory) (i : Nat) (b : Byte) (j : Nat) (h : ∀ c ∈ m, c.1 ≠ i) :
    Memory.byte (Memory.insert m i b) j = if j = i then b else Memory.byte m j := by
  induction m with
  | nil =>
    by_cases hj : j = i
    · simp [Memory.insert, Memory.byte, hj]
    · simp [Memory.insert, Memory.byte, hj, Ne.symm hj]
  | cons c rest ih =>
    obtain ⟨k, v⟩ := c
    have hk : k ≠ i := h (k, v) List.mem_cons_self
    have ih := ih fun c hc => h c (List.mem_cons_of_mem _ hc)
    by_cases hlt : i < k
    · by_cases hj : j = i
      · simp [Memory.insert, hlt, Memory.byte, hj]
      · simp [Memory.insert, hlt, Memory.byte, hj, Ne.symm hj]
    · by_cases hj : j = i
      · subst hj; simpa [Memory.insert, hlt, Memory.byte, hk] using ih
      · simp only [Memory.insert, hlt, if_false, Memory.byte, ih, hj]

/-- Reading a byte after writing one. -/
theorem Memory.byte_setByte (m : Memory) (i : Nat) (b : Byte) (j : Nat) :
    Memory.byte (Memory.setByte m i b) j = if j = i then b else Memory.byte m j := by
  unfold Memory.setByte
  by_cases hb : b = unlistedByte
  · simp [hb, Memory.byte_erase]
  · rw [if_neg hb, Memory.byte_insert _ _ _ _ fun c hc => (Memory.mem_erase hc).2, Memory.byte_erase]
    by_cases hj : j = i <;> simp [hj]

/-! The canonical form. -/

theorem Memory.risingFrom_mono {m : Memory} {low low' : Nat} (h : Memory.risingFrom m low = true) (hl : low' ≤ low) :
    Memory.risingFrom m low' = true := by
  cases m with
  | nil => rfl
  | cons c rest =>
    obtain ⟨k, v⟩ := c
    simp only [Memory.risingFrom, Bool.and_eq_true, decide_eq_true_eq] at h ⊢
    exact ⟨⟨le_trans hl h.1.1, h.1.2⟩, h.2⟩

theorem Memory.risingFrom_erase {m : Memory} {low : Nat} (i : Nat) (h : Memory.risingFrom m low = true) :
    Memory.risingFrom (Memory.erase m i) low = true := by
  induction m generalizing low with
  | nil => rfl
  | cons c rest ih =>
    obtain ⟨k, v⟩ := c
    simp only [Memory.risingFrom, Bool.and_eq_true, decide_eq_true_eq] at h
    by_cases hk : k = i
    · simp only [Memory.erase, hk, if_true]
      exact ih (Memory.risingFrom_mono h.2 (by omega))
    · simp only [Memory.erase, hk, if_false, Memory.risingFrom, Bool.and_eq_true, decide_eq_true_eq]
      exact ⟨h.1, ih h.2⟩

theorem Memory.risingFrom_insert {m : Memory} {low i : Nat} {b : Byte} (h : Memory.risingFrom m low = true)
    (hi : low ≤ i) (hb : b ≠ unlistedByte) (hm : ∀ c ∈ m, c.1 ≠ i) :
    Memory.risingFrom (Memory.insert m i b) low = true := by
  induction m generalizing low with
  | nil =>
    simp only [Memory.insert, Memory.risingFrom, Bool.and_eq_true, decide_eq_true_eq]
    exact ⟨⟨hi, hb⟩, trivial⟩
  | cons c rest ih =>
    obtain ⟨k, v⟩ := c
    have hk : k ≠ i := hm (k, v) List.mem_cons_self
    simp only [Memory.risingFrom, Bool.and_eq_true, decide_eq_true_eq] at h
    by_cases hlt : i < k
    · simp only [Memory.insert, hlt, if_true, Memory.risingFrom, Bool.and_eq_true, decide_eq_true_eq]
      exact ⟨⟨hi, hb⟩, ⟨hlt, h.1.2⟩, h.2⟩
    · simp only [Memory.insert, hlt, if_false, Memory.risingFrom, Bool.and_eq_true, decide_eq_true_eq]
      exact ⟨h.1, ih h.2 (by omega) fun c hc => hm c (List.mem_cons_of_mem _ hc)⟩

/-- A byte write keeps the canonical form. -/
theorem Memory.wf_setByte {m : Memory} (i : Nat) (b : Byte) (h : Memory.wf m = true) :
    Memory.wf (Memory.setByte m i b) = true := by
  unfold Memory.wf Memory.setByte at *
  by_cases hb : b = unlistedByte
  · simpa [hb] using Memory.risingFrom_erase i h
  · rw [if_neg hb]
    exact Memory.risingFrom_insert (Memory.risingFrom_erase i h) (Nat.zero_le _) hb fun c hc => (Memory.mem_erase hc).2

theorem Memory.mem_insert {m : Memory} {i : Nat} {b : Byte} {c : Host.Cell} (h : c ∈ Memory.insert m i b) :
    c = (i, b) ∨ c ∈ m := by
  induction m with
  | nil => simpa [Memory.insert] using h
  | cons d rest ih =>
    obtain ⟨k, v⟩ := d
    by_cases hlt : i < k
    · simpa [Memory.insert, hlt] using h
    · simp only [Memory.insert, hlt, if_false, List.mem_cons] at h
      rcases h with h | h
      · exact .inr (h ▸ List.mem_cons_self)
      · exact (ih h).imp id (List.mem_cons_of_mem _)

theorem Memory.below_iff (m : Memory) (n : Nat) : Memory.below m n = true ↔ ∀ c ∈ m, c.1 < n := by
  simp [Memory.below]

/-- A byte write inside the buffer lists no byte outside it. -/
theorem Memory.below_setByte {m : Memory} {n i : Nat} (b : Byte) (h : Memory.below m n = true) (hi : i < n) :
    Memory.below (Memory.setByte m i b) n = true := by
  rw [Memory.below_iff] at *
  intro c hc
  unfold Memory.setByte at hc
  split at hc
  · exact h c (Memory.mem_erase hc).1
  · rcases Memory.mem_insert hc with rfl | hc
    · exact hi
    · exact h c (Memory.mem_erase hc).1

theorem Memory.byte_of_risingFrom {m : Memory} {low j : Nat} (h : Memory.risingFrom m low = true) (hj : j < low) :
    Memory.byte m j = unlistedByte := by
  induction m generalizing low with
  | nil => rfl
  | cons c rest ih =>
    obtain ⟨k, v⟩ := c
    simp only [Memory.risingFrom, Bool.and_eq_true, decide_eq_true_eq] at h
    have hk : k ≠ j := by omega
    simpa [Memory.byte, hk] using ih h.2 (by omega)

/-- Canonical memories that read the same are the same. -/
theorem Memory.ext_of_risingFrom {m m' : Memory} {low : Nat} (h : Memory.risingFrom m low = true)
    (h' : Memory.risingFrom m' low = true) (hb : ∀ i, Memory.byte m i = Memory.byte m' i) : m = m' := by
  induction m generalizing m' low with
  | nil =>
    cases m' with
    | nil => rfl
    | cons c rest =>
      obtain ⟨k, v⟩ := c
      simp only [Memory.risingFrom, Bool.and_eq_true, decide_eq_true_eq] at h'
      have := hb k
      simp [Memory.byte] at this
      exact absurd this.symm h'.1.2
  | cons c rest ih =>
    obtain ⟨k, v⟩ := c
    simp only [Memory.risingFrom, Bool.and_eq_true, decide_eq_true_eq] at h
    cases m' with
    | nil =>
      have := hb k
      simp [Memory.byte] at this
      exact absurd this h.1.2
    | cons c' rest' =>
      obtain ⟨k', v'⟩ := c'
      simp only [Memory.risingFrom, Bool.and_eq_true, decide_eq_true_eq] at h'
      have hkk : k = k' := by
        by_contra hne
        rcases Nat.lt_or_gt_of_ne hne with hlt | hlt
        · have h1 := hb k
          have h2 : Memory.byte rest' k = unlistedByte := Memory.byte_of_risingFrom h'.2 (by omega)
          simp [Memory.byte, Ne.symm hne, h2] at h1
          exact h.1.2 h1
        · have h1 := hb k'
          have h2 : Memory.byte rest k' = unlistedByte := Memory.byte_of_risingFrom h.2 (by omega)
          simp [Memory.byte, hne, h2] at h1
          exact h'.1.2 h1.symm
      subst hkk
      have hv : v = v' := by simpa [Memory.byte] using hb k
      subst hv
      have : rest = rest' := ih h.2 h'.2 fun i => by
        by_cases hi : k = i
        · subst hi
          rw [Memory.byte_of_risingFrom h.2 (by omega), Memory.byte_of_risingFrom h'.2 (by omega)]
        · simpa [Memory.byte, hi] using hb i
      rw [this]

theorem Memory.ext_of_wf {m m' : Memory} (h : Memory.wf m = true) (h' : Memory.wf m' = true)
    (hb : ∀ i, Memory.byte m i = Memory.byte m' i) : m = m' := Memory.ext_of_risingFrom h h' hb

/-- No byte outside the listed range reads other than as an unlisted one. -/
theorem Memory.byte_of_below {m : Memory} {n i : Nat} (h : Memory.below m n = true) (hi : n ≤ i) :
    Memory.byte m i = unlistedByte := by
  rw [Memory.below_iff] at h
  induction m with
  | nil => rfl
  | cons c rest ih =>
    obtain ⟨k, v⟩ := c
    have hk : k ≠ i := by have := h (k, v) List.mem_cons_self; simp at this; omega
    simpa [Memory.byte, hk] using ih fun c hc => h c (List.mem_cons_of_mem _ hc)

/-! Several bytes. -/

theorem Memory.byte_writeBytes (m : Memory) (i count v j : Nat) :
    Memory.byte (Memory.writeBytes m i count v) j =
      if i ≤ j ∧ j < i + count then BitVec.ofNat 8 (v / 256 ^ (j - i)) else Memory.byte m j := by
  induction count generalizing m i v with
  | zero => rw [if_neg (by omega)]; rfl
  | succ n ih =>
    rw [Memory.writeBytes, ih, Memory.byte_setByte]
    by_cases hj : j = i
    · subst hj
      simp
    · by_cases hin : i + 1 ≤ j ∧ j < i + 1 + n
      · rw [if_pos hin, if_pos (by omega)]
        have : j - i = (j - (i + 1)) + 1 := by omega
        rw [this, Nat.pow_succ', Nat.div_div_eq_div_mul]
      · rw [if_neg hin, if_neg hj, if_neg (by omega)]

theorem Memory.wf_writeBytes {m : Memory} (i count v : Nat) (h : Memory.wf m = true) :
    Memory.wf (Memory.writeBytes m i count v) = true := by
  induction count generalizing m i v with
  | zero => exact h
  | succ n ih => exact ih _ _ (Memory.wf_setByte _ _ h)

theorem Memory.below_writeBytes {m : Memory} {n i : Nat} (count v : Nat) (h : Memory.below m n = true)
    (hi : i + count ≤ n) : Memory.below (Memory.writeBytes m i count v) n = true := by
  induction count generalizing m i v with
  | zero => exact h
  | succ k ih => exact ih _ (Memory.below_setByte _ h (by omega)) (by omega)

theorem Memory.readBytes_lt (m : Memory) (i count : Nat) : Memory.readBytes m i count < 2 ^ (8 * count) := by
  induction count generalizing i with
  | zero => simp [Memory.readBytes]
  | succ n ih =>
    have h1 := ih (i + 1)
    have h2 := (Memory.byte m i).isLt
    rw [Memory.readBytes, show 8 * (n + 1) = 8 * n + 8 by omega, Nat.pow_add]
    omega

/-- Bit `j` of the number several bytes hold is bit `j mod 8` of byte `j div 8` of them. -/
theorem Memory.testBit_readBytes (m : Memory) (i count j : Nat) :
    (Memory.readBytes m i count).testBit j =
      (decide (j < 8 * count) && (Memory.byte m (i + j / 8)).getLsbD (j % 8)) := by
  induction count generalizing i j with
  | zero => simp [Memory.readBytes]
  | succ n ih =>
    have h2 := (Memory.byte m i).isLt
    rw [Memory.readBytes, Nat.add_comm, show (256 : Nat) = 2 ^ 8 from rfl, Nat.testBit_two_pow_mul_add _ h2]
    by_cases hj : j < 8
    · have h1 : j / 8 = 0 := by omega
      have h3 : j % 8 = j := by omega
      have h4 : j < 8 * (n + 1) := by omega
      simp [hj, h1, h3, h4, BitVec.getLsbD]
    · have h1 : i + 1 + (j - 8) / 8 = i + j / 8 := by omega
      have h3 : (j - 8) % 8 = j % 8 := by omega
      have h4 : (j - 8 < 8 * n) ↔ (j < 8 * (n + 1)) := by omega
      rw [if_neg hj, ih, h1, h3]
      simp [h4]

/-! RawRead and RawWrite, bit by bit. -/

theorem bit_number (a k : Nat) : (a / 8 + (a % 8 + k) / 8 = (a + k) / 8) ∧ ((a % 8 + k) % 8 = (a + k) % 8) := by
  omega

/-- `RawRead`: bit `k` of the value is the bit at bit offset `a + k` (20_memory R30). -/
theorem Memory.getLsbD_rawRead (m : Memory) (a n k : Nat) :
    (Memory.rawRead m a n).getLsbD k = (decide (k < n) && Memory.bit m (a + k)) := by
  by_cases hk : k < n
  · have h1 : k + a % 8 < 8 * spanBytes a n := by unfold spanBytes; omega
    have h2 : a / 8 + (k + a % 8) / 8 = (a + k) / 8 := by omega
    have h3 : (k + a % 8) % 8 = (a + k) % 8 := by omega
    simp only [Memory.rawRead, BitVec.getLsbD_ofNat, hk, decide_true, Bool.true_and, Nat.testBit_div_two_pow,
      Memory.testBit_readBytes, h1, Memory.bit, h2, h3]
  · rw [BitVec.getLsbD_of_ge _ _ (by omega)]
    simp [hk]

theorem testBit_replaceBits (old lo : Nat) {n : Nat} (v : BitVec n) (j : Nat) :
    (replaceBits old lo v).testBit j =
      if lo ≤ j ∧ j < lo + n then v.getLsbD (j - lo) else old.testBit j := by
  unfold replaceBits
  rw [Nat.add_comm, Nat.testBit_two_pow_mul_add _ (Nat.mod_lt _ (by positivity))]
  by_cases h1 : j < lo
  · rw [if_pos h1, if_neg (by omega), Nat.testBit_mod_two_pow]
    simp [h1]
  · rw [if_neg h1, Nat.add_comm, Nat.testBit_two_pow_mul_add _ v.isLt]
    by_cases h2 : j - lo < n
    · rw [if_pos h2, if_pos (by omega)]; rfl
    · rw [if_neg h2, if_neg (by omega), Nat.testBit_div_two_pow]
      congr 1; omega

theorem getLsbD_ofNat_div (v k b : Nat) (hb : b < 8) :
    (BitVec.ofNat 8 (v / 256 ^ k)).getLsbD b = v.testBit (8 * k + b) := by
  rw [show (256 : Nat) = 2 ^ 8 from rfl, ← Nat.pow_mul]
  rw [BitVec.getLsbD_ofNat, Nat.testBit_div_two_pow, Nat.add_comm]
  simp [hb]

/-- `RawWrite`: the bits at bit offsets `a .. a+n-1` become those of the value, and no other bit changes (20_memory R30).
-/
theorem Memory.bit_rawWrite (m : Memory) (a : Nat) {n : Nat} (v : BitVec n) (b : Nat) :
    Memory.bit (Memory.rawWrite m a v) b =
      if a ≤ b ∧ b < a + n then v.getLsbD (b - a) else Memory.bit m b := by
  unfold Memory.bit Memory.rawWrite
  rw [Memory.byte_writeBytes]
  by_cases hin : a / 8 ≤ b / 8 ∧ b / 8 < a / 8 + spanBytes a n
  · rw [if_pos hin, getLsbD_ofNat_div _ _ _ (by omega), testBit_replaceBits]
    have hb : 8 * (b / 8 - a / 8) + b % 8 = b - 8 * (a / 8) := by omega
    rw [hb]
    by_cases h : a ≤ b ∧ b < a + n
    · rw [if_pos h, if_pos (by omega)]
      congr 1; omega
    · rw [if_neg h, if_neg (by omega), Memory.testBit_readBytes]
      have h1 : a / 8 + (b - 8 * (a / 8)) / 8 = b / 8 := by omega
      have h2 : (b - 8 * (a / 8)) % 8 = b % 8 := by omega
      have h3 : b - 8 * (a / 8) < 8 * spanBytes a n := by omega
      simp [h1, h2, h3]
  · rw [if_neg hin, if_neg]
    unfold spanBytes at hin
    omega

/-- Two memories whose bits agree have the same bytes. -/
theorem Memory.byte_eq_of_bit {m m' : Memory} {i : Nat}
    (h : ∀ b, b / 8 = i → Memory.bit m b = Memory.bit m' b) : Memory.byte m i = Memory.byte m' i := by
  apply BitVec.eq_of_getLsbD_eq
  intro k hk
  have := h (8 * i + k) (by omega)
  simpa [Memory.bit, show (8 * i + k) / 8 = i by omega, show (8 * i + k) % 8 = k by omega] using this

/-- A write changes no byte outside the bytes its bits lie in. -/
theorem Memory.byte_rawWrite_of_outside (m : Memory) (a : Nat) {n : Nat} (v : BitVec n) (i : Nat)
    (h : 8 * i + 8 ≤ a ∨ a + n ≤ 8 * i) : Memory.byte (Memory.rawWrite m a v) i = Memory.byte m i :=
  Memory.byte_eq_of_bit fun b hb => by rw [Memory.bit_rawWrite, if_neg (by omega)]

/-- A read gives the same in two memories whose bits there agree. -/
theorem Memory.rawRead_congr {m m' : Memory} {a n : Nat}
    (h : ∀ b, a ≤ b → b < a + n → Memory.bit m b = Memory.bit m' b) : Memory.rawRead m a n = Memory.rawRead m' a n := by
  apply BitVec.eq_of_getLsbD_eq
  intro k hk
  rw [Memory.getLsbD_rawRead, Memory.getLsbD_rawRead, h (a + k) (by omega) (by omega)]

/-- A read of the bits just written gives the value written. -/
@[simp] theorem Memory.rawRead_rawWrite_same (m : Memory) (a : Nat) {n : Nat} (v : BitVec n) :
    Memory.rawRead (Memory.rawWrite m a v) a n = v := by
  apply BitVec.eq_of_getLsbD_eq
  intro k hk
  rw [Memory.getLsbD_rawRead, Memory.bit_rawWrite, if_pos (by omega)]
  simp [hk]

/-- A read of bits apart from those written gives what it gave before. -/
theorem Memory.rawRead_rawWrite_of_disjoint (m : Memory) (a : Nat) {n : Nat} (v : BitVec n) (a' n' : Nat)
    (h : a' + n' ≤ a ∨ a + n ≤ a') : Memory.rawRead (Memory.rawWrite m a v) a' n' = Memory.rawRead m a' n' :=
  Memory.rawRead_congr fun b hb hb' => by rw [Memory.bit_rawWrite, if_neg (by omega)]

/-- A narrower read inside a wider one sees the same bits (20_memory R32). -/
theorem Memory.rawRead_inside (m : Memory) (a n lo n' : Nat) (h : lo + n' ≤ n) :
    Memory.rawRead m (a + lo) n' = (Memory.rawRead m a n).extractLsb' lo n' := by
  apply BitVec.eq_of_getLsbD_eq
  intro k hk
  rw [Memory.getLsbD_rawRead, BitVec.getLsbD_extractLsb', Memory.getLsbD_rawRead]
  simp [hk, show lo + k < n by omega, Nat.add_assoc]

/-- A write keeps the canonical form. -/
theorem Memory.wf_rawWrite {m : Memory} (a : Nat) {n : Nat} (v : BitVec n) (h : Memory.wf m = true) :
    Memory.wf (Memory.rawWrite m a v) = true := Memory.wf_writeBytes _ _ _ h

/-- A write inside the buffer lists no byte outside it. -/
theorem Memory.below_rawWrite {m : Memory} {size a : Nat} {n : Nat} (v : BitVec n) (h : Memory.below m size = true)
    (ha : a + n ≤ 8 * size) : Memory.below (Memory.rawWrite m a v) size = true :=
  Memory.below_writeBytes _ _ h (by unfold spanBytes; omega)

/-! Byte images. -/

theorem Memory.risingFrom_ofBytesFrom (bytes : List Byte) (i : Nat) :
    Memory.risingFrom (Memory.ofBytesFrom bytes i) i = true := by
  induction bytes generalizing i with
  | nil => rfl
  | cons b rest ih =>
    rw [Memory.ofBytesFrom]
    split
    · exact Memory.risingFrom_mono (ih (i + 1)) (by omega)
    · rename_i hb
      simp only [Memory.risingFrom, Bool.and_eq_true, decide_eq_true_eq]
      exact ⟨⟨le_refl _, hb⟩, ih (i + 1)⟩

/-- The memory of a byte image is canonical. -/
theorem Memory.wf_ofBytes (bytes : List Byte) : Memory.wf (Memory.ofBytes bytes) = true :=
  Memory.risingFrom_ofBytesFrom bytes 0

theorem Memory.byte_ofBytesFrom (bytes : List Byte) (i j : Nat) :
    Memory.byte (Memory.ofBytesFrom bytes i) j =
      if i ≤ j then bytes.getD (j - i) unlistedByte else unlistedByte := by
  induction bytes generalizing i with
  | nil => simp [Memory.ofBytesFrom, Memory.byte]
  | cons b rest ih =>
    have key : Memory.byte (Memory.ofBytesFrom (b :: rest) i) j =
        if i = j then b else Memory.byte (Memory.ofBytesFrom rest (i + 1)) j := by
      rw [Memory.ofBytesFrom]
      by_cases hb : b = unlistedByte
      · rw [if_pos hb]
        by_cases hij : i = j
        · rw [if_pos hij, hb, Memory.byte_of_risingFrom (Memory.risingFrom_ofBytesFrom rest (i + 1)) (by omega)]
        · rw [if_neg hij]
      · rw [if_neg hb, Memory.byte]
    rw [key, ih]
    by_cases hij : i = j
    · subst hij; simp
    · rw [if_neg hij]
      by_cases hlt : i + 1 ≤ j
      · rw [if_pos hlt, if_pos (by omega), show j - i = (j - (i + 1)) + 1 by omega]
        simp
      · rw [if_neg hlt, if_neg (by omega)]

/-- The bytes of the memory of a byte image. -/
theorem Memory.byte_ofBytes (bytes : List Byte) (j : Nat) :
    Memory.byte (Memory.ofBytes bytes) j = bytes.getD j unlistedByte := by
  simp [Memory.ofBytes, Memory.byte_ofBytesFrom]

theorem Memory.below_ofBytesFrom (bytes : List Byte) (i n : Nat) (h : i + bytes.length ≤ n) :
    Memory.below (Memory.ofBytesFrom bytes i) n = true := by
  induction bytes generalizing i with
  | nil => rfl
  | cons b rest ih =>
    simp only [List.length_cons] at h
    unfold Memory.ofBytesFrom
    split
    · exact ih _ (by omega)
    · have := ih (i + 1) (by omega)
      simp only [Memory.below, List.all_cons, Bool.and_eq_true, decide_eq_true_eq] at this ⊢
      exact ⟨by omega, this⟩

/-- The memory of a byte image lists no byte past its end. -/
theorem Memory.below_ofBytes (bytes : List Byte) : Memory.below (Memory.ofBytes bytes) bytes.length = true :=
  Memory.below_ofBytesFrom bytes 0 _ (by omega)

@[simp] theorem Memory.length_bytesOf (m : Memory) (lo count : Nat) : (Memory.bytesOf m lo count).length = count := by
  induction count generalizing lo with
  | zero => rfl
  | succ n ih => simp [Memory.bytesOf, ih]

/-- A byte of a listed range of the memory. -/
theorem Memory.getElem?_bytesOf (m : Memory) (lo count k : Nat) :
    (Memory.bytesOf m lo count)[k]? = if k < count then some (Memory.byte m (lo + k)) else none := by
  induction count generalizing lo k with
  | zero => simp [Memory.bytesOf]
  | succ n ih =>
    cases k with
    | zero => simp [Memory.bytesOf]
    | succ k => simp [Memory.bytesOf, ih, Nat.add_assoc, Nat.add_comm 1 k]

end Sys2Proof.Machine
end

