-- ==== Sys2Proof/Laws/Decode.lean ====
section
/-! SUPPORT. Laws of bytes, words and the decoder's plumbing (20_memory R31, 30_encoding R49). -/

namespace Sys2Proof.Machine

/-- The four bytes of a word make the word again. -/
@[simp] theorem wordOfBytes_wordBytes (w : Word) :
    wordOfBytes (w.extractLsb' 0 8) (w.extractLsb' 8 8) (w.extractLsb' 16 8) (w.extractLsb' 24 8) = w := by
  apply BitVec.eq_of_getLsbD_eq
  intro k hk
  simp only [wordOfBytes, BitVec.getLsbD_append, BitVec.getLsbD_extractLsb']
  by_cases h1 : k < 8
  · simp [h1]
  · by_cases h2 : k - 8 < 8
    · simp [h1, h2, show 8 + (k - 8) = k by omega]
    · by_cases h3 : k - 8 - 8 < 8
      · simp [h1, h2, h3, show 16 + (k - 8 - 8) = k by omega]
      · simp [h1, h2, h3, show 24 + (k - 8 - 8 - 8) = k by omega, show k - 8 - 8 - 8 < 8 by omega]

@[simp] theorem length_wordBytes (w : Word) : (wordBytes w).length = 4 := rfl

/-- Reading a word off the bytes of a word. -/
@[simp] theorem takeWord_wordBytes (w : Word) (rest : List Byte) : takeWord (wordBytes w ++ rest) = .ok (w, rest) := by
  simp [wordBytes, takeWord]

/-- Decoding the bytes of five words decodes the words. -/
theorem decode_wordBytes (w0 w1 w2 w3 w4 : Word) (rest : List Byte) :
    decode (wordBytes w0 ++ (wordBytes w1 ++ (wordBytes w2 ++ (wordBytes w3 ++ (wordBytes w4 ++ rest))))) =
      decodeWords w0 w1 w2 w3 w4 := by
  simp only [decode, takeWord_wordBytes, bind, Except.bind]

/-- An instruction's encoding has the 160 bits of an entry. -/
@[simp] theorem length_encodeWords (i : Instr) : (encodeWords i).length = 5 := by cases i <;> rfl

@[simp] theorem length_encode (i : Instr) : (encode i).length = 20 := by cases i <;> rfl

/-- A memory byte as the bits of the buffer. -/
theorem Memory.byte_eq_rawRead (m : Memory) (a k : Nat) (h : a % 8 = 0) (hk : k < 4) :
    (Memory.rawRead m a 32).extractLsb' (8 * k) 8 = Memory.byte m (a / 8 + k) := by
  apply BitVec.eq_of_getLsbD_eq
  intro j hj
  rw [BitVec.getLsbD_extractLsb', Memory.getLsbD_rawRead, Memory.bit]
  have h1 : (a + (8 * k + j)) / 8 = a / 8 + k := by omega
  have h2 : (a + (8 * k + j)) % 8 = j := by omega
  simp [hj, show 8 * k + j < 32 by omega, h1, h2]

/-- The bytes of a word of the buffer are its four bytes, lowest address first (20_memory R31). -/
theorem Memory.wordBytes_rawRead (m : Memory) (a : Nat) (h : a % 8 = 0) :
    wordBytes (Memory.rawRead m a 32) = Memory.bytesOf m (a / 8) 4 := by
  simp only [wordBytes, Memory.bytesOf]
  have h0 := Memory.byte_eq_rawRead m a 0 h (by omega)
  have h1 := Memory.byte_eq_rawRead m a 1 h (by omega)
  have h2 := Memory.byte_eq_rawRead m a 2 h (by omega)
  have h3 := Memory.byte_eq_rawRead m a 3 h (by omega)
  simp only [Nat.mul_zero, Nat.add_zero, Nat.mul_one, Nat.reduceMul] at h0 h1 h2 h3
  rw [h0, h1, h2, h3]

theorem Memory.bytesOf_add (m : Memory) (lo n k : Nat) :
    Memory.bytesOf m lo (n + k) = Memory.bytesOf m lo n ++ Memory.bytesOf m (lo + n) k := by
  induction n generalizing lo with
  | zero => simp [Memory.bytesOf]
  | succ n ih =>
    rw [show n + 1 + k = (n + k) + 1 by omega, Memory.bytesOf, Memory.bytesOf, ih, List.cons_append,
      show lo + 1 + n = lo + (n + 1) by omega]

/-- The 20 bytes of an entry decode as its five words do (30_encoding R49). -/
theorem Memory.decode_bytesOf (m : Memory) (p : Nat) (h : p % 8 = 0) :
    decode (Memory.bytesOf m (p / 8) 20) =
      decodeWords (Memory.rawRead m p 32) (Memory.rawRead m (p + 32) 32) (Memory.rawRead m (p + 64) 32)
        (Memory.rawRead m (p + 96) 32) (Memory.rawRead m (p + 128) 32) := by
  have hw : ∀ k, k % 8 = 0 → Memory.bytesOf m (p / 8 + k / 8) 4 = wordBytes (Memory.rawRead m (p + k) 32) := by
    intro k hk
    rw [Memory.wordBytes_rawRead m (p + k) (by omega), show (p + k) / 8 = p / 8 + k / 8 by omega]
  have h0 := hw 0 rfl
  have h1 := hw 32 rfl
  have h2 := hw 64 rfl
  have h3 := hw 96 rfl
  have h4 := hw 128 rfl
  simp only [Nat.zero_div, Nat.add_zero, Nat.reduceDiv] at h0 h1 h2 h3 h4
  rw [show (20 : Nat) = 4 + (4 + (4 + (4 + 4))) by rfl, Memory.bytesOf_add, Memory.bytesOf_add, Memory.bytesOf_add,
    Memory.bytesOf_add, h0, h1, show p / 8 + 4 + 4 = p / 8 + 8 by omega, h2,
    show p / 8 + 8 + 4 = p / 8 + 12 by omega, h3, show p / 8 + 12 + 4 = p / 8 + 16 by omega, h4]
  have := decode_wordBytes (Memory.rawRead m p 32) (Memory.rawRead m (p + 32) 32) (Memory.rawRead m (p + 64) 32)
    (Memory.rawRead m (p + 96) 32) (Memory.rawRead m (p + 128) 32) []
  simpa using this

/-- An entry that decodes is led by its instruction's opcode word (30_encoding R55). -/
theorem decodeWords_opcode {w0 w1 w2 w3 w4 : Word} {i : Instr} (h : decodeWords w0 w1 w2 w3 w4 = .ok i) :
    (encodeWords i).head? = some w0 := by
  have key : ∀ (o : Word) (j : Instr) (r : Except DecodeError Instr), (encodeWords j).head? = some o →
      (if w0 = o then .ok j else r) = Except.ok i → (w0 ≠ o → r = .ok i → (encodeWords i).head? = some w0) →
      (encodeWords i).head? = some w0 := by
    intro o j r ho hc hr
    by_cases h0 : w0 = o
    · rw [if_pos h0] at hc; rw [← Except.ok.inj hc, ho, h0]
    · rw [if_neg h0] at hc; exact hr h0 hc
  unfold decodeWords at h
  refine key _ _ _ rfl h fun _ h => ?_
  refine key _ _ _ rfl h fun _ h => ?_
  refine key _ _ _ rfl h fun _ h => ?_
  refine key _ _ _ rfl h fun _ h => ?_
  refine key _ _ _ rfl h fun _ h => ?_
  refine key _ _ _ rfl h fun _ h => ?_
  refine key _ _ _ rfl h fun _ h => ?_
  refine key _ _ _ rfl h fun _ h => ?_
  refine key _ _ _ rfl h fun _ h => ?_
  refine key _ _ _ rfl h fun _ h => ?_
  exact key _ _ _ rfl h fun _ h => by cases h

end Sys2Proof.Machine
end

