-- ==== Sys2Proof/Laws/State.lean ====
section
/-! SUPPORT. One lemma per field of State per update, the layout's arithmetic in closed form, and the views of the buffer
after each update. -/

namespace Sys2Proof.Machine

/-! Fields after updates. -/

section Fields
variable (s : State) (a n i : Nat) (v : BitVec n) (w : Word) (o : Option Word) (x : Violation)

@[simp] theorem State.setBits_layout : (s.setBits a v).layout = s.layout := rfl
@[simp] theorem State.setBits_ctl : (s.setBits a v).ctl = s.ctl := rfl
@[simp] theorem State.setBits_mem : (s.setBits a v).mem = Memory.rawWrite s.mem a v := rfl
@[simp] theorem State.setPc_layout : (s.setPc w).layout = s.layout := rfl
@[simp] theorem State.setPc_ctl : (s.setPc w).ctl = s.ctl := rfl
@[simp] theorem State.setPc_mem : (s.setPc w).mem = Memory.rawWrite s.mem pcOffset w := rfl
@[simp] theorem State.setReg_layout : (s.setReg i w).layout = s.layout := rfl
@[simp] theorem State.setReg_ctl : (s.setReg i w).ctl = s.ctl := rfl
@[simp] theorem State.setReg_mem : (s.setReg i w).mem = Memory.rawWrite s.mem (s.layout.regOffset i) w := rfl
@[simp] theorem State.setHead_layout : (s.setHead w).layout = s.layout := rfl
@[simp] theorem State.setHead_ctl : (s.setHead w).ctl = s.ctl := rfl
@[simp] theorem State.setHead_mem : (s.setHead w).mem = Memory.rawWrite s.mem s.layout.headOffset w := rfl
@[simp] theorem State.halt_layout : s.halt.layout = s.layout := rfl
@[simp] theorem State.halt_ctl : s.halt.ctl = .halted := rfl
@[simp] theorem State.halt_mem : s.halt.mem = s.mem := rfl
@[simp] theorem State.takeFault_layout : (s.takeFault o x).layout = s.layout := rfl
@[simp] theorem State.takeFault_ctl : (s.takeFault o x).ctl = .faulted ⟨s.pc, o, x⟩ := rfl
@[simp] theorem State.takeFault_mem : (s.takeFault o x).mem = s.mem := rfl
@[simp] theorem State.placeEntry_layout (e : BitVec 160) : (s.placeEntry e).layout = s.layout := rfl
@[simp] theorem State.placeEntry_ctl (e : BitVec 160) : (s.placeEntry e).ctl = .running := rfl
@[simp] theorem State.placeEntry_mem (e : BitVec 160) : (s.placeEntry e).mem =
    Memory.rawWrite (Memory.rawWrite s.mem pcOffset s.entrySlot) s.entrySlot.toNat e := rfl

@[simp] theorem State.halt_bits : s.halt.bits a n = s.bits a n := rfl
@[simp] theorem State.halt_byte : s.halt.byte i = s.byte i := rfl
@[simp] theorem State.halt_bit : s.halt.bit i = s.bit i := rfl
@[simp] theorem State.halt_pc : s.halt.pc = s.pc := rfl
@[simp] theorem State.halt_reg : s.halt.reg i = s.reg i := rfl
@[simp] theorem State.halt_head : s.halt.head = s.head := rfl
@[simp] theorem State.takeFault_bits : (s.takeFault o x).bits a n = s.bits a n := rfl
@[simp] theorem State.takeFault_byte : (s.takeFault o x).byte i = s.byte i := rfl
@[simp] theorem State.takeFault_bit : (s.takeFault o x).bit i = s.bit i := rfl
@[simp] theorem State.takeFault_pc : (s.takeFault o x).pc = s.pc := rfl
@[simp] theorem State.takeFault_reg : (s.takeFault o x).reg i = s.reg i := rfl
@[simp] theorem State.takeFault_head : (s.takeFault o x).head = s.head := rfl

end Fields

/-! The layout in closed form (10_state R14). -/

theorem Layout.wordCount_eq (y : Layout) : y.wordCount = 2 + 5 * y.entries := rfl

theorem Layout.regBase_eq (y : Layout) : y.regBase = 64 + 160 * y.entries := by
  unfold Layout.regBase Layout.wordCount; omega

theorem Layout.regOffset_eq (y : Layout) (i : Nat) : y.regOffset i = 64 + 160 * y.entries + 32 * i := by
  unfold Layout.regOffset; rw [Layout.regBase_eq]

theorem Layout.tapeBase_eq (y : Layout) : y.tapeBase = 576 + 160 * y.entries := by
  unfold Layout.tapeBase maxRegs; rw [Layout.regBase_eq]; omega

theorem Layout.headOffset_eq (y : Layout) : y.headOffset = 608 + 160 * y.entries := by
  unfold Layout.headOffset; rw [Layout.tapeBase_eq]; omega

theorem Layout.symBase_eq (y : Layout) : y.symBase = 640 + 160 * y.entries := by
  unfold Layout.symBase; rw [Layout.tapeBase_eq]; omega

theorem Layout.symOffset_eq (y : Layout) (j : Nat) : y.symOffset j = 640 + 160 * y.entries + 2 * j := by
  unfold Layout.symOffset; rw [Layout.symBase_eq]

theorem Layout.size_eq (y : Layout) : y.size = 80 + 20 * y.entries + 4 * (y.tapeLen / 16) := by
  unfold Layout.size Layout.wordCount Layout.tapeWordCount maxRegs; omega

theorem Layout.bits_eq (y : Layout) : y.bits = 640 + 160 * y.entries + 32 * (y.tapeLen / 16) := by
  unfold Layout.bits; rw [Layout.size_eq]; omega

theorem Layout.wf_iff (y : Layout) : y.wf = true ↔ y.tapeLen % 16 = 0 ∧ y.bits ≤ 2 ^ 31 := by
  simp [Layout.wf, maxBits]

/-! The buffer after a write. -/

section Views
variable (s : State)

/-- The bits a write sets, and no others (20_memory R30). -/
theorem State.bit_setBits (a : Nat) {n : Nat} (v : BitVec n) (b : Nat) :
    (s.setBits a v).bit b = if a ≤ b ∧ b < a + n then v.getLsbD (b - a) else s.bit b :=
  Memory.bit_rawWrite s.mem a v b

theorem State.getLsbD_bits (a n k : Nat) : (s.bits a n).getLsbD k = (decide (k < n) && s.bit (a + k)) :=
  Memory.getLsbD_rawRead s.mem a n k

/-- A write changes no byte outside those its bits lie in. -/
theorem State.byte_setBits_of_outside (a : Nat) {n : Nat} (v : BitVec n) (i : Nat)
    (h : 8 * i + 8 ≤ a ∨ a + n ≤ 8 * i) : (s.setBits a v).byte i = s.byte i :=
  Memory.byte_rawWrite_of_outside s.mem a v i h

@[simp] theorem State.bits_setBits_same (a : Nat) {n : Nat} (v : BitVec n) : (s.setBits a v).bits a n = v :=
  Memory.rawRead_rawWrite_same s.mem a v

theorem State.bits_setBits_of_disjoint (a : Nat) {n : Nat} (v : BitVec n) (a' n' : Nat)
    (h : a' + n' ≤ a ∨ a + n ≤ a') : (s.setBits a v).bits a' n' = s.bits a' n' :=
  Memory.rawRead_rawWrite_of_disjoint s.mem a v a' n' h

theorem State.bits_congr {s t : State} {a n : Nat} (h : ∀ b, a ≤ b → b < a + n → s.bit b = t.bit b) :
    s.bits a n = t.bits a n := Memory.rawRead_congr h

theorem State.byte_congr {s t : State} {i : Nat} (h : ∀ b, b / 8 = i → s.bit b = t.bit b) : s.byte i = t.byte i :=
  Memory.byte_eq_of_bit h

/-- Equal bytes have equal bits. -/
theorem State.bit_eq_of_byte {s t : State} {b : Nat} (h : s.byte (b / 8) = t.byte (b / 8)) : s.bit b = t.bit b := by
  unfold State.bit Memory.bit
  rw [show Memory.byte s.mem (b / 8) = Memory.byte t.mem (b / 8) from h]

/-! `pc`, registers, head and symbols after each update (10_state R16 to R24). -/

@[simp] theorem State.pc_setPc (w : Word) : (s.setPc w).pc = w := State.bits_setBits_same s _ w

@[simp] theorem State.pc_setReg (i : Nat) (w : Word) : (s.setReg i w).pc = s.pc :=
  State.bits_setBits_of_disjoint s _ w _ _ (by rw [Layout.regOffset_eq]; unfold pcOffset; omega)

@[simp] theorem State.pc_setHead (w : Word) : (s.setHead w).pc = s.pc :=
  State.bits_setBits_of_disjoint s _ w _ _ (by rw [Layout.headOffset_eq]; unfold pcOffset; omega)

@[simp] theorem State.reg_setPc (i : Nat) (w : Word) : (s.setPc w).reg i = s.reg i :=
  State.bits_setBits_of_disjoint s _ w _ _ (by rw [State.setPc_layout, Layout.regOffset_eq]; unfold pcOffset; omega)

@[simp] theorem State.reg_setReg_same (i : Nat) (w : Word) : (s.setReg i w).reg i = w :=
  State.bits_setBits_same s _ w

theorem State.reg_setReg_of_ne (i j : Nat) (w : Word) (h : j ≠ i) : (s.setReg i w).reg j = s.reg j :=
  State.bits_setBits_of_disjoint s _ w _ _
    (by rw [State.setReg_layout, Layout.regOffset_eq, Layout.regOffset_eq]; omega)

/-- A register after a register write (10_state R18). -/
theorem State.reg_setReg (i j : Nat) (w : Word) : (s.setReg i w).reg j = if j = i then w else s.reg j := by
  by_cases h : j = i
  · subst h; simp
  · rw [if_neg h, State.reg_setReg_of_ne s i j w h]

theorem State.reg_setHead (i : Nat) (w : Word) (h : i < maxRegs) : (s.setHead w).reg i = s.reg i :=
  State.bits_setBits_of_disjoint s _ w _ _ (by
    rw [State.setHead_layout, Layout.regOffset_eq, Layout.headOffset_eq]; unfold maxRegs at h; omega)

@[simp] theorem State.head_setPc (w : Word) : (s.setPc w).head = s.head :=
  State.bits_setBits_of_disjoint s _ w _ _ (by rw [State.setPc_layout, Layout.headOffset_eq]; unfold pcOffset; omega)

theorem State.head_setReg (i : Nat) (w : Word) (h : i < maxRegs) : (s.setReg i w).head = s.head :=
  State.bits_setBits_of_disjoint s _ w _ _ (by
    rw [State.setReg_layout, Layout.regOffset_eq, Layout.headOffset_eq]; unfold maxRegs at h; omega)

@[simp] theorem State.head_setHead (w : Word) : (s.setHead w).head = w := State.bits_setBits_same s _ w

@[simp] theorem State.sym_setPc (j : Nat) (w : Word) : (s.setPc w).sym j = s.sym j :=
  State.bits_setBits_of_disjoint s _ w _ _ (by rw [State.setPc_layout, Layout.symOffset_eq]; unfold pcOffset; omega)

theorem State.sym_setReg (i j : Nat) (w : Word) (h : i < maxRegs) : (s.setReg i w).sym j = s.sym j :=
  State.bits_setBits_of_disjoint s _ w _ _ (by
    rw [State.setReg_layout, Layout.regOffset_eq, Layout.symOffset_eq]; unfold maxRegs at h; omega)

@[simp] theorem State.sym_setHead (j : Nat) (w : Word) : (s.setHead w).sym j = s.sym j :=
  State.bits_setBits_of_disjoint s _ w _ _ (by
    rw [State.setHead_layout, Layout.headOffset_eq, Layout.symOffset_eq]; omega)

/-- A write of `pc` changes no byte but 4 to 7 (10_state R16). -/
theorem State.byte_setPc_of_outside (w : Word) (i : Nat) (h : i < 4 ∨ 8 ≤ i) : (s.setPc w).byte i = s.byte i :=
  State.byte_setBits_of_outside s _ w i (by unfold pcOffset; omega)

/-- A write of register `r` changes no byte but the register's four (10_state R17). -/
theorem State.byte_setReg_of_outside (r : Nat) (w : Word) (i : Nat)
    (h : i < s.layout.regOffset r / 8 ∨ s.layout.regOffset r / 8 + 4 ≤ i) : (s.setReg r w).byte i = s.byte i :=
  State.byte_setBits_of_outside s _ w i (by rw [Layout.regOffset_eq] at *; omega)

end Views

end Sys2Proof.Machine
end

