-- ==== Sys2Proof/Laws/Ops.lean ====
section
/-! SUPPORT. What each shared operation can do, said once: operands, checked access, arithmetic, the two indirect
accesses, the dispatch, fetching and concluding. -/

namespace Sys2Proof.Machine

/-! Outcomes. -/

@[simp] theorem State.conclude_ok (s : State) (op : Word) (t : State) : s.conclude op (.ok t) = .next t := rfl

@[simp] theorem State.conclude_error (s : State) (op : Word) (v : Violation) :
    s.conclude op (.error v) = .next (s.takeFault (some op) v) := rfl

/-- An instruction's end is a next state: its result's, or the fault taken from the state before it. -/
theorem State.conclude_next {s : State} {op : Word} {r : Except Violation State} {t : State}
    (h : s.conclude op r = .next t) : r = .ok t ∨ ∃ v, r = .error v ∧ t = s.takeFault (some op) v := by
  cases r with
  | ok u => simp only [State.conclude_ok, Host.Outcome.next.injEq] at h; exact .inl (h ▸ rfl)
  | error v =>
    simp only [State.conclude_error, Host.Outcome.next.injEq] at h
    exact .inr ⟨v, rfl, h.symm⟩

/-! Two facts about computations that may raise a violation. -/

theorem except_bind_ok {ε α β : Type} {x : Except ε α} {f : α → Except ε β} {b : β} (h : x >>= f = .ok b) :
    ∃ a, x = .ok a ∧ f a = .ok b := by
  cases x with
  | ok a => exact ⟨a, rfl, h⟩
  | error e => exact absurd h (by simp [bind, Except.bind])

@[simp] theorem except_ok_bind {ε α β : Type} (a : α) (f : α → Except ε β) :
    ((.ok a : Except ε α) >>= f) = f a := rfl

@[simp] theorem except_error_bind {ε α β : Type} (e : ε) (f : α → Except ε β) :
    ((.error e : Except ε α) >>= f) = .error e := rfl

/-! Register operands (10_state R18). -/

theorem isRegister_iff (w : Word) : isRegister w = true ↔ 0 ≤ s32 w ∧ s32 w < 16 := by
  simp [isRegister]

theorem toNat_lt_of_isRegister {w : Word} (h : isRegister w = true) : (s32 w).toNat < maxRegs := by
  rw [isRegister_iff] at h; unfold maxRegs; omega

theorem regIndex_of_isRegister {w : Word} (h : isRegister w = true) : regIndex w = .ok (s32 w).toNat := by
  rw [isRegister_iff] at h; exact if_pos h

theorem regIndex_of_not {w : Word} (h : isRegister w = false) : regIndex w = .error (.registerIndex (s32 w)) := by
  rw [← Bool.not_eq_true, isRegister_iff] at h; exact if_neg h

theorem regIndex_ok {w : Word} {i : Nat} (h : regIndex w = .ok i) : isRegister w = true ∧ i = (s32 w).toNat := by
  unfold regIndex at h
  split at h
  · rename_i hw; exact ⟨(isRegister_iff w).2 hw, (Except.ok.inj h).symm⟩
  · cases h

theorem State.readReg_of_isRegister (s : State) {w : Word} (h : isRegister w = true) :
    s.readReg w = .ok (s.reg (s32 w).toNat) := by
  simp [State.readReg, regIndex_of_isRegister h]

theorem State.readReg_of_not (s : State) {w : Word} (h : isRegister w = false) :
    s.readReg w = .error (.registerIndex (s32 w)) := by
  simp [State.readReg, regIndex_of_not h]

theorem State.readReg_ok {s : State} {w v : Word} (h : s.readReg w = .ok v) :
    isRegister w = true ∧ v = s.reg (s32 w).toNat := by
  obtain ⟨i, hi, hv⟩ := except_bind_ok h
  obtain ⟨hw, rfl⟩ := regIndex_ok hi
  exact ⟨hw, (Except.ok.inj hv).symm⟩

theorem State.readAddr_of_isRegister (s : State) {w : Word} (h : isRegister w = true) :
    s.readAddr w = .ok (s32 (s.reg (s32 w).toNat)) := by
  simp [State.readAddr, State.readReg_of_isRegister s h]

theorem State.readAddr_of_not (s : State) {w : Word} (h : isRegister w = false) :
    s.readAddr w = .error (.registerIndex (s32 w)) := by
  simp [State.readAddr, State.readReg_of_not s h]

theorem State.readAddr_ok {s : State} {w : Word} {a : Int} (h : s.readAddr w = .ok a) :
    isRegister w = true ∧ a = s32 (s.reg (s32 w).toNat) := by
  obtain ⟨v, hv, ha⟩ := except_bind_ok h
  obtain ⟨hw, rfl⟩ := State.readReg_ok hv
  exact ⟨hw, (Except.ok.inj ha).symm⟩

/-! Checked access (20_memory R33 to R37). -/

/-- What the alignment and bounds checks let through. -/
theorem State.checkAccess_ok {s : State} {a : Int} {n : Nat} {u : Unit} (h : s.checkAccess a n = .ok u) :
    (n = 32 → a % 32 = 0) ∧ (n = 2 → a % 2 = 0) ∧ 0 ≤ a ∧ a + n ≤ s.layout.bits := by
  unfold State.checkAccess at h
  split at h
  · cases h
  · rename_i h1
    split at h
    · cases h
    · rename_i h2
      split at h
      · cases h
      · rename_i h3
        refine ⟨fun hn => ?_, fun hn => ?_, ?_, ?_⟩
        · by_contra hc; exact h1 ⟨hn, hc⟩
        · by_contra hc; exact h2 ⟨hn, .inl hc⟩
        · omega
        · omega

theorem State.checkAccess_word (s : State) {a : Int} (h : a % 32 = 0) (h0 : 0 ≤ a) (h1 : a + 32 ≤ s.layout.bits) :
    s.checkAccess a 32 = .ok () := by
  unfold State.checkAccess
  rw [if_neg (by omega), if_neg (by omega), if_neg (by omega)]

theorem State.checkAccess_sym (s : State) {a : Int} (h : a % 2 = 0) (h0 : 0 ≤ a) (h1 : a + 2 ≤ s.layout.bits) :
    s.checkAccess a 2 = .ok () := by
  unfold State.checkAccess
  rw [if_neg (by omega), if_neg (by omega), if_neg (by omega)]

/-- The result of a checked read that raises nothing. -/
theorem State.memRead_ok {s : State} {a : Int} {n : Nat} {v : BitVec n} (h : s.memRead a n = .ok v) :
    (n = 32 → a % 32 = 0) ∧ (n = 2 → a % 2 = 0 ∧ v.toNat ≠ 3) ∧ 0 ≤ a ∧ a + n ≤ s.layout.bits ∧
      v = s.bits a.toNat n := by
  unfold State.memRead at h
  obtain ⟨u, hu, hv⟩ := except_bind_ok h
  obtain ⟨h1, h2, h3, h4⟩ := State.checkAccess_ok hu
  simp only at hv
  split at hv
  · cases hv
  · rename_i hne
    have hv := Except.ok.inj hv
    subst hv
    exact ⟨h1, fun hn => ⟨h2 hn, fun hc => hne ⟨hn, hc⟩⟩, h3, h4, rfl⟩

theorem State.memRead_word (s : State) {a : Int} (h : a % 32 = 0) (h0 : 0 ≤ a) (h1 : a + 32 ≤ s.layout.bits) :
    s.memRead a 32 = .ok (s.bits a.toNat 32) := by
  simp [State.memRead, State.checkAccess_word s h h0 h1]

theorem State.memRead_sym (s : State) {a : Int} (h : a % 2 = 0) (h0 : 0 ≤ a) (h1 : a + 2 ≤ s.layout.bits)
    (h3 : s.bits a.toNat 2 ≠ 3) : s.memRead a 2 = .ok (s.bits a.toNat 2) := by
  have : (s.bits a.toNat 2).toNat ≠ 3 := fun hc => h3 (BitVec.eq_of_toNat_eq (by simpa using hc))
  simp [State.memRead, State.checkAccess_sym s h h0 h1, this]

/-- A place apart from both layout words. -/
theorem State.touchesLayout_eq_false (s : State) (a : Int) (n : Nat) :
    s.touchesLayout a n = false ↔
      (32 ≤ a ∨ a + n ≤ 0) ∧ ((s.layout.tapeBase : Int) + 32 ≤ a ∨ a + n ≤ s.layout.tapeBase) := by
  simp only [State.touchesLayout, overlaps, wordCountOffset, Bool.or_eq_false_iff, Bool.and_eq_false_iff,
    decide_eq_false_iff_not]
  omega

/-- The result of a checked write that raises nothing. -/
theorem State.memWrite_ok {s t : State} {a : Int} {n : Nat} {v : Int} (h : s.memWrite a n v = .ok t) :
    (n = 32 → a % 32 = 0) ∧ (n = 2 → a % 2 = 0 ∧ (v = 0 ∨ v = 1 ∨ v = 2)) ∧ 0 ≤ a ∧ a + n ≤ s.layout.bits ∧
      s.touchesLayout a n = false ∧ t = s.setBits a.toNat (BitVec.ofInt n v) := by
  unfold State.memWrite at h
  obtain ⟨u, hu, hv⟩ := except_bind_ok h
  obtain ⟨h1, h2, h3, h4⟩ := State.checkAccess_ok hu
  split at hv
  · cases hv
  · rename_i hl
    split at hv
    · cases hv
    · rename_i hs
      refine ⟨h1, fun hn => ⟨h2 hn, ?_⟩, h3, h4, by simpa using hl, (Except.ok.inj hv).symm⟩
      by_contra hc; exact hs ⟨hn, hc⟩

theorem State.memWrite_word (s : State) {a v : Int} (h : a % 32 = 0) (h0 : 0 ≤ a) (h1 : a + 32 ≤ s.layout.bits)
    (h2 : s.touchesLayout a 32 = false) : s.memWrite a 32 v = .ok (s.setBits a.toNat (u32 v)) := by
  simp [State.memWrite, State.checkAccess_word s h h0 h1, h2]

theorem State.memWrite_sym (s : State) {a v : Int} (h : a % 2 = 0) (h0 : 0 ≤ a) (h1 : a + 2 ≤ s.layout.bits)
    (h2 : s.touchesLayout a 2 = false) (hv : v = 0 ∨ v = 1 ∨ v = 2) :
    s.memWrite a 2 v = .ok (s.setBits a.toNat (BitVec.ofInt 2 v)) := by
  simp [State.memWrite, State.checkAccess_sym s h h0 h1, h2, hv]

/-! Arithmetic (41_register_instructions R67). -/

theorem inRange_iff (r : Int) : inRange r = true ↔ -2147483648 ≤ r ∧ r < 2147483648 := by
  simp [inRange]

theorem narrow_of_inRange {r : Int} (h : inRange r = true) : narrow r = .ok (u32 r) := by simp [narrow, h]

theorem narrow_of_not {r : Int} (h : inRange r = false) : narrow r = .error (.arithOverflow r) := by simp [narrow, h]

theorem narrow_ok {r : Int} {w : Word} (h : narrow r = .ok w) : inRange r = true ∧ w = u32 r := by
  unfold narrow at h
  split at h
  · rename_i hr; exact ⟨hr, (Except.ok.inj h).symm⟩
  · cases h

/-- A result in range is the value its word stands for. -/
theorem s32_u32_of_inRange {r : Int} (h : inRange r = true) : s32 (u32 r) = r := by
  rw [inRange_iff] at h
  simp only [s32, u32, BitVec.toInt_ofInt]
  rw [Int.bmod_eq_of_le] <;> omega

@[simp] theorem u32_s32 (w : Word) : u32 (s32 w) = w := by simp [u32, s32]

theorem State.arith_of_ok (s : State) (f : Int → Int → Int) {p q d : Word} (hp : isRegister p = true)
    (hq : isRegister q = true) (hd : isRegister d = true)
    (hr : inRange (f (s32 (s.reg (s32 p).toNat)) (s32 (s.reg (s32 q).toNat))) = true) :
    s.arith f p q d =
      .ok (s.setReg (s32 d).toNat (u32 (f (s32 (s.reg (s32 p).toNat)) (s32 (s.reg (s32 q).toNat))))) := by
  simp [State.arith, State.readReg_of_isRegister s hp, State.readReg_of_isRegister s hq, regIndex_of_isRegister hd,
    narrow_of_inRange hr]

theorem State.arith_ok {s t : State} {f : Int → Int → Int} {p q d : Word} (h : s.arith f p q d = .ok t) :
    isRegister p = true ∧ isRegister q = true ∧ isRegister d = true ∧
    inRange (f (s32 (s.reg (s32 p).toNat)) (s32 (s.reg (s32 q).toNat))) = true ∧
    t = s.setReg (s32 d).toNat (u32 (f (s32 (s.reg (s32 p).toNat)) (s32 (s.reg (s32 q).toNat)))) := by
  obtain ⟨u, hu, h⟩ := except_bind_ok h
  obtain ⟨w, hw, h⟩ := except_bind_ok h
  obtain ⟨i, hi, h⟩ := except_bind_ok h
  obtain ⟨r, hr, h⟩ := except_bind_ok h
  obtain ⟨hp, rfl⟩ := State.readReg_ok hu
  obtain ⟨hq, rfl⟩ := State.readReg_ok hw
  obtain ⟨hd, rfl⟩ := regIndex_ok hi
  obtain ⟨hin, rfl⟩ := narrow_ok hr
  exact ⟨hp, hq, hd, hin, (Except.ok.inj h).symm⟩

/-! The two indirect accesses (42_store_instructions). -/

theorem State.loadIndirect_of_ok (s : State) {n : Nat} {a d : Word} {v : BitVec n} (ha : isRegister a = true)
    (hd : isRegister d = true) (hv : s.memRead (s32 (s.reg (s32 a).toNat)) n = .ok v) :
    s.loadIndirect n a d = .ok (s.setReg (s32 d).toNat (v.setWidth 32)) := by
  simp [State.loadIndirect, State.readAddr_of_isRegister s ha, regIndex_of_isRegister hd, hv]

theorem State.loadIndirect_ok {s t : State} {n : Nat} {a d : Word} (h : s.loadIndirect n a d = .ok t) :
    isRegister a = true ∧ isRegister d = true ∧
    ∃ v, s.memRead (s32 (s.reg (s32 a).toNat)) n = .ok v ∧ t = s.setReg (s32 d).toNat (v.setWidth 32) := by
  obtain ⟨addr, haddr, h1⟩ := except_bind_ok h
  obtain ⟨ha, rfl⟩ := State.readAddr_ok haddr
  obtain ⟨i, hi, h2⟩ := except_bind_ok h1
  obtain ⟨hd, rfl⟩ := regIndex_ok hi
  obtain ⟨v, hv, h3⟩ := except_bind_ok h2
  exact ⟨ha, hd, v, hv, (Except.ok.inj h3).symm⟩

theorem State.storeIndirect_of_isRegister (s : State) (n : Nat) {a src : Word} (ha : isRegister a = true)
    (hs : isRegister src = true) :
    s.storeIndirect n a src = s.memWrite (s32 (s.reg (s32 a).toNat)) n (s32 (s.reg (s32 src).toNat)) := by
  simp [State.storeIndirect, State.readAddr_of_isRegister s ha, State.readReg_of_isRegister s hs]

theorem State.storeIndirect_ok {s t : State} {n : Nat} {a src : Word} (h : s.storeIndirect n a src = .ok t) :
    isRegister a = true ∧ isRegister src = true ∧
    s.memWrite (s32 (s.reg (s32 a).toNat)) n (s32 (s.reg (s32 src).toNat)) = .ok t := by
  obtain ⟨addr, haddr, h⟩ := except_bind_ok h
  obtain ⟨v, hv, h⟩ := except_bind_ok h
  obtain ⟨ha, rfl⟩ := State.readAddr_ok haddr
  obtain ⟨hs, rfl⟩ := State.readReg_ok hv
  exact ⟨ha, hs, h⟩

/-! CLRREGS (41_register_instructions R68). -/

/-- The registers below `k` cleared. -/
theorem State.reg_clear (s : State) (k j : Nat) :
    ((List.range k).foldl (fun t i => t.setReg i 0) s).reg j = if j < k then 0 else s.reg j := by
  induction k with
  | zero => simp
  | succ n ih =>
    rw [List.range_succ, List.foldl_append, List.foldl_cons, List.foldl_nil, State.reg_setReg, ih]
    by_cases h : j = n
    · simp [h]
    · simp only [h, if_false, show (j < n + 1) ↔ (j < n) by omega]

theorem State.clear_layout (s : State) (k : Nat) :
    ((List.range k).foldl (fun t i => t.setReg i 0) s).layout = s.layout ∧
    ((List.range k).foldl (fun t i => t.setReg i 0) s).ctl = s.ctl := by
  induction k with
  | zero => simp
  | succ n ih => rw [List.range_succ, List.foldl_append]; exact ih

@[simp] theorem State.clearRegs_layout (s : State) : s.clearRegs.layout = s.layout := (State.clear_layout s _).1

@[simp] theorem State.clearRegs_ctl (s : State) : s.clearRegs.ctl = s.ctl := (State.clear_layout s _).2

theorem State.reg_clearRegs (s : State) (j : Nat) (h : j < maxRegs) : s.clearRegs.reg j = 0 := by
  rw [State.clearRegs, State.reg_clear, if_pos h]

/-- Clearing changes no bit outside the register region. -/
theorem State.bit_clearRegs_of_outside (s : State) (b : Nat) (h : b < s.layout.regBase ∨ s.layout.tapeBase ≤ b) :
    s.clearRegs.bit b = s.bit b := by
  have key : ∀ k, k ≤ maxRegs → ((List.range k).foldl (fun t i => t.setReg i 0) s).bit b = s.bit b := by
    intro k
    induction k with
    | zero => intro _; rfl
    | succ n ih =>
      intro hk
      rw [List.range_succ, List.foldl_append, List.foldl_cons, List.foldl_nil, State.setReg, State.bit_setBits,
        if_neg, ih (by omega)]
      rw [(State.clear_layout s n).1, Layout.regOffset_eq]
      rw [Layout.regBase_eq, Layout.tapeBase_eq] at h
      unfold maxRegs at hk
      omega
  exact key maxRegs (le_refl _)

@[simp] theorem State.pc_clearRegs (s : State) : s.clearRegs.pc = s.pc :=
  State.bits_congr fun b h1 h2 =>
    State.bit_clearRegs_of_outside s b (.inl (by rw [Layout.regBase_eq]; unfold pcOffset at *; omega))

/-! The dispatch of a transition entry (43_control_instructions R79, R80). -/

/-- What the dispatch can do: halt, enter the bootstrap, or raise HEAD_OUT_OF_TAPE. -/
theorem State.tmDispatch_cases (s : State) :
    (s.pc = s.reg haltSentinelReg ∧ s.tmDispatch = .ok (s.halt, false)) ∨
    (s.pc ≠ s.reg haltSentinelReg ∧ s.headValid = true ∧
      s.tmDispatch = .ok ((s.setReg activeStateReg s.pc).setPc bootstrapEntry, true)) ∨
    (s.pc ≠ s.reg haltSentinelReg ∧ s.headValid = false ∧ s.tmDispatch = .error (.headOutOfTape s.head)) := by
  unfold State.tmDispatch State.haltTest
  by_cases h : s.pc = s.reg haltSentinelReg
  · exact .inl ⟨h, by simp [h]⟩
  · cases hv : s.headValid with
    | true => exact .inr (.inl ⟨h, rfl, by simp [h]⟩)
    | false => exact .inr (.inr ⟨h, rfl, by simp [h]⟩)

theorem State.headValid_iff (s : State) :
    s.headValid = true ↔ s.head.toNat % 2 = 0 ∧ s.head.toNat < 2 * s.layout.tapeLen := by
  simp [State.headValid]

/-! Fetching (40_step_loop R62, R63). -/

@[simp] theorem raised_ok {α : Type} (o : Option Word) (a : α) : raised o (.ok a) = .ok a := rfl

@[simp] theorem raised_error {α : Type} (o : Option Word) (v : Violation) :
    raised o (.error v : Except Violation α) = .error (o, v) := rfl

theorem raised_eq_ok {α : Type} {o : Option Word} {x : Except Violation α} {a : α} (h : raised o x = .ok a) :
    x = .ok a := by
  cases x with
  | ok b => exact congrArg _ (Except.ok.inj h)
  | error v => cases h

theorem State.entryWord_eq (s : State) (o k : Nat) : s.entryWord o k = s.bits (o + 32 * k) 32 := rfl

/-- The marker is fetched wherever its opcode word is readable; nothing else of the entry is checked. -/
theorem State.fetch_marker (s : State) (h : s.pc.toNat % 32 = 0) (hb : s.pc.toNat + 32 ≤ s.layout.bits)
    (hw : s.entryWord s.pc.toNat 0 = Opcode.tmstate) : s.fetch = .ok (.tmstate (s.transitionAt s.pc.toNat)) := by
  have h0 : s.memRead (s.pc.toNat : Int) 32 = .ok Opcode.tmstate := by
    rw [State.memRead_word s (by omega) (by omega) (by omega)]
    rw [← hw]; simp [State.entryWord]
  simp [State.fetch, h0]

/-- A generic entry that lies in the buffer is fetched as its words decode. -/
theorem State.fetch_generic (s : State) (h : s.pc.toNat % 32 = 0) (hb : s.pc.toNat + 160 ≤ s.layout.bits)
    (hw : s.entryWord s.pc.toNat 0 ≠ Opcode.tmstate) :
    s.fetch = match decodeWords (s.entryWord s.pc.toNat 0) (s.entryWord s.pc.toNat 1) (s.entryWord s.pc.toNat 2)
        (s.entryWord s.pc.toNat 3) (s.entryWord s.pc.toNat 4) with
      | .ok i => .ok i
      | .error _ => .error (some (s.entryWord s.pc.toNat 0), .illegalOpcode (s.entryWord s.pc.toNat 0)) := by
  have hk : ∀ k : Nat, k ≤ 4 →
      s.memRead ((s.pc.toNat : Int) + (32 * k : Nat)) 32 = .ok (s.entryWord s.pc.toNat k) := by
    intro k hk
    rw [State.memRead_word s (by omega) (by omega) (by omega), State.entryWord]
    congr 2
  have h0 := hk 0 (by omega)
  have h1 := hk 1 (by omega)
  have h2 := hk 2 (by omega)
  have h3 := hk 3 (by omega)
  have h4 := hk 4 (by omega)
  simp only [Nat.mul_zero, Nat.cast_zero, add_zero, Nat.mul_one, Nat.reduceMul, Nat.cast_ofNat] at h0 h1 h2 h3 h4
  simp only [State.fetch, h0, h1, h2, h3, h4, raised_ok, except_ok_bind, hw, if_false]
  all_goals rfl

/-- Everything a fetch that raises nothing says: the entry is aligned and readable, and the instruction is the entry's.
-/
theorem State.fetch_ok {s : State} {i : Instr} (h : s.fetch = .ok i) :
    s.pc.toNat % 32 = 0 ∧ s.pc.toNat + 32 ≤ s.layout.bits ∧
    ((s.entryWord s.pc.toNat 0 = Opcode.tmstate ∧ i = .tmstate (s.transitionAt s.pc.toNat)) ∨
     (s.entryWord s.pc.toNat 0 ≠ Opcode.tmstate ∧ s.pc.toNat + 160 ≤ s.layout.bits ∧
      decodeWords (s.entryWord s.pc.toNat 0) (s.entryWord s.pc.toNat 1) (s.entryWord s.pc.toNat 2)
        (s.entryWord s.pc.toNat 3) (s.entryWord s.pc.toNat 4) = .ok i)) := by
  have hfetch := h
  unfold State.fetch at h
  obtain ⟨w0, h0, h⟩ := except_bind_ok h
  obtain ⟨ha, -, hp, hb, rfl⟩ := State.memRead_ok (raised_eq_ok h0)
  have ha := ha rfl
  have hw : s.bits ((s.pc.toNat : Int)).toNat 32 = s.entryWord s.pc.toNat 0 := by simp [State.entryWord]
  refine ⟨by omega, by omega, ?_⟩
  rw [hw] at h
  by_cases hm : s.entryWord s.pc.toNat 0 = Opcode.tmstate
  · rw [if_pos hm] at h
    exact .inl ⟨hm, (Except.ok.inj h).symm⟩
  · rw [if_neg hm] at h
    obtain ⟨w1, h1, h⟩ := except_bind_ok h
    obtain ⟨w2, h2, h⟩ := except_bind_ok h
    obtain ⟨w3, h3, h⟩ := except_bind_ok h
    obtain ⟨w4, h4, h⟩ := except_bind_ok h
    obtain ⟨-, -, -, hb4, -⟩ := State.memRead_ok (raised_eq_ok h4)
    have hlen : s.pc.toNat + 160 ≤ s.layout.bits := by omega
    rw [State.fetch_generic s (by omega) hlen hm] at hfetch
    refine .inr ⟨hm, hlen, ?_⟩
    cases hd : decodeWords (s.entryWord s.pc.toNat 0) (s.entryWord s.pc.toNat 1) (s.entryWord s.pc.toNat 2)
        (s.entryWord s.pc.toNat 3) (s.entryWord s.pc.toNat 4) with
    | ok j => rw [hd] at hfetch; exact congrArg _ (Except.ok.inj hfetch)
    | error e => rw [hd] at hfetch; cases hfetch

theorem raised_eq_error {α : Type} {o : Option Word} {x : Except Violation α} {e : Option Word × Violation}
    (h : raised o x = .error e) : e.1 = o ∧ x = .error e.2 := by
  cases x with
  | ok a => cases h
  | error v => cases h; exact ⟨rfl, rfl⟩

theorem except_bind_error {ε α β : Type} {x : Except ε α} {f : α → Except ε β} {e : ε} (h : x >>= f = .error e) :
    x = .error e ∨ ∃ a, x = .ok a ∧ f a = .error e := by
  cases x with
  | ok a => exact .inr ⟨a, rfl, h⟩
  | error v => exact .inl (by simpa using h)

/-- Where a fetch raises: before the opcode word was read, which then is not recorded, or after it (60_exceptions R100).
-/
theorem State.fetch_error {s : State} {o : Option Word} {v : Violation} (h : s.fetch = .error (o, v)) :
    (o = none ∧ (s.pc.toNat % 32 ≠ 0 ∨ s.layout.bits < s.pc.toNat + 32)) ∨
    (o = some (s.entryWord s.pc.toNat 0) ∧ s.entryWord s.pc.toNat 0 ≠ Opcode.tmstate ∧ s.pc.toNat % 32 = 0 ∧
      s.pc.toNat + 32 ≤ s.layout.bits) := by
  unfold State.fetch at h
  rcases except_bind_error h with h | ⟨w0, h0, h⟩
  · obtain ⟨rfl, h⟩ := raised_eq_error h
    refine .inl ⟨rfl, ?_⟩
    by_contra hc
    rw [State.memRead_word s (by omega) (by omega) (by omega)] at h
    cases h
  · obtain ⟨h1, -, h2, h3, rfl⟩ := State.memRead_ok (raised_eq_ok h0)
    have h1 := h1 rfl
    have hw : s.bits ((s.pc.toNat : Int)).toNat 32 = s.entryWord s.pc.toNat 0 := by simp [State.entryWord]
    rw [hw] at h
    by_cases hm : s.entryWord s.pc.toNat 0 = Opcode.tmstate
    · rw [if_pos hm] at h; cases h
    · rw [if_neg hm] at h
      refine .inr ⟨?_, hm, by omega, by omega⟩
      rcases except_bind_error h with h | ⟨w1, -, h⟩
      · exact (raised_eq_error h).1
      rcases except_bind_error h with h | ⟨w2, -, h⟩
      · exact (raised_eq_error h).1
      rcases except_bind_error h with h | ⟨w3, -, h⟩
      · exact (raised_eq_error h).1
      rcases except_bind_error h with h | ⟨w4, -, h⟩
      · exact (raised_eq_error h).1
      split at h
      · cases h
      · cases h; rfl

end Sys2Proof.Machine
end

