-- ==== Sys2Proof/Laws/Step.lean ====
section
/-! SUPPORT. What a step can do, said once: the cases of `step`, what each instruction answers, and that every step is a
sequence of in-bounds writes apart from the layout words, with the control state set at most. -/

namespace Sys2Proof.Machine

/-! The cases of a step (40_step_loop R60). -/

theorem step_of_halted {s : State} (h : s.ctl = .halted) : step s = .next s := by simp [step, h]

theorem step_of_faulted {s : State} {f : FaultRecord} (h : s.ctl = .faulted f) : step s = .next s := by simp [step, h]

theorem step_of_fetch_ok {s : State} {i : Instr} (h : s.ctl = .running) (hf : s.fetch = .ok i) : step s = exec i s := by
  simp [step, h, hf]

theorem step_of_fetch_error {s : State} {o : Option Word} {v : Violation} (h : s.ctl = .running)
    (hf : s.fetch = .error (o, v)) : step s = .next (s.takeFault o v) := by
  simp [step, h, hf]

/-- Every step is one of these: a stopped machine stays, fetching raises a fault, or the fetched instruction runs. -/
theorem step_cases {s t : State} (h : step s = .next t) :
    (s.ctl ≠ .running ∧ t = s) ∨
    (s.ctl = .running ∧ ∃ o v, s.fetch = .error (o, v) ∧ t = s.takeFault o v) ∨
    (s.ctl = .running ∧ ∃ i, s.fetch = .ok i ∧ exec i s = .next t) := by
  cases hc : s.ctl with
  | halted => rw [step_of_halted hc] at h; exact .inl ⟨by simp, (Host.Outcome.next.inj h).symm⟩
  | faulted f => rw [step_of_faulted hc] at h; exact .inl ⟨by simp, (Host.Outcome.next.inj h).symm⟩
  | running =>
    cases hf : s.fetch with
    | ok i => rw [step_of_fetch_ok hc hf] at h; exact .inr (.inr ⟨rfl, i, rfl, h⟩)
    | error e =>
      obtain ⟨o, v⟩ := e
      rw [step_of_fetch_error hc hf] at h
      exact .inr (.inl ⟨rfl, o, v, rfl, (Host.Outcome.next.inj h).symm⟩)

/-! What each instruction answers: its effect, or a fault taken from the state before it. -/

/-- The result of an instruction that ends by writing `next` to `pc`. -/
theorem then_setPc_ok {r : Except Violation State} {next : Word} {t : State}
    (h : (do let u ← r; Except.ok (u.setPc next)) = Except.ok t) : ∃ u, r = .ok u ∧ t = u.setPc next := by
  obtain ⟨u, hu, ht⟩ := except_bind_ok h
  exact ⟨u, hu, (Except.ok.inj ht).symm⟩

section Answers
variable {s t : State}

theorem execClrregs_next {next : Word} (h : execClrregs next s = .next t) : t = s.clearRegs.setPc next :=
  (Host.Outcome.next.inj h).symm

theorem execLoadc_next {v d next : Word} (h : execLoadc v d next s = .next t) :
    (isRegister d = true ∧ t = (s.setReg (s32 d).toNat v).setPc next) ∨
    ∃ x, t = s.takeFault (some Opcode.loadc) x := by
  rcases State.conclude_next h with h | ⟨x, -, hx⟩
  · obtain ⟨i, hi, ht⟩ := except_bind_ok h
    obtain ⟨hd, rfl⟩ := regIndex_ok hi
    exact .inl ⟨hd, (Except.ok.inj ht).symm⟩
  · exact .inr ⟨x, hx⟩

theorem execMul_next {p q d next : Word} (h : execMul p q d next s = .next t) :
    (∃ u, s.arith (fun u w => u * w) p q d = .ok u ∧ t = u.setPc next) ∨
    ∃ x, t = s.takeFault (some Opcode.mul) x := by
  rcases State.conclude_next h with h | ⟨x, -, hx⟩
  · exact .inl (then_setPc_ok h)
  · exact .inr ⟨x, hx⟩

theorem execAdd_next {p q d next : Word} (h : execAdd p q d next s = .next t) :
    (∃ u, s.arith (fun u w => u + w) p q d = .ok u ∧ t = u.setPc next) ∨
    ∃ x, t = s.takeFault (some Opcode.add) x := by
  rcases State.conclude_next h with h | ⟨x, -, hx⟩
  · exact .inl (then_setPc_ok h)
  · exact .inr ⟨x, hx⟩

theorem execRdw_next {a d next : Word} (h : execRdw a d next s = .next t) :
    (∃ u, s.loadIndirect 32 a d = .ok u ∧ t = u.setPc next) ∨ ∃ x, t = s.takeFault (some Opcode.rdw) x := by
  rcases State.conclude_next h with h | ⟨x, -, hx⟩
  · exact .inl (then_setPc_ok h)
  · exact .inr ⟨x, hx⟩

theorem execRds_next {a d next : Word} (h : execRds a d next s = .next t) :
    (∃ u, s.loadIndirect 2 a d = .ok u ∧ t = u.setPc next) ∨ ∃ x, t = s.takeFault (some Opcode.rds) x := by
  rcases State.conclude_next h with h | ⟨x, -, hx⟩
  · exact .inl (then_setPc_ok h)
  · exact .inr ⟨x, hx⟩

theorem execWrw_next {a src next : Word} (h : execWrw a src next s = .next t) :
    (∃ u, s.storeIndirect 32 a src = .ok u ∧ t = u.setPc next) ∨ ∃ x, t = s.takeFault (some Opcode.wrw) x := by
  rcases State.conclude_next h with h | ⟨x, -, hx⟩
  · exact .inl (then_setPc_ok h)
  · exact .inr ⟨x, hx⟩

theorem execWrs_next {a src next : Word} (h : execWrs a src next s = .next t) :
    (∃ u, s.storeIndirect 2 a src = .ok u ∧ t = u.setPc next) ∨ ∃ x, t = s.takeFault (some Opcode.wrs) x := by
  rcases State.conclude_next h with h | ⟨x, -, hx⟩
  · exact .inl (then_setPc_ok h)
  · exact .inr ⟨x, hx⟩

theorem execHalt_next {next : Word} (h : execHalt next s = .next t) : t = s.halt := (Host.Outcome.next.inj h).symm

theorem execRet_next {a src next : Word} (h : execRet a src next s = .next t) :
    s.storeIndirect 32 a src = .ok t ∨ ∃ x, t = s.takeFault (some Opcode.ret) x := by
  rcases State.conclude_next h with h | ⟨x, -, hx⟩
  · exact .inl h
  · exact .inr ⟨x, hx⟩

theorem execTmstate_next {e : Transition} (h : execTmstate e s = .next t) :
    (s.pc = s.reg haltSentinelReg ∧ t = s.halt) ∨
    (s.pc ≠ s.reg haltSentinelReg ∧ s.headValid = true ∧ t = (s.setReg activeStateReg s.pc).setPc bootstrapEntry) ∨
    (s.pc ≠ s.reg haltSentinelReg ∧ s.headValid = false ∧
      t = s.takeFault (some Opcode.tmstate) (.headOutOfTape s.head)) := by
  unfold execTmstate at h
  rcases State.tmDispatch_cases s with ⟨hp, hd⟩ | ⟨hp, hv, hd⟩ | ⟨hp, hv, hd⟩ <;> rw [hd] at h
  · exact .inl ⟨hp, (Host.Outcome.next.inj h).symm⟩
  · exact .inr (.inl ⟨hp, hv, (Host.Outcome.next.inj h).symm⟩)
  · exact .inr (.inr ⟨hp, hv, (Host.Outcome.next.inj h).symm⟩)

end Answers

/-! Every step is a sequence of legal edits. -/

/-- `t` comes from `s` by in-bounds writes apart from the layout words, and settings of the control state. -/
inductive Edited (s : State) : State → Prop where
  | same : Edited s s
  | wrote {t : State} (a n : Nat) (v : BitVec n) (h : Edited s t) (hb : a + n ≤ s.layout.bits)
      (hw : 32 ≤ a) (ht : a + n ≤ s.layout.tapeBase ∨ s.layout.tapeBase + 32 ≤ a) : Edited s (t.setBits a v)
  | stopped {t : State} (c : Ctl) (h : Edited s t) : Edited s { t with ctl := c }

theorem Edited.layout {s t : State} (h : Edited s t) : t.layout = s.layout := by
  induction h with
  | same => rfl
  | wrote _ _ _ _ _ _ _ ih => exact ih
  | stopped _ _ ih => exact ih

theorem Edited.setPc {s t : State} (h : Edited s t) (w : Word) : Edited s (t.setPc w) :=
  .wrote pcOffset 32 w h (by rw [Layout.bits_eq]; unfold pcOffset; omega) (by unfold pcOffset; omega)
    (.inl (by rw [Layout.tapeBase_eq]; unfold pcOffset; omega))

theorem Edited.setReg {s t : State} (h : Edited s t) {i : Nat} (hi : i < maxRegs) (w : Word) :
    Edited s (t.setReg i w) := by
  unfold maxRegs at hi
  unfold State.setReg
  rw [h.layout]
  exact .wrote _ 32 w h (by rw [Layout.bits_eq, Layout.regOffset_eq]; omega) (by rw [Layout.regOffset_eq]; omega)
    (.inl (by rw [Layout.tapeBase_eq, Layout.regOffset_eq]; omega))

theorem Edited.takeFault (s : State) (o : Option Word) (v : Violation) : Edited s (s.takeFault o v) := .stopped _ .same

theorem Edited.clearRegs (s : State) : Edited s s.clearRegs := by
  have key : ∀ k, k ≤ maxRegs → Edited s ((List.range k).foldl (fun t i => t.setReg i 0) s) := by
    intro k
    induction k with
    | zero => intro _; exact .same
    | succ n ih =>
      intro hk
      rw [List.range_succ, List.foldl_append]
      exact (ih (by omega)).setReg (by omega) 0
  exact key _ (le_refl _)

theorem Edited.memWrite {s t : State} {a : Int} {n : Nat} {v : Int} (h : s.memWrite a n v = .ok t) (hn : 0 < n) :
    Edited s t := by
  obtain ⟨-, -, h0, hb, hl, rfl⟩ := State.memWrite_ok h
  rw [State.touchesLayout_eq_false] at hl
  exact .wrote _ _ _ .same (by omega) (by omega) (by omega)

theorem Edited.loadIndirect {s t : State} {n : Nat} {a d : Word} (h : s.loadIndirect n a d = .ok t) : Edited s t := by
  obtain ⟨-, hd, v, -, rfl⟩ := State.loadIndirect_ok h
  exact Edited.same.setReg (toNat_lt_of_isRegister hd) _

theorem Edited.storeIndirect {s t : State} {n : Nat} {a src : Word} (h : s.storeIndirect n a src = .ok t)
    (hn : 0 < n) : Edited s t := Edited.memWrite (State.storeIndirect_ok h).2.2 hn

theorem Edited.arith {s t : State} {f : Int → Int → Int} {p q d : Word} (h : s.arith f p q d = .ok t) :
    Edited s t := by
  obtain ⟨-, -, hd, -, rfl⟩ := State.arith_ok h
  exact Edited.same.setReg (toNat_lt_of_isRegister hd) _

/-- Every instruction edits legally. -/
theorem Edited.of_exec {s t : State} {i : Instr} (h : exec i s = .next t) : Edited s t := by
  cases i with
  | clrregs next => rw [execClrregs_next h]; exact (Edited.clearRegs s).setPc _
  | loadc v d next =>
    rcases execLoadc_next h with ⟨hd, rfl⟩ | ⟨x, rfl⟩
    · exact (Edited.same.setReg (toNat_lt_of_isRegister hd) _).setPc _
    · exact .takeFault ..
  | rdw a d next =>
    rcases execRdw_next h with ⟨u, hu, rfl⟩ | ⟨x, rfl⟩
    · exact (Edited.loadIndirect hu).setPc _
    · exact .takeFault ..
  | wrw a src next =>
    rcases execWrw_next h with ⟨u, hu, rfl⟩ | ⟨x, rfl⟩
    · exact (Edited.storeIndirect hu (by omega)).setPc _
    · exact .takeFault ..
  | rds a d next =>
    rcases execRds_next h with ⟨u, hu, rfl⟩ | ⟨x, rfl⟩
    · exact (Edited.loadIndirect hu).setPc _
    · exact .takeFault ..
  | wrs a src next =>
    rcases execWrs_next h with ⟨u, hu, rfl⟩ | ⟨x, rfl⟩
    · exact (Edited.storeIndirect hu (by omega)).setPc _
    · exact .takeFault ..
  | mul p q d next =>
    rcases execMul_next h with ⟨u, hu, rfl⟩ | ⟨x, rfl⟩
    · exact (Edited.arith hu).setPc _
    · exact .takeFault ..
  | add p q d next =>
    rcases execAdd_next h with ⟨u, hu, rfl⟩ | ⟨x, rfl⟩
    · exact (Edited.arith hu).setPc _
    · exact .takeFault ..
  | halt next => rw [execHalt_next (next := next) h]; exact .stopped _ .same
  | ret a src next =>
    rcases execRet_next (next := next) h with hu | ⟨x, rfl⟩
    · exact Edited.storeIndirect hu (by omega)
    · exact .takeFault ..
  | tmstate e =>
    rcases execTmstate_next (e := e) h with ⟨-, rfl⟩ | ⟨-, -, rfl⟩ | ⟨-, -, rfl⟩
    · exact .stopped _ .same
    · exact (Edited.same.setReg (by decide) _).setPc _
    · exact .takeFault ..

/-- Every step edits legally. -/
theorem Edited.of_step {s t : State} (h : step s = .next t) : Edited s t := by
  rcases step_cases h with ⟨-, rfl⟩ | ⟨-, o, v, -, rfl⟩ | ⟨-, i, -, h⟩
  · exact .same
  · exact .takeFault ..
  · exact .of_exec h

/-- Legal edits keep the canonical form of the memory. -/
theorem Edited.memory_wf {s t : State} (h : Edited s t) (hs : Memory.wf s.mem = true) : Memory.wf t.mem = true := by
  induction h with
  | same => exact hs
  | wrote a n v _ _ _ _ ih => exact Memory.wf_rawWrite a v ih
  | stopped _ _ ih => exact ih

/-- Legal edits list no byte outside the buffer. -/
theorem Edited.memory_below {s t : State} (h : Edited s t) (hs : Memory.below s.mem s.layout.size = true) :
    Memory.below t.mem s.layout.size = true := by
  induction h with
  | same => exact hs
  | wrote a n v _ hb _ _ ih => exact Memory.below_rawWrite v ih hb
  | stopped _ _ ih => exact ih

/-- Legal edits leave the layout words (20_memory R37). -/
theorem Edited.layout_words {s t : State} (h : Edited s t) :
    t.bits wordCountOffset 32 = s.bits wordCountOffset 32 ∧
    t.bits s.layout.tapeBase 32 = s.bits s.layout.tapeBase 32 := by
  induction h with
  | same => exact ⟨rfl, rfl⟩
  | wrote a n v _ hb hw ht ih =>
    refine ⟨?_, ?_⟩
    · rw [State.bits_setBits_of_disjoint _ a v _ _ (by unfold wordCountOffset; omega)]; exact ih.1
    · rw [State.bits_setBits_of_disjoint _ a v _ _ (by omega)]; exact ih.2
  | stopped _ _ ih => exact ih

/-- A write outside the bootstrap's entries leaves them in place (44_bootstrap R82). -/
theorem State.bootstrapLoaded_setBits (s : State) (a : Nat) {n : Nat} (v : BitVec n) (h : a + n ≤ 64 ∨ 5024 ≤ a) :
    (s.setBits a v).bootstrapLoaded = s.bootstrapLoaded := by
  have hw : ∀ k j, k < bootLen → j < 5 →
      (s.setBits a v).entryWord (entryOffset k) j = s.entryWord (entryOffset k) j := fun k j hk hj =>
    State.bits_setBits_of_disjoint s a v _ _ (by unfold entryOffset; unfold bootLen at hk; omega)
  rw [Bool.eq_iff_iff]
  simp only [State.bootstrapLoaded, State.setBits_layout, Bool.and_eq_true, List.all_eq_true, List.mem_range]
  refine and_congr_right fun _ => forall_congr' fun k => forall_congr' fun hk => ?_
  rw [State.entryWords, State.entryWords, hw k 0 hk (by omega), hw k 1 hk (by omega), hw k 2 hk (by omega),
    hw k 3 hk (by omega), hw k 4 hk (by omega)]

end Sys2Proof.Machine
end

