-- ==== Sys2Proof/Laws/HostOps.lean ====
section
/-! SUPPORT. What each operation of the host can do, said once (45_host_interface, 70_reset_and_hazards). -/

namespace Sys2Proof.Machine

/-! Stepping and running (45_host_interface R92). -/

theorem State.hostStep_of_next {s t : State} (h : step s = .next t) : s.hostStep = (t, s.printable) := by
  simp [State.hostStep, h]

/-- What a printable step is: a running machine at a transition entry that does not halt, with the head on the tape
(40_step_loop R66). -/
theorem State.printable_spec {s : State} (h : s.printable = true) :
    s.ctl = .running ∧ ∃ e, s.fetch = .ok (.tmstate e) ∧ s.pc ≠ s.reg haltSentinelReg ∧ s.headValid = true := by
  unfold State.printable at h
  split at h
  · rename_i e hr hf
    refine ⟨hr, e, hf, ?_⟩
    rcases State.tmDispatch_cases s with ⟨-, hd⟩ | ⟨hp, hv, -⟩ | ⟨-, -, hd⟩
    · rw [hd] at h; cases h
    · exact ⟨hp, hv⟩
    · rw [hd] at h; cases h
  · cases h

theorem runLoop_of_running (n : Nat) {s : State} (i j : Nat) (h : s.ctl = .running) :
    runLoop (n + 1) s i j = runLoop n s.hostStep.1 (i + 1) (if s.hostStep.2 then j + 1 else j) := by
  rw [runLoop, h]

theorem runLoop_of_stopped (n : Nat) {s : State} (i j : Nat) (h : s.ctl ≠ .running) : runLoop n s i j = (s, i, j) := by
  cases n with
  | zero => rfl
  | succ n =>
    rw [runLoop]
    cases hc : s.ctl with
    | running => exact absurd hc h
    | halted => rfl
    | faulted f => rfl

/-- The counters only count: starting them elsewhere shifts them. -/
theorem runLoop_shift (n : Nat) (s : State) (i j : Nat) :
    runLoop n s i j = ((runLoop n s 0 0).1, i + (runLoop n s 0 0).2.1, j + (runLoop n s 0 0).2.2) := by
  induction n generalizing s i j with
  | zero => rfl
  | succ n ih =>
    by_cases h : s.ctl = .running
    · rw [runLoop_of_running n i j h, runLoop_of_running n 0 0 h, ih, ih s.hostStep.1 (0 + 1)]
      cases s.hostStep.2 <;> simp <;> omega
    · rw [runLoop_of_stopped _ i j h, runLoop_of_stopped _ 0 0 h]; rfl

/-! The head and the symbol under it (45_host_interface R88 to R90). -/

theorem State.writeSymbolAtHead_ok {s t : State} {v : Int} (h : s.writeSymbolAtHead v = .ok t) :
    s.headValid = true ∧ (v = 0 ∨ v = 1 ∨ v = 2) ∧
      t = s.setBits (s.layout.symBase + s.head.toNat) (BitVec.ofInt 2 v) := by
  unfold State.writeSymbolAtHead at h
  cases hv : s.headValid with
  | false => simp [hv] at h
  | true =>
    rw [hv] at h
    by_cases hs : v = 0 ∨ v = 1 ∨ v = 2
    · simp only [Bool.not_true, Bool.false_eq_true, if_false, hs, not_true_eq_false] at h
      exact ⟨rfl, hs, (Except.ok.inj h).symm⟩
    · simp only [Bool.not_true, Bool.false_eq_true, if_false, hs, not_false_eq_true, if_true] at h
      cases h

theorem State.setHeadPosition_ok {s t : State} {p : Int} (h : s.setHeadPosition p = .ok t) :
    0 ≤ p ∧ p < s.layout.tapeLen ∧ t = s.setHead (u32 (2 * p)) := by
  unfold State.setHeadPosition at h
  split at h
  · rename_i hp; exact ⟨hp.1, hp.2, (Except.ok.inj h).symm⟩
  · cases h

/-! Construction and load (70_reset_and_hazards R111, R112). -/

/-- Everything a construction that succeeds says. -/
theorem construct_ok {table : List TableRow} {len start headPos inputPos : Int} {input : List Char} {s : State}
    (h : construct table len start headPos input inputPos = .ok s) :
    ∃ symbols, inputSymbols input = some symbols ∧ constructValid table len start headPos = true ∧ 0 ≤ inputPos ∧
      inputPos + symbols.length ≤ len ∧ s.layout = constructLayout table.length len.toNat ∧ s.ctl = .running ∧
      s.mem = Memory.ofBytes
        (constructImage table len.toNat start.toNat headPos.toNat symbols inputPos.toNat) := by
  unfold construct at h
  split at h
  · cases h
  · rename_i symbols hs
    split at h
    · rename_i hv
      have := Except.ok.inj h
      subst this
      exact ⟨symbols, hs, hv.1, hv.2.1, hv.2.2, rfl, rfl, rfl⟩
    · cases h

/-- Everything a byte image with a layout says: its size is the layout's, and the layout is legal. -/
theorem imageLayout_ok {bytes : List Byte} {y : Layout} (h : imageLayout bytes = .ok y) :
    y.size = bytes.length ∧ y.wf = true ∧ imageWord bytes 0 = y.wordCount ∧
      imageWord bytes (4 * y.wordCount + 4 * maxRegs) = y.tapeWordCount := by
  unfold imageLayout at h
  simp only at h
  split_ifs at h with h1 h2 h3 h4 h5
  have hy := (Except.ok.inj h).symm
  have hw : y.wordCount = imageWord bytes 0 := by rw [hy, Layout.wordCount_eq]; simp only; omega
  have ht : y.tapeWordCount = imageWord bytes (4 * imageWord bytes 0 + 4 * maxRegs) := by
    rw [hy]; unfold Layout.tapeWordCount; simp only; omega
  have hn : y.size = bytes.length := by unfold Layout.size; rw [hw, ht]; omega
  refine ⟨hn, ?_, hw.symm, by rw [hw, ht]⟩
  rw [Layout.wf_iff]
  refine ⟨by rw [hy]; simp only; omega, ?_⟩
  unfold Layout.bits; rw [hn]; unfold maxBits at h2; omega

theorem loadFromBytes_ok {bytes : List Byte} {s : State} (h : loadFromBytes bytes = .ok s) :
    ∃ y, imageLayout bytes = .ok y ∧ s = { layout := y, mem := Memory.ofBytes bytes, ctl := .running } := by
  obtain ⟨y, hy, hs⟩ := except_bind_ok h
  exact ⟨y, hy, (Except.ok.inj hs).symm⟩

end Sys2Proof.Machine
end

