-- ==== Sys2Proof/Laws/Image.lean ====
section
/-! SUPPORT. Reading a byte image back: a word, an entry or a tape symbol at its place (70_reset_and_hazards R111,
20_memory R40), and the lengths of the regions construction writes. -/

namespace Sys2Proof.Machine

/-! A word and a symbol at their place. -/

theorem Memory.byte_ofBytes_append (pre rest : List Byte) (k : Nat) :
    Memory.byte (Memory.ofBytes (pre ++ rest)) (pre.length + k) = Memory.byte (Memory.ofBytes rest) k := by
  rw [Memory.byte_ofBytes, Memory.byte_ofBytes, List.getD_append_right _ _ _ _ (by omega)]
  congr 1; omega

/-- Reading past a prefix of a byte image reads the rest. -/
theorem Memory.rawRead_ofBytes_append (pre rest : List Byte) (a n : Nat) :
    Memory.rawRead (Memory.ofBytes (pre ++ rest)) (8 * pre.length + a) n = Memory.rawRead (Memory.ofBytes rest) a n := by
  apply BitVec.eq_of_getLsbD_eq
  intro k _
  rw [Memory.getLsbD_rawRead, Memory.getLsbD_rawRead]
  unfold Memory.bit
  rw [show (8 * pre.length + a + k) / 8 = pre.length + (a + k) / 8 by omega,
    show (8 * pre.length + a + k) % 8 = (a + k) % 8 by omega, Memory.byte_ofBytes_append]

/-- The first word of a byte image. -/
theorem Memory.rawRead_ofBytes_word (w : Word) (rest : List Byte) :
    Memory.rawRead (Memory.ofBytes (wordBytes w ++ rest)) 0 32 = w := by
  have h := Memory.wordBytes_rawRead (Memory.ofBytes (wordBytes w ++ rest)) 0 rfl
  have e : Memory.bytesOf (Memory.ofBytes (wordBytes w ++ rest)) (0 / 8) 4 = wordBytes w := by
    simp [Memory.bytesOf, Memory.byte_ofBytes, wordBytes]
  rw [e] at h
  generalize Memory.rawRead (Memory.ofBytes (wordBytes w ++ rest)) 0 32 = x at h
  have hx := takeWord_wordBytes x []
  rw [h, takeWord_wordBytes] at hx
  exact (Prod.mk.inj (Except.ok.inj hx)).1.symm

/-- A word of a byte image as its four bytes, least significant first (20_memory R31). -/
theorem imageWord_eq (bytes : List Byte) (i : Nat) :
    imageWord bytes i = (bytes.getD i 0).toNat + 256 * (bytes.getD (i + 1) 0).toNat +
      65536 * (bytes.getD (i + 2) 0).toNat + 16777216 * (bytes.getD (i + 3) 0).toNat := by
  have hlt := fun k => (bytes.getD k 0).isLt
  have h0 := hlt i
  have h1 := hlt (i + 1)
  have h2 := hlt (i + 2)
  have h3 := hlt (i + 3)
  unfold imageWord
  rw [Memory.rawRead, show 8 * i / 8 = i by omega, show 8 * i % 8 = 0 by omega,
    show spanBytes (8 * i) 32 = 4 by unfold spanBytes; omega]
  simp only [Memory.readBytes, Memory.byte_ofBytes, BitVec.toNat_ofNat, unlistedByte]
  rw [pow_zero, Nat.div_one, show i + 1 + 1 = i + 2 by rfl, show i + 2 + 1 = i + 3 by rfl, Nat.mod_eq_of_lt] <;> omega

/-- The word at the end of a prefix of a byte image. -/
theorem Memory.rawRead_word_at (pre : List Byte) (w : Word) (rest : List Byte) :
    Memory.rawRead (Memory.ofBytes (pre ++ (wordBytes w ++ rest))) (8 * pre.length) 32 = w := by
  have := Memory.rawRead_ofBytes_append pre (wordBytes w ++ rest) 0 32
  rw [Nat.add_zero] at this
  rw [this, Memory.rawRead_ofBytes_word]

/-- Word `k` of an instruction's encoding at the end of a prefix of a byte image (30_encoding R49). -/
theorem Memory.rawRead_entry_at (pre : List Byte) (i : Instr) (rest : List Byte) (k : Nat) (w : Word)
    (h : (encodeWords i)[k]? = some w) :
    Memory.rawRead (Memory.ofBytes (pre ++ (encode i ++ rest))) (8 * pre.length + 32 * k) 32 = w := by
  obtain ⟨hk, hw⟩ := List.getElem?_eq_some_iff.1 h
  have hsplit : encodeWords i = (encodeWords i).take k ++ w :: (encodeWords i).drop (k + 1) := by
    rw [← hw, List.getElem_cons_drop, List.take_append_drop]
  have hl : ∀ l : List Word, (l.flatMap wordBytes).length = 4 * l.length := by
    intro l
    induction l with
    | nil => rfl
    | cons a l ih => rw [List.flatMap_cons, List.length_append, ih, length_wordBytes, List.length_cons]; omega
  have hp : (pre ++ ((encodeWords i).take k).flatMap wordBytes).length = pre.length + 4 * k := by
    rw [List.length_append, hl, List.length_take, Nat.min_eq_left (Nat.le_of_lt hk)]
  have := Memory.rawRead_word_at (pre ++ ((encodeWords i).take k).flatMap wordBytes) w
    (((encodeWords i).drop (k + 1)).flatMap wordBytes ++ rest)
  rw [hp, show 8 * (pre.length + 4 * k) = 8 * pre.length + 32 * k by omega] at this
  rw [encode, hsplit, List.flatMap_append, List.flatMap_cons]
  simpa only [List.append_assoc] using this

/-- The symbols of one byte, the first in the low bits (10_state R24). -/
theorem symbols_of_byte (a b c d : BitVec 2) :
    (d ++ c ++ b ++ a : BitVec 8).extractLsb' 0 2 = a ∧ (d ++ c ++ b ++ a : BitVec 8).extractLsb' 2 2 = b ∧
    (d ++ c ++ b ++ a : BitVec 8).extractLsb' 4 2 = c ∧ (d ++ c ++ b ++ a : BitVec 8).extractLsb' 6 2 = d := by
  decide +revert

/-- Tape symbol `j` of symbols packed four to a byte (10_state R24). -/
theorem Memory.rawRead_packSymbols (l : List (BitVec 2)) (j : Nat) (h : l.length % 4 = 0) (hj : j < l.length) :
    Memory.rawRead (Memory.ofBytes (packSymbols l)) (2 * j) 2 = l.getD j 0 := by
  induction l using packSymbols.induct generalizing j with
  | case1 a b c d rest ih =>
    have hb : ∀ k, k < 4 → (d ++ c ++ b ++ a : BitVec 8).extractLsb' (2 * k) 2 = [a, b, c, d].getD k 0 := by
      intro k hk
      obtain ⟨h0, h1, h2, h3⟩ := symbols_of_byte a b c d
      rcases (show k = 0 ∨ k = 1 ∨ k = 2 ∨ k = 3 by omega) with rfl | rfl | rfl | rfl
      · exact h0
      · exact h1
      · exact h2
      · exact h3
    by_cases h4 : j < 4
    · have e : (a :: b :: c :: d :: rest).getD j 0 = [a, b, c, d].getD j 0 := by
        rcases (show j = 0 ∨ j = 1 ∨ j = 2 ∨ j = 3 by omega) with rfl | rfl | rfl | rfl <;> rfl
      rw [e, ← hb j h4]
      apply BitVec.eq_of_getLsbD_eq
      intro k hk
      rw [Memory.getLsbD_rawRead, BitVec.getLsbD_extractLsb', Memory.bit,
        show (2 * j + k) / 8 = 0 by omega, show (2 * j + k) % 8 = 2 * j + k by omega, Memory.byte_ofBytes]
      rfl
    · have := Memory.rawRead_ofBytes_append [(d ++ c ++ b ++ a : BitVec 8)] (packSymbols rest) (2 * (j - 4)) 2
      rw [show 8 * [(d ++ c ++ b ++ a : BitVec 8)].length + 2 * (j - 4) = 2 * j by simp only [List.length_singleton]; omega]
        at this
      simp only [List.length_cons] at h hj
      rw [show packSymbols (a :: b :: c :: d :: rest) = [(d ++ c ++ b ++ a : BitVec 8)] ++ packSymbols rest from rfl, this,
        ih (j - 4) (by omega) (by omega)]
      obtain ⟨k, rfl⟩ : ∃ k, j = k + 4 := ⟨j - 4, by omega⟩
      rfl
  | case2 l hl =>
    exfalso
    match l, hl with
    | [], _ => simp at hj
    | [_], _ => simp at h
    | [_, _], _ => simp at h
    | [_, _, _], _ => simp at h
    | a :: b :: c :: d :: rest, hl => exact hl a b c d rest rfl

/-! Lengths (20_memory R40, R41). -/

theorem length_packSymbols (l : List (BitVec 2)) (h : l.length % 4 = 0) : (packSymbols l).length = l.length / 4 := by
  induction l using packSymbols.induct with
  | case1 a b c d rest ih =>
    simp only [List.length_cons] at h
    simp only [packSymbols, List.length_cons]
    rw [ih (by omega)]; omega
  | case2 l hl =>
    match l, hl with
    | [], _ => rfl
    | [_], _ => simp at h
    | [_, _], _ => simp at h
    | [_, _, _], _ => simp at h
    | a :: b :: c :: d :: rest, hl => exact absurd rfl (hl a b c d rest)

theorem length_inputSymbols {input : List Char} {symbols : List (BitVec 2)} (h : inputSymbols input = some symbols) :
    symbols.length = input.length := by
  induction input generalizing symbols with
  | nil => cases h; rfl
  | cons c rest ih =>
    rw [inputSymbols] at h
    cases hc : charSymbol c with
    | none => rw [hc] at h; cases h
    | some x =>
      cases hr : inputSymbols rest with
      | none => rw [hc, hr] at h; cases h
      | some xs => rw [hc, hr] at h; cases h; simp [ih hr]

theorem length_tapeSymbols (len : Nat) (input : List (BitVec 2)) (inputPos : Nat) (h : inputPos + input.length ≤ len) :
    (tapeSymbols len input inputPos).length = len := by
  simp only [tapeSymbols, List.length_append, List.length_replicate]; omega

theorem length_flatMap_encode (l : List Instr) : (l.flatMap encode).length = 20 * l.length := by
  induction l with
  | nil => rfl
  | cons a l ih => rw [List.flatMap_cons, List.length_append, ih, length_encode, List.length_cons]; omega

theorem length_bootstrap : bootstrap.length = bootLen := by decide

theorem length_tableBytes (table : List TableRow) (len start : Nat) :
    (tableBytes table len start).length = 4 * (constructLayout table.length len).wordCount := by
  have h : (table.flatMap fun r => encode (.tmstate r.transition)).length = 20 * table.length := by
    have := length_flatMap_encode (table.map fun r => .tmstate r.transition)
    rwa [List.flatMap_map, List.length_map] at this
  simp only [tableBytes, List.length_append, length_wordBytes, length_flatMap_encode, length_bootstrap, length_encode, h]
  rw [Layout.wordCount_eq]; unfold constructLayout bootLen; simp only; omega

theorem length_registerBytes (n : Nat) : (registerBytes n).length = 4 * maxRegs := by
  rw [registerBytes, List.length_append, length_wordBytes, List.length_replicate]; rfl

theorem length_tapeBytes (n len headPos : Nat) (input : List (BitVec 2)) (inputPos : Nat) (h : len % 16 = 0)
    (hi : inputPos + input.length ≤ len) :
    (tapeBytes n len headPos input inputPos).length = 4 * (constructLayout n len).tapeWordCount := by
  have hl := length_tapeSymbols len input inputPos hi
  simp only [tapeBytes, List.length_append, length_wordBytes]
  rw [length_packSymbols _ (by omega), hl]
  unfold Layout.tapeWordCount constructLayout; simp only; omega

/-- The image has the size of the layout. -/
theorem length_constructImage (table : List TableRow) (len start headPos : Nat) (input : List (BitVec 2)) (inputPos : Nat)
    (h : len % 16 = 0) (hi : inputPos + input.length ≤ len) :
    (constructImage table len start headPos input inputPos).length = (constructLayout table.length len).size := by
  rw [constructImage, List.length_append, List.length_append, length_tableBytes, length_registerBytes,
    length_tapeBytes _ _ _ _ _ h hi]
  rfl

end Sys2Proof.Machine
end

