-- ==== Sys2Proof/Laws/PerInstr.lean ====
section
/-! SUPPORT. Facts about every instruction as syntax, one lemma per constructor. -/

namespace Sys2Proof.Laws

/-- Opcode: an instruction's encoding is five words whose first is the instruction's own opcode, below 11 (30_encoding
R49, R55). -/
def OpcodeWord.Statement (i : Instr) : Prop :=
  (encodeWords i).length = 5 ∧ ∃ w, (encodeWords i).head? = some w ∧ w.toNat ≤ 10

theorem OpcodeWord.clrregs (next : Word) : OpcodeWord.Statement (.clrregs next) :=
  ⟨rfl, Opcode.clrregs, rfl, by decide⟩

theorem OpcodeWord.loadc (v d next : Word) : OpcodeWord.Statement (.loadc v d next) :=
  ⟨rfl, Opcode.loadc, rfl, by decide⟩

theorem OpcodeWord.rdw (a d next : Word) : OpcodeWord.Statement (.rdw a d next) :=
  ⟨rfl, Opcode.rdw, rfl, by decide⟩

theorem OpcodeWord.wrw (a src next : Word) : OpcodeWord.Statement (.wrw a src next) :=
  ⟨rfl, Opcode.wrw, rfl, by decide⟩

theorem OpcodeWord.rds (a d next : Word) : OpcodeWord.Statement (.rds a d next) :=
  ⟨rfl, Opcode.rds, rfl, by decide⟩

theorem OpcodeWord.wrs (a src next : Word) : OpcodeWord.Statement (.wrs a src next) :=
  ⟨rfl, Opcode.wrs, rfl, by decide⟩

theorem OpcodeWord.mul (p q d next : Word) : OpcodeWord.Statement (.mul p q d next) :=
  ⟨rfl, Opcode.mul, rfl, by decide⟩

theorem OpcodeWord.add (p q d next : Word) : OpcodeWord.Statement (.add p q d next) :=
  ⟨rfl, Opcode.add, rfl, by decide⟩

theorem OpcodeWord.halt (next : Word) : OpcodeWord.Statement (.halt next) :=
  ⟨rfl, Opcode.halt, rfl, by decide⟩

theorem OpcodeWord.ret (a src next : Word) : OpcodeWord.Statement (.ret a src next) :=
  ⟨rfl, Opcode.ret, rfl, by decide⟩

theorem OpcodeWord.tmstate (t : Transition) : OpcodeWord.Statement (.tmstate t) :=
  ⟨rfl, Opcode.tmstate, rfl, by decide⟩

end Sys2Proof.Laws
end

