-- ==== Sys2Proof/Tests/Slice0.lean ====
section
/-! SUPPORT. Tests. Expected values come from spec/95_test_vectors.md (the vector is named at each test) and from the
encoding tables of spec/30_encoding.md and spec/44_bootstrap.md. The last part holds, for every statement with hypotheses,
a state and operands that meet them. -/

namespace Sys2Proof.Tests

open Sys2Proof.Machine

/-! The test machine VM0 of 95_test_vectors 2.0, as its bytes. -/

/-- VM0 with an entry of 160 bits at 64 and some registers set. -/
def vm0 (entry : BitVec 160) (regs : List (Nat × Word)) : State :=
  regs.foldl (fun s r => s.setReg r.1 r.2)
    (State.setBits
      { layout := ⟨4, 16⟩
        mem := [(0, 0x16), (4, 0x40), (152, 3), (160, 0xAA), (161, 0xAA), (162, 0xAA), (163, 0xAA)]
        ctl := .running } 64 entry)

/-- VM0 as the dispatch vectors have it: `pc = 224`, the transition entry at 224 (95_test_vectors 2.4). -/
def vmT (x0 head : Word) : State :=
  (((vm0 0 [(0, x0)]).setHead head).setPc 224).setBits 224 (0x00000180000000E00000004000001A240000000A : BitVec 160)

/-- The state after one step. -/
def after (s : State) : State := s.hostStep.1

/-- The step answers a next state of which `p` is true. -/
def stepIs (s : State) (p : State → Bool) : Bool :=
  match step s with
  | .next t => p t
  | .fault _ => false
  | .refused _ => false

/-- The instruction answers a next state of which `p` is true. -/
def execIs (i : Instr) (s : State) (p : State → Bool) : Bool :=
  match exec i s with
  | .next t => p t
  | .fault _ => false
  | .refused _ => false

/-- The machine of a host operation that succeeds has the property. -/
def okIs {ε : Type} (r : Except ε State) (p : State → Bool) : Bool :=
  match r with
  | .ok t => p t
  | .error _ => false

/-! WellFormed: one ill-formed term for each check. -/

theorem test_wf_loadc_d : Instr.wf (.loadc 5 16 0) = false := by decide
theorem test_wf_loadc_minus : Instr.wf (.loadc 5 (-1) 0) = false := by decide
theorem test_wf_rdw_a : Instr.wf (.rdw 16 1 0) = false := by decide
theorem test_wf_rdw_d : Instr.wf (.rdw 1 16 0) = false := by decide
theorem test_wf_wrw_a : Instr.wf (.wrw (-1) 1 0) = false := by decide
theorem test_wf_wrw_src : Instr.wf (.wrw 1 16 0) = false := by decide
theorem test_wf_rds_a : Instr.wf (.rds 16 1 0) = false := by decide
theorem test_wf_rds_d : Instr.wf (.rds 1 (-1) 0) = false := by decide
theorem test_wf_wrs_a : Instr.wf (.wrs 16 1 0) = false := by decide
theorem test_wf_wrs_src : Instr.wf (.wrs 1 16 0) = false := by decide
theorem test_wf_mul_p : Instr.wf (.mul 16 1 2 0) = false := by decide
theorem test_wf_mul_q : Instr.wf (.mul 1 16 2 0) = false := by decide
theorem test_wf_mul_d : Instr.wf (.mul 1 2 16 0) = false := by decide
theorem test_wf_add_p : Instr.wf (.add (-1) 1 2 0) = false := by decide
theorem test_wf_add_q : Instr.wf (.add 1 (-1) 2 0) = false := by decide
theorem test_wf_add_d : Instr.wf (.add 1 2 (-1) 0) = false := by decide
theorem test_wf_ret_a : Instr.wf (.ret 16 1 0) = false := by decide
theorem test_wf_ret_src : Instr.wf (.ret 1 16 0) = false := by decide
theorem test_wf_tmstate_sym0 : Instr.wf (.tmstate ⟨3, 0, 0, 0, 0, 0, 0, 0, 0⟩) = false := by decide
theorem test_wf_tmstate_sym1 : Instr.wf (.tmstate ⟨0, 3, 0, 0, 0, 0, 0, 0, 0⟩) = false := by decide
theorem test_wf_tmstate_sym2 : Instr.wf (.tmstate ⟨0, 0, 3, 0, 0, 0, 0, 0, 0⟩) = false := by decide
theorem test_wf_tmstate_dir0 : Instr.wf (.tmstate ⟨0, 0, 0, 3, 0, 0, 0, 0, 0⟩) = false := by decide
theorem test_wf_tmstate_dir1 : Instr.wf (.tmstate ⟨0, 0, 0, 0, 3, 0, 0, 0, 0⟩) = false := by decide
theorem test_wf_tmstate_dir2 : Instr.wf (.tmstate ⟨0, 0, 0, 0, 0, 3, 0, 0, 0⟩) = false := by decide
theorem test_wf_bootstrap : bootstrap.all Instr.wf = true := by decide

/-! Decoding: words written out from the encoding tables, `w4 w3 w2 w1 w0`, most significant word first. -/

theorem test_decode_clrregs : decodeTableWord 160 0x000000E000000000000000000000000000000000 = some (.clrregs 0xE0) := by
  decide
theorem test_decode_loadc :
    decodeTableWord 160 0x000000E0000000000000000FFFFFFFFF00000001 = some (.loadc (-1) 15 0xE0) := by decide
theorem test_decode_rdw :
    decodeTableWord 160 0x000000E000000000000000030000000100000002 = some (.rdw 1 3 0xE0) := by decide
theorem test_decode_wrw :
    decodeTableWord 160 0x000000E000000000000000020000000100000003 = some (.wrw 1 2 0xE0) := by decide
theorem test_decode_rds :
    decodeTableWord 160 0x000000E000000000000000030000000100000004 = some (.rds 1 3 0xE0) := by decide
theorem test_decode_wrs :
    decodeTableWord 160 0x000000E000000000000000020000000100000005 = some (.wrs 1 2 0xE0) := by decide
theorem test_decode_mul :
    decodeTableWord 160 0x000000E0000000030000000200000001_00000006 = some (.mul 1 2 3 0xE0) := by decide
theorem test_decode_add :
    decodeTableWord 160 0x000000E0000000100000000200000001_00000007 = some (.add 1 2 16 0xE0) := by decide
theorem test_decode_halt : decodeTableWord 160 0x000000E0000000000000000000000000_00000008 = some (.halt 0xE0) := by
  decide
theorem test_decode_ret :
    decodeTableWord 160 0x000000E0000000000000000300000002_00000009 = some (.ret 2 3 0xE0) := by decide
/-- `sym` byte 0x24 = 10 01 00, `dir` byte 0x1A = 01 10 10 (95_test_vectors 2.4). -/
theorem test_decode_tmstate :
    decodeTableWord 160 0x00000180000000E00000004000001A240000000A =
      some (.tmstate ⟨0, 1, 2, 2, 2, 1, 64, 224, 384⟩) := by decide
/-- The same with every reserved bit of `w1` set (30_encoding R57). -/
theorem test_decode_tmstate_reserved :
    decodeTableWord 160 0x00000180000000E000000040FFFFDAE40000000A =
      some (.tmstate ⟨0, 1, 2, 2, 2, 1, 64, 224, 384⟩) := by decide
theorem test_decode_illegal_11 : decodeWords 11 0 0 0 0xE0 = .error (.illegalOpcode 11) := rfl
theorem test_decode_illegal_max : decodeWords 0xFFFFFFFF 0 0 0 0xE0 = .error (.illegalOpcode 0xFFFFFFFF) := rfl
theorem test_decode_truncated : decode (natBytes 19 1) = .error .truncated := rfl

/-- The words of the listing of 44_bootstrap R82, entry by entry. -/
def listingWords : List (List Word) :=
  [ [1, 0, 3, 0, 0xE0], [1, 0x20, 2, 0, 0x180], [2, 3, 4, 0, 0x220], [1, 0x10, 5, 0, 0x2C0], [7, 4, 5, 6, 0x360],
    [6, 6, 2, 7, 0x400], [7, 7, 2, 8, 0x4A0], [2, 8, 9, 0, 0x540], [7, 8, 2, 0xA, 0x5E0], [7, 9, 0xA, 0xB, 0x680],
    [4, 0xB, 0xC, 0, 0x720] ] ++
  [ [7, 0xC, 0xC, 0xD, 0x7C0], [7, 1, 0xD, 0xE, 0x860], [7, 0xE, 2, 0xF, 0x900], [4, 0xF, 5, 0, 0x9A0],
    [1, 8, 3, 0, 0xA40], [7, 0xF, 3, 0xF, 0xAE0], [4, 0xF, 6, 0, 0xB80], [1, 0x10, 3, 0, 0xC20],
    [6, 0xD, 3, 0xD, 0xCC0], [7, 1, 0xD, 0xD, 0xD60] ] ++
  [ [1, 0x40, 3, 0, 0xE00], [7, 0xD, 3, 0xD, 0xEA0], [2, 0xD, 0xE, 0, 0xF40], [1, 0xFFFFFFFF, 3, 0, 0xFE0],
    [7, 6, 3, 6, 0x1080], [7, 6, 6, 6, 0x1120], [7, 9, 6, 9, 0x11C0], [5, 0xB, 5, 0, 0x1260], [3, 8, 9, 0, 0x1300],
    [9, 2, 0xE, 0, 0x13A0] ]

theorem test_bootstrap_words : bootstrap.map encodeWords = listingWords := by decide

/-! One step of each instruction. -/

/-- A1. -/
theorem test_clrregs :
    let t := after (vm0 0x000000E000000000000000000000000000000000 [(0, 5), (7, -1), (15, 3)])
    t.reg 0 = 0 ∧ t.reg 7 = 0 ∧ t.reg 15 = 0 ∧ t.pc = 224 := by decide +kernel
/-- A3. -/
theorem test_loadc :
    let t := after (vm0 0x000000E0000000000000000FFFFFFFFF00000001 [])
    t.reg 15 = 0xFFFFFFFF ∧ t.byte 148 = 0xFF ∧ t.byte 151 = 0xFF ∧ t.byte 147 = 0 ∧ t.byte 152 = 3 ∧ t.pc = 224 := by
  decide
/-- A6. -/
theorem test_loadc_register_index :
    (after (vm0 0x000000E000000000FFFFFFFF0000000500000001 [])).ctl = .faulted ⟨64, some 1, .registerIndex (-1)⟩ := by
  decide
/-- A8: the source is also the destination. -/
theorem test_add_same : (after (vm0 0x000000E000000001000000010000000100000007 [(1, 5)])).reg 1 = 10 := by decide
/-- A15: the index check comes before the overflow check. -/
theorem test_add_index_before_overflow :
    (after (vm0 0x000000E000000010000000020000000100000007 [(1, 0x7FFFFFFF), (2, 1)])).ctl =
      .faulted ⟨64, some 7, .registerIndex 16⟩ := by decide
/-- A18: the most negative product is in range. -/
theorem test_mul_edge :
    (after (vm0 0x000000E000000003000000020000000100000006 [(1, 0xFFFF0000), (2, 0x8000)])).reg 3 = 0x80000000 := by
  decide
/-- A20. -/
theorem test_mul_overflow :
    (after (vm0 0x000000E000000003000000020000000100000006 [(1, 0x10000), (2, 0x8000)])).ctl =
      .faulted ⟨64, some 6, .arithOverflow 2147483648⟩ := by decide
/-- M1: the pc at the start of the step. -/
theorem test_rdw_pc :
    let t := after (vm0 0x000000E000000000000000030000000100000002 [(1, 32)])
    t.reg 3 = 64 ∧ t.pc = 224 := by decide
/-- M9: alignment first. -/
theorem test_rdw_misaligned :
    (after (vm0 0x000000E000000000000000030000000100000002 [(1, -31)])).ctl =
      .faulted ⟨64, some 2, .misalignedWord (-31)⟩ := by decide
/-- M12: little-endian. -/
theorem test_wrw :
    let t := after (vm0 0x000000E000000000000000020000000100000003 [(1, 1280), (2, 0x12345678)])
    t.byte 160 = 0x78 ∧ t.byte 161 = 0x56 ∧ t.byte 162 = 0x34 ∧ t.byte 163 = 0x12 ∧ t.pc = 224 := by decide
/-- M19: the store changes the entry's own `next`, not the one this step uses. -/
theorem test_wrw_own_next :
    let t := after (vm0 0x000000E000000000000000020000000100000003 [(1, 192), (2, 544)])
    t.byte 24 = 0x20 ∧ t.byte 25 = 0x02 ∧ t.pc = 224 := by decide
/-- M22: the last symbol. -/
theorem test_rds_last : (after (vm0 0x000000E000000000000000030000000100000004 [(1, 1310)])).reg 3 = 2 := by decide
/-- M28. -/
theorem test_rds_pattern :
    (after ((vm0 0x000000E000000000000000030000000100000004 [(1, 1280)]).setBits 1280 (3 : BitVec 2))).ctl =
      .faulted ⟨64, some 4, .invalidSymbolPattern 1280⟩ := by decide
/-- M30: only two bits of the byte change. -/
theorem test_wrs : (after (vm0 0x000000E000000000000000020000000100000005 [(1, 1286), (2, 0)])).byte 160 = 0x2A := by
  decide
/-- M34: the layout check comes before the value check. -/
theorem test_wrs_layout :
    (after (vm0 0x000000E000000000000000020000000100000005 [(1, 0), (2, 3)])).ctl =
      .faulted ⟨64, some 5, .layoutWordWrite 0⟩ := by decide
/-- C1. -/
theorem test_halt :
    let t := after (vm0 0x000000E000000000000000000000000000000008 [])
    t.ctl = .halted ∧ t.pc = 64 := by decide
/-- C3. -/
theorem test_ret_jump :
    let t := after (vm0 0x000000E000000000000000030000000200000009 [(2, 32), (3, 544)])
    t.pc = 544 ∧ t.byte 4 = 0x20 ∧ t.byte 5 = 0x02 := by decide
/-- C4: pc is not advanced. -/
theorem test_ret_elsewhere :
    let t := after (vm0 0x000000E000000000000000030000000200000009 [(2, 1280), (3, 544)])
    t.pc = 64 ∧ t.byte 160 = 0x20 ∧ t.byte 161 = 0x02 ∧ t.byte 162 = 0 ∧ t.byte 163 = 0 := by decide
/-- T1. -/
theorem test_tmstate :
    let s := vmT 544 6
    (after s).reg 1 = 224 ∧ (after s).pc = 64 ∧ s.printable = true := by decide +kernel
/-- T7: the halt test comes before the head check. -/
theorem test_tmstate_halt :
    let s := vmT 224 32
    (after s).ctl = .halted ∧ (after s).pc = 224 ∧ (after s).reg 1 = 0 ∧ s.printable = false := by decide +kernel
/-- S7: the fetch of `w1` faults, not the opcode 0xAAAAAAAA. -/
theorem test_fetch_cut_off :
    (after ((vm0 0 []).setPc 1280)).ctl = .faulted ⟨1280, some 0xAAAAAAAA, .outOfBounds 1312⟩ := by decide
/-- The canonical form after a write of 0 over a listed byte. -/
theorem test_memory_canonical :
    Memory.wf (Memory.setByte [(1, 5), (3, 7)] 1 0) = true ∧ Memory.setByte [(1, 5), (3, 7)] 1 0 = [(3, 7)] := by decide
theorem test_memory_two_writes_meet :
    Memory.setByte (Memory.setByte [] 9 1) 4 2 = Memory.setByte (Memory.setByte [] 4 2) 9 1 := by decide
/-- An instruction stored where reset fetches is fetched there. -/
theorem test_withFetchWord_fetch :
    (State.reset.withFetchWord 160 0x000000E000000003000000020000000100000007).fetch.toOption =
      some (.add 1 2 3 0xE0) := by decide +kernel

/-! Hypotheses that some state and operands meet, statement by statement. -/

theorem witness_OnlyElevenOpcodesAreLegal : (10 : Word).toNat ≤ 10 ∧ 11 ≤ (11 : Word).toNat := by decide

theorem witness_ReservedFieldsHaveNoEffect : (0x1A24 : Word) &&& 0x3F3F = 0xFFFFDAE4 &&& 0x3F3F := by decide

theorem witness_StoredInstructionRunsNext :
    natBytes 20 0x000000E000000003000000020000000100000007 = encode (.add 1 2 3 0xE0) := by decide

theorem witness_OffsetsRoundTrip :
    (63 < 64 ∨ (63 - 64) % 160 ≠ 0) ∧ (65 < 64 ∨ (65 - 64) % 160 ≠ 0) ∧ (5023 < 5024 ∨ (5023 - 5024) % 160 ≠ 0) ∧
    (5100 < 5024 ∨ (5100 - 5024) % 160 ≠ 0) := by decide

theorem witness_BufferSizeInClosedForm : (⟨4, 16⟩ : Layout).tapeLen % 16 = 0 ∧ (⟨4, 16⟩ : Layout).size = 164 := by decide

theorem witness_SymbolInsideWord : 1286 % 2 = 0 := by decide

theorem witness_WordsAreLittleEndian : 32 % 32 = 0 := by decide

theorem witness_CheckedWriteOrder :
    okIs ((vm0 0 []).memWrite 1310 2 1) (fun _ => true) = true ∧ okIs ((vm0 0 []).memWrite 32 32 1) (fun _ => true) = true := by
  decide

theorem witness_LayoutWordsCannotBeWritten :
    (30 : Int) % 2 = 0 ∧ (0 : Int) ≤ 30 ∧ (30 : Int) < 32 ∧ ((vm0 0 []).layout.tapeBase : Int) + 30 < 1248 ∧
    okIs ((vm0 0 []).memWrite 1248 32 6) (fun _ => true) = true := by decide

theorem witness_RegisterPrimitives :
    ¬(0 ≤ (16 : Word).toInt ∧ (16 : Word).toInt < 16) ∧ ¬(0 ≤ (-1 : Word).toInt ∧ (-1 : Word).toInt < 16) ∧
    0 ≤ (0 : Word).toInt ∧ (15 : Word).toInt < 16 := by decide

theorem witness_RegistersAreMemory :
    ((vm0 0 [(15, 0x80000000)]).reg 15).extractLsb' (2 * 15) 2 = 2 := by decide

theorem witness_LoadcLoadsConstant : isRegister 0 = true ∧ isRegister 15 = true := by decide

theorem witness_AddWritesExactSum :
    let s := vm0 0 [(1, 0x7FFFFFFE), (2, 1), (3, 0x80000001), (4, -1)]
    isRegister 1 = true ∧ isRegister 2 = true ∧ isRegister 15 = true ∧
    (s.reg 1).toInt + (s.reg 2).toInt = 2 ^ 31 - 1 ∧ (s.reg 3).toInt + (s.reg 4).toInt = -2 ^ 31 := by decide +kernel

theorem witness_MulWritesExactProduct :
    let s := vm0 0 [(1, 46340), (2, 0xFFFF0000), (3, 0x8000)]
    isRegister 1 = true ∧ isRegister 2 = true ∧ isRegister 3 = true ∧
    (s.reg 1).toInt * (s.reg 1).toInt = 2147395600 ∧ (s.reg 2).toInt * (s.reg 3).toInt = -2 ^ 31 := by decide

theorem witness_RdwReadsWord :
    let s := vm0 0 [(1, 1280)]
    isRegister 1 = true ∧ isRegister 3 = true ∧ (s.reg 1).toInt = 1280 ∧ (s.reg 1).toInt % 32 = 0 ∧
    (s.reg 1).toInt + 32 = s.layout.bits := by decide

theorem witness_RdsReadsSymbol :
    let s := vm0 0 [(1, 1310)]
    isRegister 1 = true ∧ isRegister 3 = true ∧ (s.reg 1).toInt % 2 = 0 ∧ 0 ≤ (s.reg 1).toInt ∧
    (s.reg 1).toInt + 2 = s.layout.bits ∧ s.bits (s.reg 1).toInt.toNat 2 ≠ 3 := by decide

theorem witness_WrwWritesWord :
    let s := vm0 0 [(1, 1280), (2, 7)]
    isRegister 1 = true ∧ isRegister 2 = true ∧ (s.reg 1).toInt % 32 = 0 ∧ 0 < (s.reg 1).toInt ∧
    (s.reg 1).toInt + 32 ≤ s.layout.bits ∧ (s.reg 1).toInt ≠ s.layout.tapeBase := by decide

theorem witness_WrsWritesSymbol :
    let s := vm0 0 [(1, 1310), (2, 2)]
    isRegister 1 = true ∧ isRegister 2 = true ∧ (s.reg 1).toInt % 2 = 0 ∧ 64 ≤ (s.reg 1).toInt ∧
    (s.reg 1).toInt + 2 ≤ s.layout.bits ∧ (s.layout.tapeBase : Int) + 32 ≤ (s.reg 1).toInt ∧ (s.reg 2).toInt = 2 := by decide

theorem witness_RetStoresWithoutAdvancing :
    let s := vm0 0 [(2, 32), (4, 1280), (3, 544)]
    isRegister 2 = true ∧ isRegister 3 = true ∧ isRegister 4 = true ∧ (s.reg 2).toInt = 32 ∧ (s.reg 4).toInt % 32 = 0 ∧
    (s.reg 4).toInt + 32 ≤ s.layout.bits ∧ (s.reg 4).toInt ≠ s.layout.tapeBase := by decide

theorem witness_TmstateEntersBootstrap :
    let s := vmT 544 30
    s.pc ≠ s.reg 0 ∧ s.head.toNat % 2 = 0 ∧ s.head.toNat < 2 * s.layout.tapeLen := by decide +kernel

theorem witness_TmstateHaltsAtSentinel : (vmT 224 32).pc = (vmT 224 32).reg 0 := by decide +kernel

theorem witness_RegisterInstructionFaults :
    let s := vm0 0 [(1, 0x7FFFFFFF), (2, 1), (3, 0x80000000), (4, -1)]
    isRegister 16 = false ∧ isRegister (-1) = false ∧ isRegister 1 = true ∧
    (s.reg 1).toInt + (s.reg 2).toInt = 2 ^ 31 ∧ (s.reg 3).toInt + (s.reg 4).toInt = -2 ^ 31 - 1 ∧
    2 ^ 31 ≤ (s.reg 3).toInt * (s.reg 4).toInt := by decide +kernel

theorem witness_LoadFaults :
    let s := (vm0 0 [(1, 16), (2, 1312), (3, -32), (4, 1281), (5, 1280)]).setBits 1280 (3 : BitVec 2)
    isRegister 16 = false ∧ isRegister 0 = true ∧ (s.reg 1).toInt % 32 ≠ 0 ∧
    (s.reg 2).toInt % 32 = 0 ∧ (s.reg 2).toInt + 32 > s.layout.bits ∧ (s.reg 3).toInt % 32 = 0 ∧ (s.reg 3).toInt < 0 ∧
    (s.reg 4).toInt % 2 ≠ 0 ∧ (s.reg 2).toInt % 2 = 0 ∧ (s.reg 2).toInt + 2 > s.layout.bits ∧
    (s.reg 5).toInt % 2 = 0 ∧ 0 ≤ (s.reg 5).toInt ∧ (s.reg 5).toInt + 2 ≤ s.layout.bits ∧
    s.bits (s.reg 5).toInt.toNat 2 = 3 := by decide +kernel

theorem witness_StoreFaults :
    let s := vm0 0 [(1, 4), (2, 1312), (3, -32), (4, 0), (5, 1216), (6, 1283), (7, 1246), (8, 1280), (9, 3)]
    isRegister 16 = false ∧ isRegister 9 = true ∧ (s.reg 1).toInt % 32 ≠ 0 ∧
    (s.reg 2).toInt % 32 = 0 ∧ (s.reg 2).toInt + 32 > s.layout.bits ∧ (s.reg 3).toInt < 0 ∧
    (s.reg 4).toInt = 0 ∧ (s.reg 5).toInt = s.layout.tapeBase ∧ (s.reg 6).toInt % 2 ≠ 0 ∧
    (s.reg 7).toInt % 2 = 0 ∧ (s.reg 7).toInt < s.layout.tapeBase + 32 ∧
    (s.reg 8).toInt % 2 = 0 ∧ (s.layout.tapeBase : Int) + 32 ≤ (s.reg 8).toInt ∧ (s.reg 8).toInt + 2 ≤ s.layout.bits ∧
    ¬((s.reg 9).toInt = 0 ∨ (s.reg 9).toInt = 1 ∨ (s.reg 9).toInt = 2) := by decide +kernel

theorem witness_HeadOffTapeFaults :
    let s := vmT 544 32
    s.pc ≠ s.reg 0 ∧ 2 * s.layout.tapeLen ≤ s.head.toNat ∧ (vmT 544 7).pc ≠ (vmT 544 7).reg 0 ∧
    (vmT 544 7).head.toNat % 2 ≠ 0 := by decide +kernel

theorem witness_FetchFaults_pc :
    let s := vm0 0 []
    (s.setPc 65).ctl = .running ∧ (s.setPc 65).pc.toNat % 32 ≠ 0 ∧ (s.setPc 1312).pc.toNat % 32 = 0 ∧
    s.layout.bits < (s.setPc 1312).pc.toNat + 32 := by decide

/-- `pc` at 1280, 1248, 1216 and 1184: cut off at the first, second, third and fourth word after the opcode. -/
theorem witness_FetchFaults_cut_off :
    let s := vm0 0 []
    s.layout.bits = 1312 ∧ (s.bits 1280 32 ≠ 10 ∧ 1280 + 32 * 1 ≤ 1312 ∧ 1312 < 1280 + 32 * 1 + 32) ∧
    (s.bits 1248 32 ≠ 10 ∧ 1248 + 32 * 2 ≤ 1312 ∧ 1312 < 1248 + 32 * 2 + 32) ∧
    (s.bits 1216 32 ≠ 10 ∧ 1216 + 32 * 3 ≤ 1312 ∧ 1312 < 1216 + 32 * 3 + 32) ∧
    (s.bits 1184 32 ≠ 10 ∧ 1184 + 32 * 4 ≤ 1312 ∧ 1312 < 1184 + 32 * 4 + 32) := by decide

theorem witness_FetchFaults_opcode :
    let s := vm0 11 []
    s.pc.toNat % 32 = 0 ∧ s.pc.toNat + 160 ≤ s.layout.bits ∧ (s.bits s.pc.toNat 32).toNat = 11 := by decide

theorem witness_StepRunsDecodedInstruction :
    let s := vm0 0x000000E000000003000000020000000100000007 []
    s.ctl = .running ∧ s.pc.toNat % 32 = 0 ∧ s.pc.toNat + 160 ≤ s.layout.bits ∧
    (decode (Memory.bytesOf s.mem (s.pc.toNat / 8) 20)).toOption = some (.add 1 2 3 0xE0) := by decide

/-- The opcode word of a transition entry as the last word of the buffer. -/
theorem witness_TransitionNeedsOnlyItsOpcode :
    let s := ((vm0 0 []).setPc 1280).setBits 1280 (10 : Word)
    s.ctl = .running ∧ s.pc.toNat % 32 = 0 ∧ s.pc.toNat + 32 = s.layout.bits ∧ s.bits s.pc.toNat 32 = 10 := by decide

theorem witness_StoppedMachineStays :
    (vm0 0 []).halt.ctl ≠ .running ∧ ((vm0 0 []).takeFault none (.misalignedWord 65)).ctl ≠ .running := by decide

theorem witness_FaultsArePrecise :
    (vm0 11 []).ctl = .running ∧
    stepIs (vm0 11 []) (fun t => decide (t.ctl = .faulted ⟨64, some 11, .illegalOpcode 11⟩)) = true ∧
    stepIs ((vm0 0 []).setPc 65) (fun t => decide (t.ctl = .faulted ⟨65, none, .misalignedWord 65⟩)) = true := by decide

/-- Each instruction once with a running next state, HALT and a matched halt test with a halted one, and a fault. -/
theorem witness_FinalPcOfEveryStep :
    let s := vm0 0 [(1, 1280), (2, 32), (3, 2)]
    let running := fun t : State => decide (t.ctl = .running)
    s.ctl = .running ∧ execIs (.clrregs 224) s running = true ∧ execIs (.loadc 5 3 224) s running = true ∧
    execIs (.rdw 1 3 224) s running = true ∧ execIs (.wrw 1 3 224) s running = true ∧
    execIs (.rds 1 3 224) s running = true ∧ execIs (.wrs 1 3 224) s running = true ∧
    execIs (.mul 3 3 3 224) s running = true ∧ execIs (.add 3 3 3 224) s running = true ∧
    execIs (.ret 2 3 224) s running = true ∧ execIs (.ret 1 3 224) s running = true ∧
    execIs (.tmstate haltTransition) s running = true ∧
    execIs (.halt 224) s (fun t => decide (t.ctl = .halted)) = true ∧
    execIs (.tmstate haltTransition) (s.setPc 0) (fun t => decide (t.ctl = .halted)) = true ∧
    execIs (.loadc 5 16 224) s (fun t => t.faultRecord.isSome) = true := by decide +kernel

theorem witness_FinalPcOfEveryStep_stopped :
    (vm0 0 []).halt.ctl ≠ .running ∧ stepIs (vm0 0 []).halt (fun _ => true) = true := by decide

theorem witness_ControlStateWriters :
    stepIs (vm0 0 []).halt (fun _ => true) = true ∧
    stepIs (vm0 8 []) (fun t => decide (t.ctl = .halted)) = true ∧
    (vm0 8 []).pc.toNat + 160 ≤ (vm0 8 []).layout.bits ∧ (vm0 8 []).bits (vm0 8 []).pc.toNat 32 = 8 ∧
    stepIs (vmT 224 6) (fun t => decide (t.ctl = .halted)) = true ∧
    (vmT 224 6).bits (vmT 224 6).pc.toNat 32 = 10 ∧ (vmT 224 6).pc = (vmT 224 6).reg 0 := by decide

theorem witness_StepKeepsTheInvariant :
    let s := vm0 0x000000E000000000000000020000000100000003 [(1, 1280), (2, 0x12345678)]
    s.wf = true ∧ stepIs s (fun t => decide (t.ctl = .running)) = true := by decide

theorem witness_StoreToPcIsLost :
    let s := vm0 0 [(1, 32), (2, 1), (3, 62)]
    isRegister 1 = true ∧ isRegister 2 = true ∧ isRegister 3 = true ∧ (s.reg 1).toInt = 32 ∧ (s.reg 3).toInt % 2 = 0 ∧
    32 ≤ (s.reg 3).toInt ∧ (s.reg 3).toInt < 64 ∧ (s.reg 2).toInt = 1 := by decide

theorem witness_NoDispatchHaltsAfterClear :
    (vm0 8 []).wf = true ∧ (vm0 8 []).ctl = .running ∧ (vm0 8 []).reg 0 = 0 ∧
    stepIs (vm0 8 []) (fun t => decide (t.ctl = .halted)) = true := by decide

/-- The store just after the entry, and at the end of the tape. -/
theorem witness_RetElsewhereRepeats :
    let s := vm0 0x000000E000000000000000030000000200000009 [(2, 224), (3, 544)]
    s.ctl = .running ∧ s.pc.toNat % 32 = 0 ∧ s.pc.toNat + 160 ≤ s.layout.bits ∧
    (decode (Memory.bytesOf s.mem (s.pc.toNat / 8) 20)).toOption = some (.ret 2 3 0xE0) ∧
    isRegister 2 = true ∧ isRegister 3 = true ∧ (s.reg 2).toInt % 32 = 0 ∧ 32 < (s.reg 2).toInt ∧
    (s.reg 2).toInt + 32 ≤ s.layout.bits ∧ (s.reg 2).toInt ≠ s.layout.tapeBase ∧
    (s.pc.toNat : Int) + 160 ≤ (s.reg 2).toInt ∧ (s.reg 2).toInt ≠ s.layout.regOffset 2 ∧
    (s.reg 2).toInt ≠ s.layout.regOffset 3 := by decide

/-- A one-state table that writes 1 and moves right, on the shortest tape. -/
def oneState : List TableRow := [⟨1, 2, 0, 1, 2, 1, 1, 2, 0⟩]

/-- Its machine with 64 symbols, the head at 5, all blank. -/
def built : State :=
  match construct oneState 64 0 5 [] 0 with
  | .ok s => s
  | .error _ => State.reset

theorem built_bootstrapLoaded : built.bootstrapLoaded = true := by decide +kernel

/-- The premises of the two statements on the bootstrap but that it is loaded. -/
def dispatches (s : State) : Bool :=
  s.wf && decide (s.ctl = .running) && decide (64 ≤ s.pc.toNat) && decide (s.pc.toNat % 32 = 0) &&
  decide (s.bits s.pc.toNat 32 = 10) && decide (s.pc ≠ s.reg 0) && s.headValid

theorem witness_TransitionTakesThirtyTwoSteps :
    built.bootstrapLoaded = true ∧ dispatches built = true ∧ built.pc = 5024 ∧ 5024 + 160 ≤ built.layout.regBase ∧
    built.head = 10 ∧ built.sym 5 = 2 ∧ built.bits (5024 + 32 + 2 * 2) 2 = 1 ∧ built.bits (5024 + 40 + 2 * 2) 2 = 2 :=
  ⟨built_bootstrapLoaded, by decide +kernel⟩

/-- The pattern 3 under the head. -/
theorem witness_BootstrapFaultsExactlyOnPattern3_symbol :
    let s := built.setBits (built.layout.symOffset 5) (3 : BitVec 2)
    s.bootstrapLoaded = true ∧ dispatches s = true ∧ s.pc.toNat + 160 ≤ s.layout.regBase ∧ s.sym (s.head.toNat / 2) = 3 :=
  ⟨(State.bootstrapLoaded_setBits _ _ _ (.inr (by decide +kernel))).trans built_bootstrapLoaded, by decide +kernel⟩

/-- The pattern 3 in the write symbol of the symbol read, 2. -/
theorem witness_BootstrapFaultsExactlyOnPattern3_write :
    let s := built.setBits (5024 + 32 + 2 * 2) (3 : BitVec 2)
    s.bootstrapLoaded = true ∧ dispatches s = true ∧ s.pc = 5024 ∧ s.sym (s.head.toNat / 2) = 2 ∧
    s.bits (5024 + 32 + 2 * 2) 2 = 3 :=
  ⟨(State.bootstrapLoaded_setBits _ _ _ (.inr (by decide))).trans built_bootstrapLoaded, by decide +kernel⟩

/-- The pattern 3 in the direction of the symbol read, 2. -/
theorem witness_BootstrapFaultsExactlyOnPattern3_direction :
    let s := built.setBits (5024 + 40 + 2 * 2) (3 : BitVec 2)
    s.bootstrapLoaded = true ∧ dispatches s = true ∧ s.pc = 5024 ∧ s.sym (s.head.toNat / 2) = 2 ∧
    s.bits (5024 + 32 + 2 * 2) 2 = 1 ∧ s.bits (5024 + 40 + 2 * 2) 2 = 3 :=
  ⟨(State.bootstrapLoaded_setBits _ _ _ (.inr (by decide))).trans built_bootstrapLoaded, by decide +kernel⟩

/-- A transition entry in the working-tape region, its opcode word the head field 10; no pattern 3. It ends with the
buffer. -/
theorem witness_BootstrapFaultsExactlyOnPattern3_tape :
    let s := built.setPc (BitVec.ofNat 32 built.layout.headOffset)
    s.bootstrapLoaded = true ∧ dispatches s = true ∧ s.layout.tapeBase ≤ s.pc.toNat ∧
    s.pc.toNat + 160 = s.layout.bits ∧ s.sym (s.head.toNat / 2) = 2 ∧ s.bits (s.pc.toNat + 32 + 2 * 2) 2 = 2 ∧
    s.bits (s.pc.toNat + 40 + 2 * 2) 2 = 2 :=
  ⟨(State.bootstrapLoaded_setBits _ _ _ (.inl (by decide))).trans built_bootstrapLoaded, by decide +kernel⟩

theorem witness_SymbolAtHead :
    (vmT 544 7).head.toNat % 2 ≠ 0 ∧ 2 * (vmT 544 32).layout.tapeLen ≤ (vmT 544 32).head.toNat ∧
    ¬((vmT 544 30).head.toNat % 2 ≠ 0 ∨ 2 * (vmT 544 30).layout.tapeLen ≤ (vmT 544 30).head.toNat) ∧
    (vmT 544 30).sym 15 ≠ 3 ∧ ((vmT 544 0).setBits 1280 (3 : BitVec 2)).sym 0 = 3 := by decide +kernel

theorem witness_HeadPositionIsInSymbols :
    let s := vm0 0 []
    s.layout.wf = true ∧ ¬((0 : Int) ≤ 16 ∧ (16 : Int) < s.layout.tapeLen) ∧ ¬((0 : Int) ≤ -1 ∧ (-1 : Int) < s.layout.tapeLen) ∧
    (0 : Int) ≤ 15 ∧ (15 : Int) < s.layout.tapeLen := by decide

theorem witness_ActiveInstructionOffset :
    (vm0 0 []).ctl = .running ∧ (u32 65).toNat % 32 ≠ 0 ∧ (u32 1312).toNat % 32 = 0 ∧
    (vm0 0 []).layout.bits < (u32 1312).toNat + 32 := by decide

theorem witness_RunCountsAndOutcome :
    ((vm0 8 []).run 0 true).machine.ctl = .running ∧ ((vm0 8 []).run 1 true).machine.ctl = .halted ∧
    ((vm0 11 []).run 5 true).machine.ctl = .faulted ⟨64, some 11, .illegalOpcode 11⟩ ∧ (vm0 8 []).halt.ctl ≠ .running := by
  decide

theorem witness_SavedMachineLoadsBack : (vm0 11 [(3, 5)]).wf = true := by decide

theorem witness_LoadedMachineHoldsTheImage :
    okIs (loadFromBytes (vm0 11 [(3, 5)]).toBytes) (fun s => decide (s.reg 3 = 5)) = true := by decide +kernel

/-- One refused image for each check: length below 8, length no multiple of 4, `W` below 2, `W - 2` no multiple of 5, no
room for registers and tape header, tape word count below 2, sizes that do not add up (95_test_vectors 1.2 for the first
and the last two kinds). -/
theorem witness_LoadedMachineHoldsTheImage_refused :
    let refused := fun bytes : List Byte => decide ((loadFromBytes bytes).toOption = none)
    let image := (vm0 11 [(3, 5)]).toBytes
    refused (image.take 7) = true ∧ refused (image.take 163) = true ∧ refused (image.set 0 1) = true ∧
    refused (image.set 0 0x17) = true ∧ refused (image.take 156) = true ∧ refused (image.set 152 1) = true ∧
    refused (image.set 152 4) = true := by decide +kernel

theorem witness_ConstructAcceptsExactlyValidArguments :
    okIs (construct [] 16 0 0 [] 0) (fun _ => true) = false ∧ okIs (construct oneState 16 1 0 [] 0) (fun _ => true) = false :=
  by decide

theorem witness_ConstructedValues :
    okIs (construct oneState 16 0 15 ['1', ' '] 14) (fun s =>
      decide (s.pc = 5024) && decide (s.reg 0 = 5184) && decide (s.head = 30) && decide (s.sym 14 = 1) &&
      decide (s.sym 15 = 2)) = true := by decide +kernel

/-- R111's packing by hand: symbols 0, 1, 2 give 0 + 4 + 32 = 0x24, directions 1, 2, 0 give 1 + 8 + 0 = 0x09; the next
states 0, 1, 0 of a one-state table are 5024, 5184, 5024. The halt entry follows. -/
theorem test_construct_entries :
    okIs (construct [⟨0, 1, 0, 1, 2, 1, 2, 0, 0⟩] 16 0 0 [] 0) (fun s =>
      decide (s.entryWords 5024 = [10, 0x0924, 5024, 5184, 5024]) && decide (s.entryWords 5184 = [10, 0, 0, 0, 0])) = true :=
  by decide +kernel

theorem witness_ConstructedMachineIsReady :
    okIs (construct oneState 16 0 15 ['0', '_'] 14) (fun s => decide (s.pc = 5024)) = true := by decide +kernel

theorem witness_HostOperationsKeepCtl :
    okIs ((vmT 544 30).writeSymbolAtHead 1) (fun t => decide (t.sym 15 = 1)) = true ∧
    okIs ((vmT 544 30).setHeadPosition 15) (fun t => decide (t.head = 30)) = true := by decide +kernel

end Sys2Proof.Tests
end

section
/-! The register primitives with their index check (10_state R18). -/

namespace Sys2Proof.Machine

/-- An operand whose signed value is outside `[0, 16)` names no register. -/
theorem isRegister_eq_false_of_not {w : Word} (h : ¬(0 ≤ w.toInt ∧ w.toInt < 16)) : isRegister w = false :=
  Bool.eq_false_iff.2 fun hw => h ((isRegister_iff w).1 hw)

/-- A register written through a valid operand's index reads back through that operand. -/
theorem State.readReg_setReg_same (s : State) {w : Word} (h : isRegister w = true) (v : Word) :
    (s.setReg (s32 w).toNat v).readReg w = .ok v := by
  rw [State.readReg_of_isRegister _ h, State.reg_setReg_same]

/-- A register write changes no bit outside the register's word. -/
theorem State.bit_setReg_of_outside (s : State) (i : Nat) (v : Word) {b : Nat}
    (h : b < s.layout.regOffset i ∨ s.layout.regOffset i + 32 ≤ b) : (s.setReg i v).bit b = s.bit b := by
  have hb : ¬(s.layout.regOffset i ≤ b ∧ b < s.layout.regOffset i + 32) := by omega
  exact (State.bit_setBits s _ v b).trans (if_neg hb)

/-- Settles O14: an invalid operand fails the index check of `regIndex`, which `readReg` passes on; for a valid one, the
register is a word of the buffer, and registers are disjoint words. -/
theorem registerPrimitives : Obligations.RegisterPrimitives := by
  intro s w v
  constructor
  case left =>
    intro hw
    have hreg := isRegister_eq_false_of_not hw
    exact ⟨regIndex_of_not hreg, s.readReg_of_not hreg⟩
  case right =>
    intro h0 h16
    have hreg : isRegister w = true := (isRegister_iff w).2 ⟨h0, h16⟩
    exact ⟨regIndex_of_isRegister hreg, s.readReg_of_isRegister hreg, s.readReg_setReg_same hreg v,
      fun j hj => s.reg_setReg_of_ne _ j v hj, fun _ hb => s.bit_setReg_of_outside _ v hb⟩

end Sys2Proof.Machine
end

section
/-! The unchecked primitives and the layout of words and symbols (20_memory R30 to R32, R41). -/

namespace Sys2Proof.Machine

/-- A number's lowest `n` bits, each at its weight. -/
theorem sum_testBit_eq_mod (x n : Nat) :
    ((List.range n).map fun k => (x.testBit k).toNat * 2 ^ k).sum = x % 2 ^ n := by
  induction n with
  | zero => simp [Nat.mod_one]
  | succ n ih =>
    rw [List.range_succ, List.map_append, List.sum_append, ih, Nat.mod_pow_succ]
    simp [Nat.toNat_testBit, Nat.mul_comm]

/-- A bit of the buffer is its byte's binary digit at the place (20_memory R30). -/
theorem Memory.toNat_bit (m : Memory) (b : Nat) :
    (Memory.bit m b).toNat = (Memory.byte m (b / 8)).toNat / 2 ^ (b % 8) % 2 :=
  Nat.toNat_testBit _ _

/-- `RawRead`: the value is the sum of its bits, bit `a` at weight 1 (20_memory R30). -/
theorem Memory.toNat_rawRead (m : Memory) (a n : Nat) :
    (Memory.rawRead m a n).toNat = ((List.range n).map fun k => (Memory.bit m (a + k)).toNat * 2 ^ k).sum := by
  rw [← Nat.mod_eq_of_lt (Memory.rawRead m a n).isLt, ← sum_testBit_eq_mod]
  refine congrArg List.sum (List.map_congr_left fun k hk => ?_)
  have hbit : (Memory.rawRead m a n).toNat.testBit k = (decide (k < n) && Memory.bit m (a + k)) :=
    Memory.getLsbD_rawRead m a n k
  simp [hbit, List.mem_range.1 hk]

/-- Settles O8: the read is the sum of its bits, and the write's bits are the law `Memory.bit_rawWrite`. -/
theorem rawAccessIsBitwise : Obligations.RawAccessIsBitwise := fun m a n =>
  ⟨Memory.toNat_bit m, Memory.toNat_rawRead m a n, fun v b => Memory.bit_rawWrite m a v b⟩

/-- Settles O9: an even offset is at most 30 within its word, so its two bits lie inside the word. -/
theorem symbolInsideWord : Obligations.SymbolInsideWord := by
  intro s a ha
  have hfits : a % 32 + 2 ≤ 32 := by omega
  have hplace : a - a % 32 + a % 32 = a := Nat.sub_add_cancel (Nat.mod_le a 32)
  have hinside := Memory.rawRead_inside s.mem (a - a % 32) 32 (a % 32) 2 hfits
  rwa [hplace] at hinside

/-- Byte `k` of a word of the buffer is the word's digit `k` to the base 256 (20_memory R31). -/
theorem State.toNat_byte_of_word (s : State) (a k : Nat) (h : a % 8 = 0) (hk : k < 4) :
    (s.byte (a / 8 + k)).toNat = (s.bits a 32).toNat / 2 ^ (8 * k) % 256 := by
  have hbyte : (s.bits a 32).extractLsb' (8 * k) 8 = s.byte (a / 8 + k) := Memory.byte_eq_rawRead s.mem a k h hk
  rw [← hbyte, BitVec.extractLsb'_toNat, Nat.shiftRight_eq_div_pow]

/-- Settles O10: the four bytes are the word's four digits to the base 256. -/
theorem wordsAreLittleEndian : Obligations.WordsAreLittleEndian := by
  intro s a ha
  have h8 : a % 8 = 0 := by omega
  have hlt := (s.bits a 32).isLt
  have h0 := s.toNat_byte_of_word a 0 h8 (by omega)
  have h1 := s.toNat_byte_of_word a 1 h8 (by omega)
  have h2 := s.toNat_byte_of_word a 2 h8 (by omega)
  have h3 := s.toNat_byte_of_word a 3 h8 (by omega)
  simp only [Nat.add_zero, Nat.reduceMul, Nat.reducePow] at hlt h0 h1 h2 h3
  omega

/-- The buffer size where the tape length fills its words (20_memory R41). -/
theorem Layout.size_of_tapeLen (y : Layout) (h : y.tapeLen % 16 = 0) :
    y.size = 80 + 20 * y.entries + y.tapeLen / 4 := by
  rw [Layout.size_eq]; omega

/-- A constructed machine has the bootstrap's 31 entries, one per state, and the halt entry. -/
theorem constructLayout_entries (n len : Nat) : (constructLayout n len).entries = 32 + n := by
  change 31 + n + 1 = 32 + n
  omega

/-- Settles O7: the size for every layout, taken at a constructed one for the second part. -/
theorem bufferSizeInClosedForm : Obligations.BufferSizeInClosedForm := by
  refine ⟨Layout.size_of_tapeLen, fun n len hlen => ⟨constructLayout_entries n len, ?_⟩⟩
  calc (constructLayout n len).size
      = 80 + 20 * (constructLayout n len).entries + len / 4 := Layout.size_of_tapeLen _ hlen
    _ = 720 + 20 * n + len / 4 := by rw [constructLayout_entries]; omega

end Sys2Proof.Machine
end

section
/-! Checked access: the order of its checks (20_memory R33 to R36). -/

namespace Sys2Proof.Machine

/-! Each check of R33 to R36 that refuses, and what it raises. -/

section Refusals
variable (s : State) {a v : Int} {n : Nat} {e : Violation}

theorem State.checkAccess_misalignedWord (h : a % 32 ≠ 0) : s.checkAccess a 32 = .error (.misalignedWord a) :=
  if_pos ⟨rfl, h⟩

theorem State.checkAccess_misalignedSymbol (h : a % 2 ≠ 0 ∨ a % 8 > 6) :
    s.checkAccess a 2 = .error (.misalignedSymbol a) := by
  unfold State.checkAccess
  rw [if_neg (by omega), if_pos ⟨rfl, h⟩]

theorem State.checkAccess_outOfBounds (hw : n = 32 → a % 32 = 0) (hs : n = 2 → ¬(a % 2 ≠ 0 ∨ a % 8 > 6))
    (h : a < 0 ∨ a + n > s.layout.bits) : s.checkAccess a n = .error (.outOfBounds a) := by
  unfold State.checkAccess
  rw [if_neg fun hc => hc.2 (hw hc.1), if_neg fun hc => hs hc.1 hc.2, if_pos h]

/-- A read that fails a check of the access raises what the check raised. -/
theorem State.memRead_of_checkAccess_error (h : s.checkAccess a n = .error e) : s.memRead a n = .error e := by
  simp [State.memRead, h]

/-- A write that fails a check of the access raises what the check raised. -/
theorem State.memWrite_of_checkAccess_error (h : s.checkAccess a n = .error e) : s.memWrite a n v = .error e := by
  simp [State.memWrite, h]

/-- The value check of a symbol read comes after the checks of the access. -/
theorem State.memRead_invalidPattern (hc : s.checkAccess a 2 = .ok ()) (h : s.bits a.toNat 2 = 3) :
    s.memRead a 2 = .error (.invalidSymbolPattern a) := by
  simp [State.memRead, hc, h]

/-- The layout-word check of a write comes after the checks of the access, whatever the value. -/
theorem State.memWrite_layoutWord (hc : s.checkAccess a n = .ok ()) (h : s.touchesLayout a n = true) :
    s.memWrite a n v = .error (.layoutWordWrite a) := by
  simp [State.memWrite, hc, h]

/-- The value check of a symbol write comes last. -/
theorem State.memWrite_invalidValue (hc : s.checkAccess a 2 = .ok ()) (ht : s.touchesLayout a 2 = false)
    (h : ¬(v = 0 ∨ v = 1 ∨ v = 2)) : s.memWrite a 2 v = .error (.invalidSymbolValue v) := by
  simp [State.memWrite, hc, ht, h]

end Refusals

/-- A place meets a layout word where it overlaps the word at 0 or the word at `TB` (20_memory R37). -/
theorem State.touchesLayout_iff (s : State) (a : Int) (n : Nat) :
    s.touchesLayout a n = true ↔
      (a < 32 ∧ 0 < a + n) ∨ (a < s.layout.tapeBase + 32 ∧ s.layout.tapeBase < a + n) := by
  rw [← Bool.not_eq_false, State.touchesLayout_eq_false]
  omega

/-- A checked word read, check by check (20_memory R35). -/
theorem State.memRead_word_eq (s : State) (a : Int) :
    s.memRead a 32 =
      (if a % 32 ≠ 0 then .error (.misalignedWord a)
       else if a < 0 ∨ a + 32 > s.layout.bits then .error (.outOfBounds a)
       else .ok (s.bits a.toNat 32)) := by
  split_ifs with halign hbounds
  · exact s.memRead_of_checkAccess_error (s.checkAccess_misalignedWord halign)
  · exact s.memRead_of_checkAccess_error (s.checkAccess_outOfBounds (by omega) (by omega) hbounds)
  · exact s.memRead_word (by omega) (by omega) (by omega)

/-- A checked symbol read, check by check (20_memory R35). -/
theorem State.memRead_sym_eq (s : State) (a : Int) :
    s.memRead a 2 =
      (if a % 2 ≠ 0 ∨ a % 8 > 6 then .error (.misalignedSymbol a)
       else if a < 0 ∨ a + 2 > s.layout.bits then .error (.outOfBounds a)
       else if s.bits a.toNat 2 = 3 then .error (.invalidSymbolPattern a)
       else .ok (s.bits a.toNat 2)) := by
  split_ifs with halign hbounds hpattern
  · exact s.memRead_of_checkAccess_error (s.checkAccess_misalignedSymbol halign)
  · exact s.memRead_of_checkAccess_error (s.checkAccess_outOfBounds (by omega) (fun _ => halign) hbounds)
  · exact s.memRead_invalidPattern (s.checkAccess_sym (by omega) (by omega) (by omega)) hpattern
  · exact s.memRead_sym (by omega) (by omega) (by omega) hpattern

/-- Settles O11: one case for each check, in the rule's order. -/
theorem checkedReadOrder : Obligations.CheckedReadOrder := fun s a => ⟨s.memRead_word_eq a, s.memRead_sym_eq a⟩

/-- A checked word write, check by check (20_memory R36). -/
theorem State.memWrite_word_eq (s : State) (a v : Int) :
    s.memWrite a 32 v =
      (if a % 32 ≠ 0 then .error (.misalignedWord a)
       else if a < 0 ∨ a + 32 > s.layout.bits then .error (.outOfBounds a)
       else if (a < 32 ∧ 0 < a + 32) ∨ (a < s.layout.tapeBase + 32 ∧ s.layout.tapeBase < a + 32) then
         .error (.layoutWordWrite a)
       else .ok (s.setBits a.toNat (u32 v))) := by
  split_ifs with halign hbounds hlayout
  · exact s.memWrite_of_checkAccess_error (s.checkAccess_misalignedWord halign)
  · exact s.memWrite_of_checkAccess_error (s.checkAccess_outOfBounds (by omega) (by omega) hbounds)
  · exact s.memWrite_layoutWord (s.checkAccess_word (by omega) (by omega) (by omega))
      ((s.touchesLayout_iff a 32).2 hlayout)
  · exact s.memWrite_word (by omega) (by omega) (by omega) ((s.touchesLayout_eq_false a 32).2 (by omega))

/-- A checked symbol write, check by check (20_memory R36). -/
theorem State.memWrite_sym_eq (s : State) (a v : Int) :
    s.memWrite a 2 v =
      (if a % 2 ≠ 0 ∨ a % 8 > 6 then .error (.misalignedSymbol a)
       else if a < 0 ∨ a + 2 > s.layout.bits then .error (.outOfBounds a)
       else if (a < 32 ∧ 0 < a + 2) ∨ (a < s.layout.tapeBase + 32 ∧ s.layout.tapeBase < a + 2) then
         .error (.layoutWordWrite a)
       else if v ≠ 0 ∧ v ≠ 1 ∧ v ≠ 2 then .error (.invalidSymbolValue v)
       else .ok (s.setBits a.toNat (BitVec.ofInt 2 v))) := by
  split_ifs with halign hbounds hlayout hvalue
  · exact s.memWrite_of_checkAccess_error (s.checkAccess_misalignedSymbol halign)
  · exact s.memWrite_of_checkAccess_error (s.checkAccess_outOfBounds (by omega) (fun _ => halign) hbounds)
  · exact s.memWrite_layoutWord (s.checkAccess_sym (by omega) (by omega) (by omega))
      ((s.touchesLayout_iff a 2).2 hlayout)
  · exact s.memWrite_invalidValue (s.checkAccess_sym (by omega) (by omega) (by omega))
      ((s.touchesLayout_eq_false a 2).2 (by omega)) (by omega)
  · exact s.memWrite_sym (by omega) (by omega) (by omega) ((s.touchesLayout_eq_false a 2).2 (by omega)) (by omega)

/-- A checked write that raises nothing stores the value, and changes no bit apart from it (20_memory R36). -/
theorem State.memWrite_frame {s t : State} {a v : Int} {n : Nat} (h : s.memWrite a n v = .ok t) :
    t.bits a.toNat n = BitVec.ofInt n v ∧ t.layout = s.layout ∧ t.ctl = s.ctl ∧
      ∀ b : Nat, (b < a ∨ a + n ≤ b) → t.bit b = s.bit b := by
  obtain ⟨_, _, h0, _, _, rfl⟩ := State.memWrite_ok h
  refine ⟨s.bits_setBits_same _ _, rfl, rfl, fun b hb => ?_⟩
  have houtside : ¬(a.toNat ≤ b ∧ b < a.toNat + n) := by omega
  rw [State.bit_setBits, if_neg houtside]

/-- Settles O12: one case for each check, in the rule's order, and then the frame of the write that passed them all. -/
theorem checkedWriteOrder : Obligations.CheckedWriteOrder := fun s a v =>
  ⟨s.memWrite_word_eq a v, s.memWrite_sym_eq a v, fun _ _ h => State.memWrite_frame h⟩

end Sys2Proof.Machine
end

section
/-! Offsets of entries and of states, and their inverses (30_encoding R50, R51). -/

namespace Sys2Proof.Machine

/-- Entries lie at word boundaries. -/
theorem entryOffset_mod_word (k : Nat) : entryOffset k % 32 = 0 := by
  unfold entryOffset; omega

/-- The states' entries follow the bootstrap's (30_encoding R51). -/
theorem stateOffset_eq (i : Nat) : stateOffset i = 5024 + 160 * i := by
  unfold stateOffset entryOffset bootLen; omega

/-- `EntryIndex` is the inverse of `EntryOffset` (30_encoding R50). -/
theorem entryIndex_eq_some_iff (o k : Nat) : entryIndex o = some k ↔ o = entryOffset k := by
  unfold entryIndex entryOffset
  split_ifs with hdef
  · rw [Option.some.injEq]; omega
  · rw [false_iff]; omega

/-- `StateIndex` is the inverse of `StateOffset` (30_encoding R51). -/
theorem stateIndex_eq_some_iff (o i : Nat) : stateIndex o = some i ↔ o = stateOffset i := by
  rw [stateOffset_eq]
  unfold stateIndex
  split_ifs with hdef
  · rw [Option.some.injEq]; omega
  · rw [false_iff]; omega

/-- Below the first entry and between entries there is no entry index. -/
theorem entryIndex_eq_none {o : Nat} (h : o < 64 ∨ (o - 64) % 160 ≠ 0) : entryIndex o = none :=
  if_neg (by omega)

/-- Below the first state's entry and between entries there is no state index. -/
theorem stateIndex_eq_none {o : Nat} (h : o < 5024 ∨ (o - 5024) % 160 ≠ 0) : stateIndex o = none :=
  if_neg (by omega)

/-- Settles O6: each inverse is taken at the offset itself, and its guard fails everywhere else. -/
theorem offsetsRoundTrip : Obligations.OffsetsRoundTrip :=
  ⟨fun k => ⟨rfl, entryOffset_mod_word k, (entryIndex_eq_some_iff _ k).2 rfl⟩,
    fun _ => entryIndex_eq_none,
    fun i => ⟨rfl, stateOffset_eq i, (stateIndex_eq_some_iff _ i).2 rfl⟩,
    fun _ => stateIndex_eq_none⟩

end Sys2Proof.Machine
end

section
/-! The step loop: stopped machines, and when a step is printable (40_step_loop R61, R63, R66). -/

namespace Sys2Proof.Machine

/-- A machine that is not running stays as it is (40_step_loop R61). -/
theorem step_of_stopped {s : State} (h : s.ctl ≠ .running) : step s = .next s := by
  cases hc : s.ctl with
  | running => exact absurd hc h
  | halted => exact step_of_halted hc
  | faulted f => exact step_of_faulted hc

/-- A machine that is not running prints nothing (40_step_loop R61). -/
theorem State.printable_of_stopped {s : State} (h : s.ctl ≠ .running) : s.printable = false :=
  Bool.eq_false_iff.2 fun hp => h (State.printable_spec hp).1

/-- Settles O35: neither stopped control state steps, and a printable step is a running machine's. -/
theorem stoppedMachineStays : Obligations.StoppedMachineStays := by
  intro s h
  refine ⟨step_of_stopped h, ?_⟩
  rw [State.hostStep_of_next (step_of_stopped h), State.printable_of_stopped h]

/-- A generic entry never decodes to a transition entry: the marker's opcode word leads it (30_encoding R55). -/
theorem decodeWords_tmstate {w0 w1 w2 w3 w4 : Word} {e : Transition}
    (h : decodeWords w0 w1 w2 w3 w4 = .ok (.tmstate e)) : w0 = Opcode.tmstate :=
  (Option.some.inj (decodeWords_opcode h)).symm

/-- A transition entry is fetched exactly where the word at `pc` is readable and holds the marker (40_step_loop R63). -/
theorem State.fetch_tmstate_iff (s : State) :
    (∃ e, s.fetch = .ok (.tmstate e)) ↔
      s.pc.toNat % 32 = 0 ∧ s.pc.toNat + 32 ≤ s.layout.bits ∧ s.bits s.pc.toNat 32 = Opcode.tmstate := by
  constructor
  · rintro ⟨e, hfetch⟩
    obtain ⟨halign, hbound, ⟨hmarker, -⟩ | ⟨hgeneric, -, hdecode⟩⟩ := State.fetch_ok hfetch
    · exact ⟨halign, hbound, hmarker⟩
    · exact absurd (decodeWords_tmstate hdecode) hgeneric
  · rintro ⟨halign, hbound, hmarker⟩
    exact ⟨_, s.fetch_marker halign hbound hmarker⟩

/-- A dispatch that passes the halt test and the head check (43_control_instructions R79). -/
theorem State.tmDispatch_enters {s : State} (hp : s.pc ≠ s.reg haltSentinelReg) (hv : s.headValid = true) :
    s.tmDispatch = .ok ((s.setReg activeStateReg s.pc).setPc bootstrapEntry, true) := by
  obtain ⟨hhalt, -⟩ | ⟨-, -, hd⟩ | ⟨-, hhead, -⟩ := s.tmDispatch_cases
  · exact absurd hhalt hp
  · exact hd
  · rw [hv] at hhead; cases hhead

/-- The host's step at a dispatch that does not halt: the bootstrap is entered, and the step is printable (40_step_loop
R66). -/
theorem State.hostStep_of_dispatch {s : State} {e : Transition} (hr : s.ctl = .running)
    (hf : s.fetch = .ok (.tmstate e)) (hp : s.pc ≠ s.reg haltSentinelReg) (hv : s.headValid = true) :
    s.hostStep = ((s.setReg activeStateReg s.pc).setPc bootstrapEntry, true) := by
  have hd := State.tmDispatch_enters hp hv
  have hexec : exec (.tmstate e) s = .next ((s.setReg activeStateReg s.pc).setPc bootstrapEntry) := by
    change s.conclude Opcode.tmstate (s.tmDispatch.map Prod.fst) = _
    rw [hd]; rfl
  have hshown : s.printable = true := by simp [State.printable, hr, hf, hd]
  rw [State.hostStep_of_next ((step_of_fetch_ok hr hf).trans hexec), hshown]

/-- What the host's step returns comes from the state before it. -/
theorem State.printable_of_hostStep {s : State} (h : s.hostStep.2 = true) : s.printable = true := by
  unfold State.hostStep at h
  split at h
  · exact h
  · cases h
  · cases h

/-- A step is printable exactly where a running machine fetches a transition entry whose dispatch does not halt and
finds the head on the tape (40_step_loop R66). -/
theorem State.hostStep_printable_iff (s : State) :
    s.hostStep.2 = true ↔
      s.ctl = .running ∧ (∃ e, s.fetch = .ok (.tmstate e)) ∧ s.pc ≠ s.reg haltSentinelReg ∧ s.headValid = true := by
  constructor
  · intro h
    obtain ⟨hr, e, hf, hp, hv⟩ := State.printable_spec (State.printable_of_hostStep h)
    exact ⟨hr, ⟨e, hf⟩, hp, hv⟩
  · rintro ⟨hr, ⟨e, hf⟩, hp, hv⟩
    rw [State.hostStep_of_dispatch hr hf hp hv]

/-- Settles O38: the fetch of a transition entry and the head check, each said of the state before the step. -/
theorem printableExactlyAtDispatch : Obligations.PrintableExactlyAtDispatch := by
  intro s
  rw [State.hostStep_printable_iff, State.fetch_tmstate_iff, State.headValid_iff, and_assoc, and_assoc]
  rfl

end Sys2Proof.Machine
end

section
/-! The control state and `pc` after each instruction (40_step_loop R64). -/

namespace Sys2Proof.Machine

/-! What the shared operations leave in `ctl` and `pc`. -/

section Operations
variable {s t : State} {n : Nat} {a d p q src : Word}

theorem State.arith_ctl {f : Int → Int → Int} (h : s.arith f p q d = .ok t) : t.ctl = s.ctl := by
  obtain ⟨-, -, -, -, rfl⟩ := State.arith_ok h
  rfl

theorem State.loadIndirect_ctl (h : s.loadIndirect n a d = .ok t) : t.ctl = s.ctl := by
  obtain ⟨-, -, _, -, rfl⟩ := State.loadIndirect_ok h
  rfl

theorem State.storeIndirect_ctl (h : s.storeIndirect n a src = .ok t) : t.ctl = s.ctl := by
  obtain ⟨-, -, hwrite⟩ := State.storeIndirect_ok h
  exact (State.memWrite_frame hwrite).2.2.1

/-- A checked word write meets `pc` only at address 32, since both are aligned words. -/
theorem State.pc_of_memWrite_word {addr v : Int} (h : s.memWrite addr 32 v = .ok t) :
    t.pc = if addr = 32 then u32 v else s.pc := by
  obtain ⟨halign, -, hnonneg, -, -, rfl⟩ := State.memWrite_ok h
  have halign := halign rfl
  split_ifs with haddr
  · subst haddr
    exact s.bits_setBits_same pcOffset (u32 v)
  · exact s.bits_setBits_of_disjoint _ _ _ _ (by unfold pcOffset; omega)

/-- `pc` after the word store of WRW and RET, before any write of `next` (40_step_loop R64). -/
theorem State.pc_of_storeIndirect_word (h : s.storeIndirect 32 a src = .ok t) :
    t.pc = if (s.reg a.toInt.toNat).toInt = 32 then s.reg src.toInt.toNat else s.pc := by
  obtain ⟨-, -, hwrite⟩ := State.storeIndirect_ok h
  rw [State.pc_of_memWrite_word hwrite, u32_s32]

end Operations

/-- `pc` after an instruction that completes and leaves the machine running, by R64's table; none for HALT, which does
not. -/
def State.completedPc (s : State) : Instr → Option Word
  | .clrregs next => some next
  | .loadc _ _ next => some next
  | .rdw _ _ next => some next
  | .wrw _ _ next => some next
  | .rds _ _ next => some next
  | .wrs _ _ next => some next
  | .mul _ _ _ next => some next
  | .add _ _ _ next => some next
  | .halt _ => none
  | .ret a src _ => some (if (s.reg a.toInt.toNat).toInt = 32 then s.reg src.toInt.toNat else s.pc)
  | .tmstate _ => some bootstrapEntry

/-- The three ways an instruction run from `s` can end: it completes, it halts the machine, or it takes a fault. -/
inductive InstrEnds (i : Instr) (s : State) : State → Prop where
  | completed {t : State} (hctl : t.ctl = s.ctl) (hpc : s.completedPc i = some t.pc) : InstrEnds i s t
  | halted : InstrEnds i s s.halt
  | faulted (o : Option Word) (v : Violation) : InstrEnds i s (s.takeFault o v)

/-- An instruction whose last write is `pc <- next` completes at `next`. -/
theorem InstrEnds.setPc {i : Instr} {s u : State} {next : Word} (hi : s.completedPc i = some next)
    (hctl : u.ctl = s.ctl) : InstrEnds i s (u.setPc next) :=
  .completed hctl (by rw [hi, State.pc_setPc])

/-- Every instruction ends in one of the three ways. -/
theorem instrEnds_of_exec {i : Instr} {s t : State} (h : exec i s = .next t) : InstrEnds i s t := by
  cases i with
  | clrregs next => rw [execClrregs_next h]; exact .setPc rfl s.clearRegs_ctl
  | loadc v d next =>
    obtain ⟨-, rfl⟩ | ⟨x, rfl⟩ := execLoadc_next h
    · exact .setPc rfl (s.setReg_ctl _ v)
    · exact .faulted _ x
  | rdw a d next =>
    obtain ⟨u, hu, rfl⟩ | ⟨x, rfl⟩ := execRdw_next h
    · exact .setPc rfl (State.loadIndirect_ctl hu)
    · exact .faulted _ x
  | wrw a src next =>
    obtain ⟨u, hu, rfl⟩ | ⟨x, rfl⟩ := execWrw_next h
    · exact .setPc rfl (State.storeIndirect_ctl hu)
    · exact .faulted _ x
  | rds a d next =>
    obtain ⟨u, hu, rfl⟩ | ⟨x, rfl⟩ := execRds_next h
    · exact .setPc rfl (State.loadIndirect_ctl hu)
    · exact .faulted _ x
  | wrs a src next =>
    obtain ⟨u, hu, rfl⟩ | ⟨x, rfl⟩ := execWrs_next h
    · exact .setPc rfl (State.storeIndirect_ctl hu)
    · exact .faulted _ x
  | mul p q d next =>
    obtain ⟨u, hu, rfl⟩ | ⟨x, rfl⟩ := execMul_next h
    · exact .setPc rfl (State.arith_ctl hu)
    · exact .faulted _ x
  | add p q d next =>
    obtain ⟨u, hu, rfl⟩ | ⟨x, rfl⟩ := execAdd_next h
    · exact .setPc rfl (State.arith_ctl hu)
    · exact .faulted _ x
  | halt next => rw [execHalt_next (next := next) h]; exact .halted
  | ret a src next =>
    obtain hu | ⟨x, rfl⟩ := execRet_next (next := next) h
    · exact .completed (State.storeIndirect_ctl hu) (congrArg some (State.pc_of_storeIndirect_word hu).symm)
    · exact .faulted _ x
  | tmstate e =>
    obtain ⟨-, rfl⟩ | ⟨-, -, rfl⟩ | ⟨-, -, rfl⟩ := execTmstate_next (e := e) h
    · exact .halted
    · exact .setPc rfl (s.setReg_ctl activeStateReg s.pc)
    · exact .faulted _ _

/-- An instruction after which the machine runs ends at the `pc` of R64's table. -/
theorem exec_pc_of_running {i : Instr} {s t : State} (h : exec i s = .next t) (ht : t.ctl = .running) :
    s.completedPc i = some t.pc := by
  cases instrEnds_of_exec h with
  | completed _ hpc => exact hpc
  | halted => cases ht
  | faulted o v => cases ht

/-- An instruction that stops a running machine, by a halt or by a fault, leaves `pc` (40_step_loop R64, R65). -/
theorem exec_pc_of_stopped {i : Instr} {s t : State} (h : exec i s = .next t) (hs : s.ctl = .running)
    (ht : t.ctl ≠ .running) : t.pc = s.pc := by
  cases instrEnds_of_exec h with
  | completed hctl _ => exact absurd (hctl.trans hs) ht
  | halted => exact s.halt_pc
  | faulted o v => exact s.takeFault_pc o v

/-- A step after which the machine does not run leaves `pc`: it was stopped before, its fetch faulted, or its
instruction stopped it (40_step_loop R61, R64, R65). -/
theorem step_pc_of_stopped {s t : State} (h : step s = .next t) (ht : t.ctl ≠ .running) : t.pc = s.pc := by
  obtain ⟨-, rfl⟩ | ⟨-, o, v, -, rfl⟩ | ⟨hr, i, -, hexec⟩ := step_cases h
  · rfl
  · exact s.takeFault_pc o v
  · exact exec_pc_of_stopped hexec hr ht

/-- Settles O39: R64's table is `State.completedPc` where the machine still runs, and a machine that stopped keeps `pc`.
-/
theorem finalPcOfEveryStep : Obligations.FinalPcOfEveryStep := by
  refine ⟨fun i s t h => ⟨fun f hf hs => ?fault, fun hctl hs => ?completed, fun hhalt hs => ?halt⟩,
    fun s t hs h => ?stopped, fun s t f _ h hf => step_pc_of_stopped h (by simp [hf])⟩
  case fault => exact exec_pc_of_stopped h hs (by simp [hf])
  case halt => exact exec_pc_of_stopped h hs (by simp [hhalt])
  case stopped =>
    rw [step_of_stopped hs] at h
    rw [Host.Outcome.next.inj h]
  case completed =>
    have hpc := exec_pc_of_running h (hctl.trans hs)
    cases i with
    | halt next => cases hpc
    | _ => exact (Option.some.inj hpc).symm

end Sys2Proof.Machine
end

section
/-! The host's status queries, head, `pc` and equality (45_host_interface R87 to R91, R95). -/

namespace Sys2Proof.Machine

/-! Status (45_host_interface R87). -/

theorem State.isHalted_iff (s : State) : s.isHalted = true ↔ s.ctl = .halted := decide_eq_true_iff

/-- The fault record is what a faulted control state carries, and there is none in the other two. -/
theorem State.faultRecord_eq_some_iff (s : State) (f : FaultRecord) : s.faultRecord = some f ↔ s.ctl = .faulted f := by
  unfold State.faultRecord
  cases s.ctl <;> simp

/-- Settles O47: `isHalted` is the test of `ctl`, and there is no record exactly where no record is the machine's. -/
theorem statusQueries : Obligations.StatusQueries := by
  intro s
  refine ⟨s.isHalted_iff, s.faultRecord_eq_some_iff, ?_⟩
  rw [Option.eq_none_iff_forall_ne_some]
  exact forall_congr' fun f => not_congr (s.faultRecord_eq_some_iff f)

/-! The symbol at the head (45_host_interface R88, R89). -/

section SymbolAtHead
variable {s : State} {v : Int}

/-- A head field that is odd or at or past `2·L` names no symbol. -/
theorem State.headValid_eq_false_iff (s : State) :
    s.headValid = false ↔ s.head.toNat % 2 ≠ 0 ∨ 2 * s.layout.tapeLen ≤ s.head.toNat := by
  rw [← Bool.not_eq_true, State.headValid_iff]
  omega

/-- A valid head field, counted in bits, names the place of symbol `head / 2`. -/
theorem State.symOffset_head (hv : s.headValid = true) :
    s.layout.symOffset (s.head.toNat / 2) = s.layout.symBase + s.head.toNat := by
  obtain ⟨heven, -⟩ := s.headValid_iff.1 hv
  unfold Layout.symOffset
  omega

theorem State.readSymbolAtHead_of_invalid (hv : s.headValid = false) :
    s.readSymbolAtHead = .error (.hostArgument (.headInvalid s.head)) := by
  simp [State.readSymbolAtHead, hv]

theorem State.writeSymbolAtHead_of_invalid (hv : s.headValid = false) :
    s.writeSymbolAtHead v = .error (.hostArgument (.headInvalid s.head)) := by
  simp [State.writeSymbolAtHead, hv]

/-- With the head on the tape a read answers its symbol, but for the pattern 3. -/
theorem State.readSymbolAtHead_of_valid (hv : s.headValid = true) :
    s.readSymbolAtHead = if s.sym (s.head.toNat / 2) = 3 then .error (.hostArgument (.symbolPattern s.head))
      else .ok (s.sym (s.head.toNat / 2)) := by
  have hpattern (x : BitVec 2) : x.toNat = 3 ↔ x = 3 := (BitVec.toNat_eq (y := 3)).symm
  simp [State.readSymbolAtHead, hv, State.sym, State.symOffset_head hv, hpattern]

/-- With the head on the tape a write sets its symbol, but for a value that is no symbol. -/
theorem State.writeSymbolAtHead_of_valid (hv : s.headValid = true) :
    s.writeSymbolAtHead v = if v = 0 ∨ v = 1 ∨ v = 2
      then .ok (s.setBits (s.layout.symOffset (s.head.toNat / 2)) (BitVec.ofInt 2 v))
      else .error (.hostArgument (.symbolValue v)) := by
  simp only [State.writeSymbolAtHead, hv, State.symOffset_head hv, Bool.not_true, Bool.false_eq_true, if_false, ite_not]

/-- A tape symbol written reads back. -/
theorem State.sym_setSym_same (s : State) (j : Nat) (x : BitVec 2) :
    (s.setBits (s.layout.symOffset j) x).sym j = x :=
  s.bits_setBits_same _ x

/-- The write of a tape symbol changes no other symbol. -/
theorem State.sym_setSym_of_ne (s : State) {j k : Nat} (x : BitVec 2) (h : k ≠ j) :
    (s.setBits (s.layout.symOffset j) x).sym k = s.sym k :=
  s.bits_setBits_of_disjoint _ x _ _ (by rw [State.setBits_layout, Layout.symOffset_eq, Layout.symOffset_eq]; omega)

/-- The tape lies past the head field. -/
theorem State.head_setSym (s : State) (j : Nat) (x : BitVec 2) :
    (s.setBits (s.layout.symOffset j) x).head = s.head :=
  s.bits_setBits_of_disjoint _ x _ _ (by rw [State.setBits_layout, Layout.symOffset_eq, Layout.headOffset_eq]; omega)

theorem State.headValid_setSym (s : State) (j : Nat) (x : BitVec 2) :
    (s.setBits (s.layout.symOffset j) x).headValid = s.headValid := by
  unfold State.headValid
  rw [State.head_setSym, State.setBits_layout]

/-- The values a symbol may take are not the pattern 3. -/
theorem ofInt_ne_three_of_symbol (h : v = 0 ∨ v = 1 ∨ v = 2) : BitVec.ofInt 2 v ≠ 3 := by
  obtain rfl | rfl | rfl := h <;> decide

/-- A symbol written at the head is read back there: the write moves no head (45_host_interface R89). -/
theorem State.readSymbolAtHead_setSym (hv : s.headValid = true) (h : v = 0 ∨ v = 1 ∨ v = 2) :
    (s.setBits (s.layout.symOffset (s.head.toNat / 2)) (BitVec.ofInt 2 v)).readSymbolAtHead =
      .ok (BitVec.ofInt 2 v) := by
  rw [State.readSymbolAtHead_of_valid (by rwa [State.headValid_setSym]), State.head_setSym, State.sym_setSym_same,
    if_neg (ofInt_ne_three_of_symbol h)]

end SymbolAtHead

/-- Settles O48: the head check comes first; past it, one case for each check of the read and of the write, and the laws
of a symbol write for the write that passed them. -/
theorem symbolAtHead : Obligations.SymbolAtHead := by
  intro s v
  refine ⟨fun hbad => ?invalid, fun hgood => ?valid⟩
  case invalid =>
    have hv := s.headValid_eq_false_iff.2 hbad
    exact ⟨State.readSymbolAtHead_of_invalid hv, State.writeSymbolAtHead_of_invalid hv⟩
  case valid =>
    have hv : s.headValid = true := eq_true_of_ne_false fun h => hgood (s.headValid_eq_false_iff.1 h)
    refine ⟨fun hpattern => ?pattern, fun hpattern => ?symbol, fun hvalue => ?badValue, fun hvalue => ⟨_, ?written,
      State.readSymbolAtHead_setSym hv hvalue, fun j => s.sym_setSym_of_ne _, rfl, rfl, fun b hb => ?frame⟩⟩
    case pattern => rw [State.readSymbolAtHead_of_valid hv, if_pos hpattern]
    case symbol => rw [State.readSymbolAtHead_of_valid hv, if_neg hpattern]
    case badValue => rw [State.writeSymbolAtHead_of_valid hv, if_neg hvalue]
    case written => rw [State.writeSymbolAtHead_of_valid hv, if_pos hvalue]
    case frame => rw [State.bit_setBits, State.symOffset_head hv, if_neg (by omega)]

/-! The head position (45_host_interface R90). -/

/-- A write of `head` changes no byte but the field's four (10_state R23). -/
theorem State.byte_setHead_of_outside (s : State) (w : Word) {i : Nat} (h : ¬inWord s.layout.headOffset i) :
    (s.setHead w).byte i = s.byte i :=
  s.byte_setBits_of_outside _ w i (by rw [Layout.headOffset_eq] at *; omega)

/-- A legal layout's tape is so short that a head field holds twice any position of it. -/
theorem Layout.toNat_u32_of_position {y : Layout} (hy : y.wf = true) {p : Int} (h0 : 0 ≤ p) (hp : p < y.tapeLen) :
    ((u32 (2 * p)).toNat : Int) = 2 * p := by
  obtain ⟨hmod, hbits⟩ := y.wf_iff.1 hy
  rw [Layout.bits_eq] at hbits
  rw [BitVec.toNat_ofInt]
  omega

/-- Settles O49: the head field holds twice an accepted position with no wrap, so it is even, below `2·L` and gives the
position back. -/
theorem headPositionIsInSymbols : Obligations.HeadPositionIsInSymbols := by
  intro s p hy
  refine ⟨rfl, fun hp => if_neg hp, fun h0 hp => ?_⟩
  have hfield := Layout.toNat_u32_of_position hy h0 hp
  refine ⟨s.setHead (u32 (2 * p)), if_pos ⟨h0, hp⟩, ?getter, ?field, ?valid, rfl, rfl,
    fun i => s.byte_setHead_of_outside _⟩
  case getter => rw [State.headPosition, State.head_setHead]; omega
  case field => rw [State.head_setHead, hfield]
  case valid => rw [State.headValid_iff, State.head_setHead, State.setHead_layout]; omega

/-! The active instruction offset (45_host_interface R91). -/

/-- Where the opcode word cannot be read, the fetch raises what the read raised, and no opcode is recorded (40_step_loop
R62, 60_exceptions R100). -/
theorem State.fetch_of_memRead_error {s : State} {v : Violation} (h : s.memRead s.pc.toNat 32 = .error v) :
    s.fetch = .error (none, v) := by
  simp [State.fetch, h]

theorem stepFaults_of_fetch_error {s : State} {o : Option Word} {v : Violation} (hr : s.ctl = .running)
    (hf : s.fetch = .error (o, v)) : stepFaults s o v :=
  ⟨s.takeFault o v, step_of_fetch_error hr hf, rfl, rfl, rfl⟩

/-- A running machine with a misaligned `pc` faults on it (40_step_loop R62). -/
theorem stepFaults_of_misaligned_pc {s : State} (hr : s.ctl = .running) (h : s.pc.toNat % 32 ≠ 0) :
    stepFaults s none (.misalignedWord s.pc.toNat) :=
  stepFaults_of_fetch_error hr (State.fetch_of_memRead_error
    (s.memRead_of_checkAccess_error (s.checkAccess_misalignedWord (by omega))))

/-- A running machine with an aligned `pc` whose word is not in the buffer faults on it (40_step_loop R62). -/
theorem stepFaults_of_outOfBounds_pc {s : State} (hr : s.ctl = .running) (h : s.pc.toNat % 32 = 0)
    (hb : s.layout.bits < s.pc.toNat + 32) : stepFaults s none (.outOfBounds s.pc.toNat) :=
  stepFaults_of_fetch_error hr (State.fetch_of_memRead_error
    (s.memRead_of_checkAccess_error (s.checkAccess_outOfBounds (by omega) (by omega) (by omega))))

/-- Settles O50: the setter is the unchecked write of `pc`, and the two faults are those of a step from the state with
that `pc`. -/
theorem activeInstructionOffset : Obligations.ActiveInstructionOffset := by
  intro s o
  have hpc : (s.setActiveInstructionOffset o).pc = u32 o := s.pc_setPc _
  refine ⟨rfl, hpc, rfl, rfl, fun i hi => ?frame, fun hr halign => ?misaligned, fun hr halign hbound => ?outOfBounds⟩
  case frame => exact s.byte_setPc_of_outside _ i (by unfold inWord pcOffset at hi; omega)
  case misaligned =>
    rw [← hpc] at halign ⊢
    exact stepFaults_of_misaligned_pc hr halign
  case outOfBounds =>
    rw [← hpc] at halign hbound ⊢
    exact stepFaults_of_outOfBounds_pc hr halign hbound

/-! Equality (45_host_interface R95). -/

/-- Two listed ranges are equal where their lengths are and their bytes agree. -/
theorem Memory.bytesOf_eq_iff (m m' : Memory) (lo n n' : Nat) :
    Memory.bytesOf m lo n = Memory.bytesOf m' lo n' ↔
      n = n' ∧ ∀ i, lo ≤ i → i < lo + n → Memory.byte m i = Memory.byte m' i := by
  constructor
  · intro h
    have hlen : n = n' := by simpa using congrArg List.length h
    subst hlen
    refine ⟨rfl, fun i hlo hi => ?_⟩
    have hget : (Memory.bytesOf m lo n)[i - lo]? = (Memory.bytesOf m' lo n)[i - lo]? := by rw [h]
    have hin : i - lo < n := by omega
    rw [Memory.getElem?_bytesOf, Memory.getElem?_bytesOf, if_pos hin, if_pos hin, Nat.add_sub_cancel' hlo] at hget
    exact Option.some.inj hget
  · rintro ⟨rfl, h⟩
    refine List.ext_getElem? fun k => ?_
    rw [Memory.getElem?_bytesOf, Memory.getElem?_bytesOf]
    split_ifs with hk
    · rw [h (lo + k) (by omega) (by omega)]
    · rfl

/-- The table regions are equal where they are as long and hold the same bytes. -/
theorem State.tableRegion_eq_iff (s t : State) :
    s.tableRegion = t.tableRegion ↔
      s.layout.wordCount = t.layout.wordCount ∧ ∀ i, i < 4 * s.layout.wordCount → s.byte i = t.byte i := by
  unfold State.tableRegion
  rw [Memory.bytesOf_eq_iff]
  refine and_congr (by omega) (forall_congr' fun i => ?_)
  simp [State.byte]

/-- The tape region is what follows the registers: `4·TW` bytes from byte `TB/8` on (10_state R14). -/
theorem Layout.size_eq_tapeBase_add (y : Layout) : y.size = y.tapeBase / 8 + 4 * y.tapeWordCount := by
  rw [Layout.size_eq, Layout.tapeBase_eq]
  unfold Layout.tapeWordCount
  omega

/-- Where the tape regions begin at the same place, they are equal where they are as long and hold the same bytes. -/
theorem State.tapeRegion_eq_iff {s t : State} (h : s.layout.tapeBase = t.layout.tapeBase) :
    s.tapeRegion = t.tapeRegion ↔
      s.layout.tapeWordCount = t.layout.tapeWordCount ∧
        ∀ i, s.layout.tapeBase / 8 ≤ i → i < s.layout.size → s.byte i = t.byte i := by
  unfold State.tapeRegion
  rw [← h, Memory.bytesOf_eq_iff, Layout.size_eq_tapeBase_add, Layout.size_eq_tapeBase_add, ← h]
  refine and_congr (by omega) ?_
  simp [State.byte]

/-- Equality, byte by byte: table regions of equal length put the tape regions at the same place. -/
theorem machinesEqual_iff (s t : State) :
    machinesEqual s t = true ↔
      s.layout.wordCount = t.layout.wordCount ∧ s.layout.tapeWordCount = t.layout.tapeWordCount ∧
        (∀ i, i < 4 * s.layout.wordCount → s.byte i = t.byte i) ∧
        ∀ i, s.layout.tapeBase / 8 ≤ i → i < s.layout.size → s.byte i = t.byte i := by
  have hbase (h : s.layout.wordCount = t.layout.wordCount) : s.layout.tapeBase = t.layout.tapeBase := by
    unfold Layout.tapeBase Layout.regBase; rw [h]
  unfold machinesEqual
  rw [Bool.and_eq_true, decide_eq_true_iff, decide_eq_true_iff, State.tableRegion_eq_iff]
  constructor
  · rintro ⟨⟨hw, htable⟩, htape⟩
    obtain ⟨htw, htape⟩ := (State.tapeRegion_eq_iff (hbase hw)).1 htape
    exact ⟨hw, htw, htable, htape⟩
  · rintro ⟨hw, htw, htable, htape⟩
    exact ⟨⟨hw, htable⟩, (State.tapeRegion_eq_iff (hbase hw)).2 ⟨htw, htape⟩⟩

/-- Machines of one layout whose bytes differ at most in the register region are equal. -/
theorem machinesEqual_of_outside_registers {s t : State} (hl : t.layout = s.layout)
    (h : ∀ i, ¬s.layout.inRegisters i → t.byte i = s.byte i) : machinesEqual s t = true := by
  rw [machinesEqual_iff, hl]
  refine ⟨rfl, rfl, fun i hi => (h i ?_).symm, fun i hi _ => (h i (by omega)).symm⟩
  unfold Layout.inRegisters Layout.regBase
  omega

/-- Settles O58: equality is that of the two regions, byte by byte; a register's bytes lie in neither, and `ctl` is no
byte. -/
theorem equalityComparesTableAndTape : Obligations.EqualityComparesTableAndTape := by
  refine ⟨machinesEqual_iff, fun s i v c hi => ⟨?register, ?ctl⟩⟩
  case register =>
    refine machinesEqual_of_outside_registers rfl fun j hj => s.byte_setReg_of_outside i v j ?_
    unfold Layout.inRegisters at hj
    rw [Layout.regBase_eq, Layout.tapeBase_eq] at hj
    rw [Layout.regOffset_eq]
    omega
  case ctl => exact machinesEqual_of_outside_registers rfl fun _ _ => rfl

end Sys2Proof.Machine
end

section
/-! Decoding reads encodings back, and reserved fields have no effect (30_encoding R49 to R58). -/

namespace Sys2Proof.Machine

/-- The low part of an appended bit vector weighs 1, the high part starts above it. -/
theorem toNat_append_eq {n m : Nat} (x : BitVec n) (y : BitVec m) : (x ++ y).toNat = 2 ^ m * x.toNat + y.toNat := by
  rw [BitVec.toNat_append, ← Nat.shiftLeft_add_eq_or_of_lt y.isLt, Nat.shiftLeft_eq, Nat.mul_comm]

/-- The word `w1` of a format T entry: the symbols from bit 0 on, the directions from bit 8 on (30_encoding R53). -/
theorem toNat_fieldsWord (t : Transition) :
    t.fieldsWord.toNat = t.sym0.toNat + 4 * t.sym1.toNat + 16 * t.sym2.toNat +
      256 * (t.dir0.toNat + 4 * t.dir1.toNat + 16 * t.dir2.toNat) := by
  change ((0 : BitVec 18) ++ t.dir2 ++ t.dir1 ++ t.dir0 ++ (0 : BitVec 2) ++ t.sym2 ++ t.sym1 ++ t.sym0).toNat = _
  simp only [toNat_append_eq, BitVec.ofNat_eq_ofNat, BitVec.toNat_ofNat]
  omega

/-- The packed fields of a format T entry are read back, each as its two binary digits of `w1` (30_encoding R53). -/
theorem transitionOfWords_fieldsWord (t : Transition) :
    transitionOfWords t.fieldsWord t.next0 t.next1 t.next2 = t := by
  have hfield (lo : Nat) (x : BitVec 2) (h : t.fieldsWord.toNat / 2 ^ lo % 4 = x.toNat) :
      t.fieldsWord.extractLsb' lo 2 = x := by
    rw [BitVec.toNat_eq, BitVec.extractLsb'_toNat, Nat.shiftRight_eq_div_pow, ← h]
  have hw := toNat_fieldsWord t
  have h0 := t.sym0.isLt
  have h1 := t.sym1.isLt
  have h2 := t.sym2.isLt
  have h3 := t.dir0.isLt
  have h4 := t.dir1.isLt
  unfold transitionOfWords
  rw [hfield 0 t.sym0 (by omega), hfield 2 t.sym1 (by omega), hfield 4 t.sym2 (by omega),
    hfield 8 t.dir0 (by omega), hfield 10 t.dir1 (by omega), hfield 12 t.dir2 (by omega)]

/-- The decoder inverts the encoder on words: an opcode word selects its own constructor, whose fields are the words it
was encoded with (30_encoding R52, R53, R55). -/
theorem decodeWords_of_encodeWords {i : Instr} {w0 w1 w2 w3 w4 : Word} (h : encodeWords i = [w0, w1, w2, w3, w4]) :
    decodeWords w0 w1 w2 w3 w4 = .ok i := by
  cases i with
  | tmstate t =>
    cases h
    exact congrArg (fun t => Except.ok (Instr.tmstate t)) (transitionOfWords_fieldsWord t)
  | _ => cases h; rfl

/-- An encoding is five words. -/
theorem exists_encodeWords_eq (i : Instr) : ∃ w0 w1 w2 w3 w4, encodeWords i = [w0, w1, w2, w3, w4] := by
  cases i <;> exact ⟨_, _, _, _, _, rfl⟩

/-- Settles O2: an encoding is the bytes of five words, which the decoder takes off one by one and inverts. -/
theorem decodeReadsBackEncode : Obligations.DecodeReadsBackEncode := by
  intro i rest
  obtain ⟨w0, w1, w2, w3, w4, hwords⟩ := exists_encodeWords_eq i
  have hbytes : encode i ++ rest =
      wordBytes w0 ++ (wordBytes w1 ++ (wordBytes w2 ++ (wordBytes w3 ++ (wordBytes w4 ++ rest)))) := by
    simp [encode, hwords]
  rw [hbytes, decode_wordBytes, decodeWords_of_encodeWords hwords]

/-- What the decoder reads off the bytes of an encoded number is the instruction encoded. -/
theorem decodeTableWord_of_natBytes {nbits w : Nat} {i : Instr} (h : natBytes 20 (w % 2 ^ nbits) = encode i) :
    decodeTableWord nbits w = some i := by
  have hdecode := decodeReadsBackEncode i []
  rw [List.append_nil] at hdecode
  rw [decodeTableWord, h, hdecode]
  rfl

/-- Settles O1: each word's bytes are those of the instruction's encoding, which decodes to it. -/
theorem knownWordsDecode : Obligations.KnownWordsDecode := by
  refine ⟨?_, ?_, ?_, ?_, ?_, ?_, ?_, ?_, ?_, ?_⟩
  all_goals exact decodeTableWord_of_natBytes (by decide)

/-- An opcode word of at most 10 is one of the opcode map (30_encoding R55). -/
theorem decodeWords_of_legal {w0 : Word} (w1 w2 w3 w4 : Word) (h : w0.toNat ≤ 10) :
    ∃ i, decodeWords w0 w1 w2 w3 w4 = .ok i := by
  have hofNat : w0 = BitVec.ofNat 32 w0.toNat := by simp
  generalize w0.toNat = k at h hofNat
  subst hofNat
  interval_cases k
  all_goals exact ⟨_, rfl⟩

/-- An opcode word of 11 or more differs from every opcode of the map (30_encoding R56). -/
theorem decodeWords_of_illegal {w0 : Word} (w1 w2 w3 w4 : Word) (h : 11 ≤ w0.toNat) :
    decodeWords w0 w1 w2 w3 w4 = .error (.illegalOpcode w0) := by
  have hne (o : Word) (ho : o.toNat ≤ 10) : w0 ≠ o := by rintro rfl; omega
  unfold decodeWords
  rw [if_neg (hne Opcode.clrregs (by decide)), if_neg (hne Opcode.loadc (by decide)),
    if_neg (hne Opcode.rdw (by decide)), if_neg (hne Opcode.wrw (by decide)), if_neg (hne Opcode.rds (by decide)),
    if_neg (hne Opcode.wrs (by decide)), if_neg (hne Opcode.mul (by decide)), if_neg (hne Opcode.add (by decide)),
    if_neg (hne Opcode.halt (by decide)), if_neg (hne Opcode.ret (by decide)),
    if_neg (hne Opcode.tmstate (by decide))]

/-- Settles O3: the map's opcodes are the words up to 10. -/
theorem onlyElevenOpcodesAreLegal : Obligations.OnlyElevenOpcodesAreLegal := fun _ w1 w2 w3 w4 =>
  ⟨decodeWords_of_legal w1 w2 w3 w4, decodeWords_of_illegal w1 w2 w3 w4⟩

/-- A field of `w1` whose bits the mask keeps reads the same from the masked word. -/
theorem extractLsb'_and_of_mask {w mask : Word} {lo : Nat} (h0 : mask.getLsbD lo = true)
    (h1 : mask.getLsbD (lo + 1) = true) : (w &&& mask).extractLsb' lo 2 = w.extractLsb' lo 2 := by
  apply BitVec.eq_of_getLsbD_eq
  intro k hk
  obtain rfl | rfl : k = 0 ∨ k = 1 := by omega
  · simp [h0]
  · simp [h1]

/-- A transition is read from bits 5:0 and 13:8 of `w1` alone (30_encoding R57). -/
theorem transitionOfWords_mask (w1 w2 w3 w4 : Word) :
    transitionOfWords (w1 &&& 0x3F3F) w2 w3 w4 = transitionOfWords w1 w2 w3 w4 := by
  unfold transitionOfWords
  congr 1
  all_goals exact extractLsb'_and_of_mask (by decide) (by decide)

/-- Settles O4: ignored arguments are no fields of the term, the six fields of a transition lie inside the mask, and no
meaning of HALT or RET uses `next`. -/
theorem reservedFieldsHaveNoEffect : Obligations.ReservedFieldsHaveNoEffect := by
  refine ⟨fun _ _ _ _ _ _ _ => ⟨rfl, rfl⟩, ?ignored, ?reserved, fun _ _ _ => rfl, fun _ _ _ _ _ => rfl⟩
  case ignored =>
    rintro op w1 w2 w3 w3' w4 (rfl | rfl | rfl | rfl | rfl | rfl)
    all_goals rfl
  case reserved =>
    intro w1 w1' w2 w3 w4 h
    change Except.ok (Instr.tmstate (transitionOfWords w1 w2 w3 w4)) = .ok (.tmstate (transitionOfWords w1' w2 w3 w4))
    rw [← transitionOfWords_mask w1, h, transitionOfWords_mask w1']

end Sys2Proof.Machine
end

section
/-! The step runs what stands at `pc`: decoded instructions, transition entries, and stored ones (40_step_loop R60, R63).
-/

namespace Sys2Proof.Machine

/-- The marker's entry decodes to the transition of its other words, whatever they hold (30_encoding R53). -/
theorem decodeWords_marker (w1 w2 w3 w4 : Word) :
    decodeWords Opcode.tmstate w1 w2 w3 w4 = .ok (.tmstate (transitionOfWords w1 w2 w3 w4)) := rfl

/-- A fetch reads what the 20 bytes at `pc` decode to (40_step_loop R63). -/
theorem State.fetch_of_decode {s : State} {i : Instr} (halign : s.pc.toNat % 32 = 0)
    (hbound : s.pc.toNat + 160 ≤ s.layout.bits)
    (hdecode : decode (Memory.bytesOf s.mem (s.pc.toNat / 8) 20) = .ok i) : s.fetch = .ok i := by
  have hwords : decodeWords (s.entryWord s.pc.toNat 0) (s.entryWord s.pc.toNat 1) (s.entryWord s.pc.toNat 2)
      (s.entryWord s.pc.toNat 3) (s.entryWord s.pc.toNat 4) = .ok i := by
    rw [← hdecode, Memory.decode_bytesOf _ _ (by omega)]
    rfl
  by_cases hmarker : s.entryWord s.pc.toNat 0 = Opcode.tmstate
  · rw [s.fetch_marker halign (by omega) hmarker]
    rw [hmarker, decodeWords_marker] at hwords
    exact congrArg _ (Except.ok.inj hwords)
  · rw [s.fetch_generic halign hbound hmarker, hwords]

/-- Settles O33: a running machine's step executes what it fetches. -/
theorem stepRunsDecodedInstruction : Obligations.StepRunsDecodedInstruction :=
  fun _ _ hr halign hbound hdecode => step_of_fetch_ok hr (State.fetch_of_decode halign hbound hdecode)

/-- Settles O34: the marker is fetched with its fields unchecked, and the dispatch uses none of them. -/
theorem transitionNeedsOnlyItsOpcode : Obligations.TransitionNeedsOnlyItsOpcode :=
  fun s _ hr halign hbound hmarker => (step_of_fetch_ok hr (s.fetch_marker halign hbound hmarker)).trans rfl

/-- The bytes of a number depend on nothing above them. -/
theorem natBytes_mod (k w : Nat) : natBytes k (w % 2 ^ (8 * k)) = natBytes k w := by
  induction k generalizing w with
  | zero => rfl
  | succ n ih =>
    have hsplit : 2 ^ (8 * (n + 1)) = 256 * 2 ^ (8 * n) := by rw [Nat.mul_succ, Nat.pow_add]; omega
    have hlow : BitVec.ofNat 8 (w % (256 * 2 ^ (8 * n))) = BitVec.ofNat 8 w :=
      BitVec.eq_of_toNat_eq (Nat.mod_mul_right_mod w 256 _)
    rw [natBytes, natBytes, hsplit, hlow, Nat.mod_mul_right_div_self, ih]

theorem getElem?_natBytes (k w j : Nat) :
    (natBytes k w)[j]? = if j < k then some (BitVec.ofNat 8 (w / 256 ^ j)) else none := by
  induction k generalizing w j with
  | zero => simp [natBytes]
  | succ n ih =>
    cases j with
    | zero => simp [natBytes]
    | succ j => simp [natBytes, ih, Nat.pow_succ', Nat.div_div_eq_div_mul]

/-- The bytes that a write of whole bytes leaves are those of the value (20_memory R31). -/
theorem Memory.bytesOf_rawWrite (m : Memory) {a count : Nat} (v : BitVec (8 * count)) (h : a % 8 = 0) :
    Memory.bytesOf (Memory.rawWrite m a v) (a / 8) count = natBytes count v.toNat := by
  refine List.ext_getElem? fun j => ?_
  rw [Memory.getElem?_bytesOf, getElem?_natBytes]
  split_ifs with hj
  · refine congrArg some (BitVec.eq_of_getLsbD_eq fun b hb => ?_)
    have hbit : Memory.bit (Memory.rawWrite m a v) (8 * (a / 8 + j) + b) = v.toNat.testBit (8 * j + b) := by
      rw [Memory.bit_rawWrite, if_pos (by omega), show 8 * (a / 8 + j) + b - a = 8 * j + b by omega]
      rfl
    rw [getLsbD_ofNat_div _ _ _ hb, ← hbit, Memory.bit]
    congr 2 <;> omega
  · rfl

/-- Where an entry is placed it is aligned, past the header and inside the buffer. -/
theorem State.entrySlot_spec (s : State) :
    s.entrySlot.toNat % 32 = 0 ∧ 64 ≤ s.entrySlot.toNat ∧ s.entrySlot.toNat + 160 ≤ s.layout.bits := by
  have hbits := s.layout.bits_eq
  have hreg := s.layout.regBase_eq
  unfold State.entrySlot
  split_ifs with hpc
  · omega
  · change 64 % 32 = 0 ∧ 64 ≤ 64 ∧ 64 + 160 ≤ s.layout.bits
    omega

/-- The entry placed lies past `pc`, so `pc` still names it. -/
theorem State.pc_placeEntry (s : State) (e : BitVec 160) : (s.placeEntry e).pc = s.entrySlot := by
  obtain ⟨-, hpast, -⟩ := s.entrySlot_spec
  have hpc : ((s.setPc s.entrySlot).setBits s.entrySlot.toNat e).pc = (s.setPc s.entrySlot).pc :=
    State.bits_setBits_of_disjoint _ _ e _ _ (by unfold pcOffset; omega)
  exact hpc.trans (s.pc_setPc _)

/-- Settles O5: the bytes stored are the encoding, so they decode to the instruction, both as a number and where the next
step fetches. -/
theorem storedInstructionRunsNext : Obligations.StoredInstructionRunsNext := by
  intro i w s h
  have hmod : natBytes 20 (w % 2 ^ 160) = encode i := (natBytes_mod 20 w).trans h
  have hdecode : decode (natBytes 20 (w % 2 ^ 160)) = .ok i := by
    have hback := decodeReadsBackEncode i []
    rwa [List.append_nil, ← hmod] at hback
  refine ⟨decodeTableWord_of_natBytes hmod, ?_⟩
  obtain ⟨halign, -, hbound⟩ := s.entrySlot_spec
  have hpc : (s.withFetchWord 160 w).pc = s.entrySlot := s.pc_placeEntry _
  have hbytes : Memory.bytesOf (s.withFetchWord 160 w).mem (s.entrySlot.toNat / 8) 20 = natBytes 20 (w % 2 ^ 160) := by
    have hstored := Memory.bytesOf_rawWrite (count := 20) (Memory.rawWrite s.mem pcOffset s.entrySlot)
      (BitVec.ofNat 160 (w % 2 ^ 160)) (show s.entrySlot.toNat % 8 = 0 by omega)
    rw [BitVec.toNat_ofNat, Nat.mod_mod] at hstored
    exact hstored
  refine stepRunsDecodedInstruction _ i rfl ?_ ?_ ?_
  · rw [hpc]; exact halign
  · rw [hpc]; exact hbound
  · rw [hpc, hbytes, hdecode]

end Sys2Proof.Machine
end

section
/-! What a step keeps and what can stop it: the invariant, the layout words, and the writers of the control state
(10_state R13, R14, 20_memory R37, 60_exceptions R101). -/

namespace Sys2Proof.Machine

/-! The invariant (10_state R14). -/

/-- The four parts of the invariant. -/
theorem State.wf_iff (s : State) :
    s.wf = true ↔ s.layout.wf = true ∧ Memory.wf s.mem = true ∧ Memory.below s.mem s.layout.size = true ∧
      s.bits wordCountOffset 32 = BitVec.ofNat 32 s.layout.wordCount ∧
      s.bits s.layout.tapeBase 32 = BitVec.ofNat 32 s.layout.tapeWordCount := by
  simp [State.wf, State.layoutWordsHold, and_assoc]

/-- Legal edits keep the invariant: each part has its own law. -/
theorem Edited.wf {s t : State} (h : Edited s t) (hs : s.wf = true) : t.wf = true := by
  obtain ⟨hlayout, hcanonical, hbelow, hcount, htape⟩ := s.wf_iff.1 hs
  obtain ⟨hcount', htape'⟩ := h.layout_words
  rw [State.wf_iff, h.layout]
  exact ⟨hlayout, h.memory_wf hcanonical, h.memory_below hbelow, hcount'.trans hcount, htape'.trans htape⟩

/-- Settles O41: every step is a sequence of legal edits, which keep the invariant. -/
theorem stepKeepsTheInvariant : Obligations.StepKeepsTheInvariant := fun _ _ hs h =>
  ⟨(Edited.of_step h).wf hs, (Edited.of_step h).layout⟩

/-! The layout words (20_memory R37). -/

/-- The layout words lie in the buffer, `TB` at a word boundary (20_memory R41). -/
theorem Layout.tapeBase_spec (y : Layout) : y.tapeBase % 32 = 0 ∧ 576 ≤ y.tapeBase ∧ y.tapeBase + 64 ≤ y.bits := by
  rw [Layout.tapeBase_eq, Layout.bits_eq]; omega

/-- Settles O13: each layout word passes the checks of the access and fails the layout check of a write, whatever the
value; a write that raises nothing is a legal edit. -/
theorem layoutWordsCannotBeWritten : Obligations.LayoutWordsCannotBeWritten := by
  intro s v
  obtain ⟨halign, hpast, hbound⟩ := s.layout.tapeBase_spec
  refine ⟨?wordCount, ?tapeWordCount, fun a heven hlayout => ?symbol, fun a n t hn h => (Edited.memWrite h hn).layout_words,
    s.memRead_word (by omega) (by omega) (by omega), s.memRead_word (by omega) (by omega) (by omega)⟩
  case wordCount =>
    exact s.memWrite_layoutWord (s.checkAccess_word (by omega) (by omega) (by omega))
      ((s.touchesLayout_iff _ _).2 (by omega))
  case tapeWordCount =>
    exact s.memWrite_layoutWord (s.checkAccess_word (by omega) (by omega) (by omega))
      ((s.touchesLayout_iff _ _).2 (by omega))
  case symbol =>
    exact s.memWrite_layoutWord (s.checkAccess_sym heven (by omega) (by omega))
      ((s.touchesLayout_iff _ _).2 (by omega))

/-! Every step is defined (70_reset_and_hazards R113). -/

/-- An instruction answers a next state: it ends by concluding, or by the bare halt. -/
theorem exists_exec_next (i : Instr) (s : State) : ∃ t, exec i s = .next t := by
  have hconclude (op : Word) (r : Except Violation State) : ∃ t, s.conclude op r = .next t := by
    cases r with
    | ok t => exact ⟨t, rfl⟩
    | error v => exact ⟨_, rfl⟩
  cases i with
  | clrregs next => exact ⟨_, rfl⟩
  | halt next => exact ⟨_, rfl⟩
  | _ => exact hconclude _ _

theorem exists_step_next (s : State) : ∃ t, step s = .next t := by
  by_cases hr : s.ctl = .running
  · cases hf : s.fetch with
    | ok i => rw [step_of_fetch_ok hr hf]; exact exists_exec_next i s
    | error e => exact ⟨_, step_of_fetch_error hr hf⟩
  · exact ⟨s, step_of_stopped hr⟩

/-- Settles O36: a stopped machine stays, a fetch that raises is a fault taken, and every instruction concludes. -/
theorem everyStepIsDefined : Obligations.EveryStepIsDefined := by
  intro s
  obtain ⟨t, ht⟩ := exists_step_next s
  exact ⟨t, ht, congrArg Prod.fst (State.hostStep_of_next ht), fun i => exists_exec_next i s⟩

/-! What stops a running machine (10_state R13). -/

/-- An instruction that stops a running machine is HALT, or a transition entry whose halt test matched, or it takes a
fault with its own opcode recorded (10_state R13, 60_exceptions R100). -/
theorem exec_stops {i : Instr} {s t : State} (h : exec i s = .next t) (hs : s.ctl = .running) (ht : t.ctl ≠ .running) :
    (t = s.halt ∧ ((∃ next, i = .halt next) ∨ (∃ e, i = .tmstate e) ∧ s.pc = s.reg haltSentinelReg)) ∨
    ∃ v, t = s.takeFault (encodeWords i).head? v := by
  cases i with
  | clrregs next => rw [execClrregs_next h] at ht; exact absurd ((s.clearRegs.setPc_ctl next).trans (s.clearRegs_ctl.trans hs)) ht
  | loadc v d next =>
    obtain ⟨-, rfl⟩ | ⟨x, rfl⟩ := execLoadc_next h
    · exact absurd hs ht
    · exact .inr ⟨x, rfl⟩
  | rdw a d next =>
    obtain ⟨u, hu, rfl⟩ | ⟨x, rfl⟩ := execRdw_next h
    · exact absurd ((State.loadIndirect_ctl hu).trans hs) ht
    · exact .inr ⟨x, rfl⟩
  | wrw a src next =>
    obtain ⟨u, hu, rfl⟩ | ⟨x, rfl⟩ := execWrw_next h
    · exact absurd ((State.storeIndirect_ctl hu).trans hs) ht
    · exact .inr ⟨x, rfl⟩
  | rds a d next =>
    obtain ⟨u, hu, rfl⟩ | ⟨x, rfl⟩ := execRds_next h
    · exact absurd ((State.loadIndirect_ctl hu).trans hs) ht
    · exact .inr ⟨x, rfl⟩
  | wrs a src next =>
    obtain ⟨u, hu, rfl⟩ | ⟨x, rfl⟩ := execWrs_next h
    · exact absurd ((State.storeIndirect_ctl hu).trans hs) ht
    · exact .inr ⟨x, rfl⟩
  | mul p q d next =>
    obtain ⟨u, hu, rfl⟩ | ⟨x, rfl⟩ := execMul_next h
    · exact absurd ((State.arith_ctl hu).trans hs) ht
    · exact .inr ⟨x, rfl⟩
  | add p q d next =>
    obtain ⟨u, hu, rfl⟩ | ⟨x, rfl⟩ := execAdd_next h
    · exact absurd ((State.arith_ctl hu).trans hs) ht
    · exact .inr ⟨x, rfl⟩
  | halt next => exact .inl ⟨execHalt_next (next := next) h, .inl ⟨next, rfl⟩⟩
  | ret a src next =>
    obtain hu | ⟨x, rfl⟩ := execRet_next (next := next) h
    · exact absurd ((State.storeIndirect_ctl hu).trans hs) ht
    · exact .inr ⟨x, rfl⟩
  | tmstate e =>
    obtain ⟨hp, rfl⟩ | ⟨-, -, rfl⟩ | ⟨-, -, rfl⟩ := execTmstate_next (e := e) h
    · exact .inl ⟨rfl, .inr ⟨⟨e, rfl⟩, hp⟩⟩
    · exact absurd hs ht
    · exact .inr ⟨_, rfl⟩

/-- The opcode word at `pc` is that of the instruction fetched there (30_encoding R52). -/
theorem State.head?_encodeWords_of_fetch {s : State} {i : Instr} (h : s.fetch = .ok i) :
    (encodeWords i).head? = some (s.bits s.pc.toNat 32) := by
  obtain ⟨-, -, ⟨hmarker, rfl⟩ | ⟨-, -, hdecode⟩⟩ := State.fetch_ok h
  · exact congrArg some hmarker.symm
  · exact decodeWords_opcode hdecode

/-- Everything that stops a running machine, said of the state before the step: the opcode word 8, a transition entry at
the offset in `x[0]`, or a fault, whose record holds the opcode word exactly where it could be read. -/
theorem step_stops {s t : State} (h : step s = .next t) (hs : s.ctl = .running) (ht : t.ctl ≠ .running) :
    (t = s.halt ∧ (s.bits s.pc.toNat 32 = 8 ∨ s.bits s.pc.toNat 32 = 10 ∧ s.pc = s.reg haltSentinelReg)) ∨
    (∃ v, t = s.takeFault none v ∧ (s.pc.toNat % 32 ≠ 0 ∨ s.layout.bits < s.pc.toNat + 32)) ∨
    ∃ v, t = s.takeFault (some (s.bits s.pc.toNat 32)) v ∧ s.pc.toNat % 32 = 0 ∧ s.pc.toNat + 32 ≤ s.layout.bits := by
  obtain ⟨hstopped, -⟩ | ⟨-, o, v, hfetch, rfl⟩ | ⟨-, i, hfetch, hexec⟩ := step_cases h
  · exact absurd hs hstopped
  · obtain ⟨rfl, hunreadable⟩ | ⟨rfl, -, halign, hbound⟩ := State.fetch_error hfetch
    · exact .inr (.inl ⟨v, rfl, hunreadable⟩)
    · exact .inr (.inr ⟨v, rfl, halign, hbound⟩)
  · have hopcode := State.head?_encodeWords_of_fetch hfetch
    obtain ⟨rfl, ⟨next, rfl⟩ | ⟨⟨e, rfl⟩, hp⟩⟩ | ⟨v, rfl⟩ := exec_stops hexec hs ht
    · exact .inl ⟨rfl, .inl (Option.some.inj hopcode).symm⟩
    · exact .inl ⟨rfl, .inr ⟨(Option.some.inj hopcode).symm, hp⟩⟩
    · obtain ⟨halign, hbound, -⟩ := State.fetch_ok hfetch
      exact .inr (.inr ⟨v, by rw [hopcode], halign, hbound⟩)

/-- After a printable step the machine runs (40_step_loop R66). -/
theorem State.ctl_of_printable {s t : State} (hp : s.printable = true) (h : step s = .next t) : t.ctl = .running := by
  obtain ⟨hr, e, hf, hne, hv⟩ := State.printable_spec hp
  have hdispatch := State.hostStep_of_dispatch hr hf hne hv
  rw [State.hostStep_of_next h] at hdispatch
  rw [(Prod.mk.inj hdispatch).1]
  exact hr

/-- Settles O37: a step that faults is a fault taken from the state before it, with the record that `step_stops` gives. -/
theorem faultsArePrecise : Obligations.FaultsArePrecise := by
  intro s t f hs h hf
  have ht : t.ctl ≠ .running := by simp [hf]
  have hprintable : s.printable = false := Bool.eq_false_iff.2 fun hp => ht (State.ctl_of_printable hp h)
  obtain ⟨rfl, -⟩ | ⟨v, rfl, hunreadable⟩ | ⟨v, rfl, halign, hbound⟩ := step_stops h hs ht
  · cases hf
  · cases hf
    exact ⟨rfl, rfl, rfl, rfl, hprintable, fun _ hw => (by cases hw), fun _ => hunreadable, fun _ => rfl⟩
  · cases hf
    exact ⟨rfl, rfl, rfl, rfl, hprintable, fun _ hw => (Option.some.inj hw).symm, fun hnone => (by cases hnone),
      fun hunreadable => by omega⟩

/-- A step of a whole entry with the opcode word 8 runs HALT. -/
theorem step_of_halt {s : State} (hs : s.ctl = .running) (halign : s.pc.toNat % 32 = 0)
    (hbound : s.pc.toNat + 160 ≤ s.layout.bits) (hop : s.bits s.pc.toNat 32 = 8) : step s = .next s.halt := by
  have hword : s.entryWord s.pc.toNat 0 = Opcode.halt := hop
  have hfetch : s.fetch = .ok (.halt (s.entryWord s.pc.toNat 4)) := by
    rw [s.fetch_generic halign hbound (by rw [hword]; decide), hword]
    rfl
  exact step_of_fetch_ok hs hfetch

/-- A step of a transition entry at the offset in `x[0]` halts (43_control_instructions R79, R80). -/
theorem execTmstate_of_haltTest (e : Transition) {s : State} (hp : s.pc = s.reg haltSentinelReg) :
    exec (.tmstate e) s = .next s.halt := by
  obtain ⟨-, hd⟩ | ⟨hne, -⟩ | ⟨hne, -⟩ := s.tmDispatch_cases
  · change s.conclude Opcode.tmstate (s.tmDispatch.map Prod.fst) = _
    rw [hd]; rfl
  · exact absurd hp hne
  · exact absurd hp hne

/-- Settles O40: a halted machine was stopped by one of the two ways of `step_stops`, and each of the two does halt. -/
theorem controlStateWriters : Obligations.ControlStateWriters := by
  intro s t h
  refine ⟨fun hs => ?stopped, fun hs ht => ?halted, fun hs halign hbound hop => ?halt,
    fun hs halign hbound hop hp => ?sentinel⟩
  case stopped =>
    rw [step_of_stopped hs] at h
    rw [Host.Outcome.next.inj h]
  case halted =>
    obtain ⟨-, hwhere⟩ | ⟨v, rfl, -⟩ | ⟨v, rfl, -⟩ := step_stops h hs (by simp [ht])
    · exact hwhere
    · cases ht
    · cases ht
  case halt =>
    rw [step_of_halt hs halign hbound hop] at h
    rw [← Host.Outcome.next.inj h]; rfl
  case sentinel =>
    rw [transitionNeedsOnlyItsOpcode s haltTransition hs halign hbound hop, execTmstate_of_haltTest _ hp] at h
    rw [← Host.Outcome.next.inj h]; rfl

/-- The word count of a legal layout fits its header field, and is 2 modulo 5 (10_state R14, R15). -/
theorem Layout.wordCount_spec {y : Layout} (h : y.wf = true) : y.wordCount < 2 ^ 32 ∧ y.wordCount % 5 = 2 := by
  obtain ⟨-, hbits⟩ := y.wf_iff.1 h
  rw [Layout.bits_eq] at hbits
  rw [Layout.wordCount_eq]
  omega

/-- The word at 0 is a word count, so it is no marker of a transition entry. -/
theorem State.bits_zero_ne_ten {s : State} (hs : s.wf = true) : s.bits 0 32 ≠ 10 := by
  obtain ⟨hlayout, -, -, hcount, -⟩ := s.wf_iff.1 hs
  obtain ⟨hfits, hmod⟩ := Layout.wordCount_spec hlayout
  intro hten
  have hnat := congrArg BitVec.toNat (hcount.symm.trans hten)
  rw [BitVec.toNat_ofNat, Nat.mod_eq_of_lt hfits] at hnat
  change s.layout.wordCount = 10 at hnat
  omega

/-- Settles O44: a dispatch that halts has `pc` at `x[0]`, here 0, where the word count stands and no marker. -/
theorem noDispatchHaltsAfterClear : Obligations.NoDispatchHaltsAfterClear := by
  intro s t hwf hs hzero h ht
  obtain ⟨-, hhalted, -⟩ := controlStateWriters s t h
  obtain hop | ⟨hten, hp⟩ := hhalted hs ht
  · exact hop
  · rw [hp, hzero] at hten
    exact absurd hten (State.bits_zero_ne_ten hwf)

end Sys2Proof.Machine
end

section
/-! What each instruction does when it completes: its result and its frame (41_register_instructions,
42_store_instructions, 43_control_instructions). -/

namespace Sys2Proof.Machine

/-! Registers as memory (10_state R17, R19). -/

/-- Registers lie between the header and the tape region, at word boundaries. -/
theorem Layout.regOffset_spec (y : Layout) {i : Nat} (h : i < 16) :
    y.regOffset i % 32 = 0 ∧ 64 ≤ y.regOffset i ∧ y.regOffset i + 32 ≤ y.tapeBase := by
  rw [Layout.regOffset_eq, Layout.tapeBase_eq]; omega

/-- Settles O15: a register's word is aligned, in bounds and apart from the layout words, and each of its symbols lies
inside it. -/
theorem registersAreMemory : Obligations.RegistersAreMemory := by
  intro s i v hi
  obtain ⟨halign, hpast, htape⟩ := s.layout.regOffset_spec hi
  obtain ⟨-, -, hbound⟩ := s.layout.tapeBase_spec
  unfold Layout.regOffset at halign hpast htape
  refine ⟨s.memRead_word (by omega) (by omega) (by omega),
    s.memWrite_word (by omega) (by omega) (by omega) ((s.touchesLayout_eq_false _ _).2 (by omega)),
    fun k hk hsymbol => ?_⟩
  have hinside : s.bits (s.layout.regBase + 32 * i + 2 * k) 2 = (s.reg i).extractLsb' (2 * k) 2 :=
    Memory.rawRead_inside s.mem (s.layout.regBase + 32 * i) 32 (2 * k) 2 (by omega)
  rw [← hinside] at hsymbol ⊢
  exact s.memRead_sym (by omega) (by omega) (by omega) hsymbol

/-! Instructions that write one register. -/

/-- The frame of an instruction that writes register `r` and goes to `next`: no other register, not the head, no byte
outside the register and `pc`. -/
theorem completes_of_setReg {i : Instr} {s : State} {r : Nat} {v next : Word} (hr : r < 16)
    (h : exec i s = .next ((s.setReg r v).setPc next)) :
    ∃ t, exec i s = .next t ∧
      t.reg r = v ∧ (∀ j, j < 16 → j ≠ r → t.reg j = s.reg j) ∧
      t.pc = next ∧ t.ctl = s.ctl ∧ t.layout = s.layout ∧ t.head = s.head ∧
      ∀ b, ¬inWord pcOffset b → ¬inWord (s.layout.regOffset r) b → t.byte b = s.byte b := by
  refine ⟨_, h, by simp, fun j _ hj => ?_, State.pc_setPc _ _, rfl, rfl, ?_, fun b hpc hreg => ?_⟩
  · rw [State.reg_setPc, State.reg_setReg_of_ne s r j v hj]
  · rw [State.head_setPc, State.head_setReg s r v hr]
  · rw [State.byte_setPc_of_outside _ _ _ (by unfold inWord pcOffset at hpc; omega),
      State.byte_setReg_of_outside _ _ _ _ (by unfold inWord at hreg; omega)]

theorem exec_loadc_of_isRegister (v next : Word) (s : State) {d : Word} (hd : isRegister d = true) :
    exec (.loadc v d next) s = .next ((s.setReg (s32 d).toNat v).setPc next) := by
  change execLoadc v d next s = _
  simp [execLoadc, regIndex_of_isRegister hd]

/-- Settles O17: LOADC with a valid destination is a register write. -/
theorem loadcLoadsConstant : Obligations.LoadcLoadsConstant := fun v _ next s hd =>
  completes_of_setReg (toNat_lt_of_isRegister hd) (exec_loadc_of_isRegister v next s hd)

theorem exec_add_of_arith {p q d next : Word} {s t : State} (h : s.arith (fun u w => u + w) p q d = .ok t) :
    exec (.add p q d next) s = .next (t.setPc next) := by
  change execAdd p q d next s = _
  simp [execAdd, h]

theorem exec_mul_of_arith {p q d next : Word} {s t : State} (h : s.arith (fun u w => u * w) p q d = .ok t) :
    exec (.mul p q d next) s = .next (t.setPc next) := by
  change execMul p q d next s = _
  simp [execMul, h]

/-- Settles O18: ADD with its sum in range writes the sum's word, whose value is the sum. -/
theorem addWritesExactSum : Obligations.AddWritesExactSum := by
  intro p q d next s hp hq hd r hlo hhi
  have hr : inRange r = true := (inRange_iff r).2 ⟨hlo, hhi⟩
  obtain ⟨t, hexec, hvalue, hframe⟩ := completes_of_setReg (toNat_lt_of_isRegister hd)
    (exec_add_of_arith (next := next) (s.arith_of_ok (fun u w => u + w) hp hq hd hr))
  exact ⟨t, hexec, (congrArg BitVec.toInt hvalue).trans (s32_u32_of_inRange hr), hframe⟩

/-- Settles O19: MUL with its product in range writes the product's word, whose value is the product. -/
theorem mulWritesExactProduct : Obligations.MulWritesExactProduct := by
  intro p q d next s hp hq hd r hlo hhi
  have hr : inRange r = true := (inRange_iff r).2 ⟨hlo, hhi⟩
  obtain ⟨t, hexec, hvalue, hframe⟩ := completes_of_setReg (toNat_lt_of_isRegister hd)
    (exec_mul_of_arith (next := next) (s.arith_of_ok (fun u w => u * w) hp hq hd hr))
  exact ⟨t, hexec, (congrArg BitVec.toInt hvalue).trans (s32_u32_of_inRange hr), hframe⟩

theorem exec_rdw_of_memRead {a d next : Word} {s : State} {v : Word} (ha : isRegister a = true)
    (hd : isRegister d = true) (h : s.memRead (s32 (s.reg (s32 a).toNat)) 32 = .ok v) :
    exec (.rdw a d next) s = .next ((s.setReg (s32 d).toNat v).setPc next) := by
  change execRdw a d next s = _
  simp [execRdw, s.loadIndirect_of_ok ha hd h]

theorem exec_rds_of_memRead {a d next : Word} {s : State} {v : BitVec 2} (ha : isRegister a = true)
    (hd : isRegister d = true) (h : s.memRead (s32 (s.reg (s32 a).toNat)) 2 = .ok v) :
    exec (.rds a d next) s = .next ((s.setReg (s32 d).toNat (v.setWidth 32)).setPc next) := by
  change execRds a d next s = _
  simp [execRds, s.loadIndirect_of_ok ha hd h]

/-- Settles O20: the checked read of an aligned word in bounds, written to the destination. -/
theorem rdwReadsWord : Obligations.RdwReadsWord := fun _ _ _ s ha hd halign h0 hbound =>
  completes_of_setReg (toNat_lt_of_isRegister hd) (exec_rdw_of_memRead ha hd (s.memRead_word halign h0 hbound))

/-- A symbol zero-extended to a word is worth what its two bits are. -/
theorem toInt_setWidth_symbol (v : BitVec 2) : (v.setWidth 32).toInt = (v.toNat : Int) := by
  have hv := v.isLt
  rw [BitVec.toInt_setWidth, Int.bmod_eq_of_le] <;> omega

/-- Settles O21: the checked read of a symbol in bounds, zero-extended into the destination. -/
theorem rdsReadsSymbol : Obligations.RdsReadsSymbol := by
  intro a d next s ha hd addr heven h0 hbound hsymbol
  obtain ⟨t, hexec, hvalue, hframe⟩ := completes_of_setReg (toNat_lt_of_isRegister hd)
    (exec_rds_of_memRead (next := next) ha hd (s.memRead_sym heven h0 hbound hsymbol))
  exact ⟨t, hexec, (congrArg BitVec.toInt hvalue).trans (toInt_setWidth_symbol _), hframe⟩

/-- Settles O26: the dispatch that does not halt writes `x[1]` and goes to the bootstrap; the tape lies past the
registers. -/
theorem tmstateEntersBootstrap : Obligations.TmstateEntersBootstrap := by
  intro e s hp heven hbelow
  have hdispatch := State.tmDispatch_enters hp (s.headValid_iff.2 ⟨heven, hbelow⟩)
  have hexec : exec (.tmstate e) s = .next ((s.setReg activeStateReg s.pc).setPc bootstrapEntry) := by
    change s.conclude Opcode.tmstate (s.tmDispatch.map Prod.fst) = _
    rw [hdispatch]; rfl
  obtain ⟨t, ht, hreg, hregs, hpc, hctl, hlayout, hhead, hbytes⟩ := completes_of_setReg (by decide) hexec
  refine ⟨t, ht, hreg, hpc, hregs, hctl, hlayout, hhead, fun j => ?_, hbytes⟩
  rw [← Host.Outcome.next.inj (hexec.symm.trans ht), State.sym_setPc, State.sym_setReg _ _ _ _ (by decide)]

/-! CLRREGS, and the two ways to halt. -/

/-- Settles O16: every register is cleared before `pc` is written, and the bytes outside the register region keep all
their bits. -/
theorem clrregsClearsAllRegisters : Obligations.ClrregsClearsAllRegisters := by
  intro next s
  obtain ⟨-, -, hbound⟩ := s.layout.tapeBase_spec
  refine ⟨s.clearRegs.setPc next, rfl, fun j hj => ?registers, State.pc_setPc _ _,
    (State.setPc_ctl _ _).trans s.clearRegs_ctl, (State.setPc_layout _ _).trans s.clearRegs_layout, ?head,
    fun i hpc hregs => ?bytes⟩
  case registers => rw [State.reg_setPc, State.reg_clearRegs s j hj]
  case head =>
    rw [State.head_setPc, State.head, State.head, State.clearRegs_layout]
    refine State.bits_congr fun b hlo _ => s.bit_clearRegs_of_outside b (.inr ?_)
    unfold Layout.headOffset at hlo
    omega
  case bytes =>
    rw [State.byte_setPc_of_outside _ _ _ (by unfold inWord pcOffset at hpc; omega)]
    refine State.byte_congr fun b hb => s.bit_clearRegs_of_outside b ?_
    unfold Layout.inRegisters at hregs
    rw [Layout.regBase_eq, Layout.tapeBase_eq] at *
    omega

/-- Settles O24: HALT writes the control state and no byte. -/
theorem haltStopsTheMachine : Obligations.HaltStopsTheMachine := fun _ s =>
  ⟨s.halt, rfl, rfl, s.halt_pc, s.halt_layout, fun j => s.halt_reg j, fun i => s.halt_byte i⟩

/-- Settles O27: the halt test comes before the head check, and halting writes no byte. -/
theorem tmstateHaltsAtSentinel : Obligations.TmstateHaltsAtSentinel := fun e s hp =>
  ⟨s.halt, execTmstate_of_haltTest e hp, rfl, s.halt_layout, s.halt_pc, fun j => s.halt_reg j, fun i => s.halt_byte i⟩

/-! Stores (42_store_instructions R74, R76, 43_control_instructions R78). -/

section Stores
variable {a src next : Word} {s t : State} (ha : isRegister a = true) (hsrc : isRegister src = true)
include ha hsrc

theorem exec_wrw_of_memWrite
    (h : s.memWrite (s32 (s.reg (s32 a).toNat)) 32 (s32 (s.reg (s32 src).toNat)) = .ok t) :
    exec (.wrw a src next) s = .next (t.setPc next) := by
  change execWrw a src next s = _
  simp [execWrw, s.storeIndirect_of_isRegister 32 ha hsrc, h]

theorem exec_wrs_of_memWrite
    (h : s.memWrite (s32 (s.reg (s32 a).toNat)) 2 (s32 (s.reg (s32 src).toNat)) = .ok t) :
    exec (.wrs a src next) s = .next (t.setPc next) := by
  change execWrs a src next s = _
  simp [execWrs, s.storeIndirect_of_isRegister 2 ha hsrc, h]

theorem exec_ret_of_memWrite
    (h : s.memWrite (s32 (s.reg (s32 a).toNat)) 32 (s32 (s.reg (s32 src).toNat)) = .ok t) :
    exec (.ret a src next) s = .next t := by
  change execRet a src next s = _
  simp [execRet, s.storeIndirect_of_isRegister 32 ha hsrc, h]

end Stores

/-- A checked word write at an aligned address that names no layout word (20_memory R36). -/
theorem State.memWrite_word_of_ne (s : State) {a : Int} (w : Word) (halign : a % 32 = 0) (h0 : 0 < a)
    (hbound : a + 32 ≤ s.layout.bits) (htape : a ≠ s.layout.tapeBase) :
    s.memWrite a 32 (s32 w) = .ok (s.setBits a.toNat w) := by
  obtain ⟨htapeAlign, -, -⟩ := s.layout.tapeBase_spec
  rw [s.memWrite_word halign (by omega) hbound ((s.touchesLayout_eq_false _ _).2 (by omega)), u32_s32]

/-- Two aligned words are the same or apart. -/
theorem State.bits_setBits_of_word_ne (s : State) {a a' : Nat} (v : Word) (h : a % 32 = 0) (h' : a' % 32 = 0)
    (hne : a ≠ a') : (s.setBits a v).bits a' 32 = s.bits a' 32 :=
  s.bits_setBits_of_disjoint a v a' 32 (by omega)

/-- The write of an aligned word changes no byte outside it. -/
theorem State.byte_setBits_of_not_inWord (s : State) {a i : Nat} (v : Word) (h : a % 8 = 0) (hi : ¬inWord a i) :
    (s.setBits a v).byte i = s.byte i :=
  s.byte_setBits_of_outside a v i (by unfold inWord at hi; omega)

/-- The write of an aligned word leaves the registers it does not name. -/
theorem State.reg_setBits_of_word_ne (s : State) {a j : Nat} (v : Word) (h : a % 32 = 0) (hj : j < 16)
    (hne : a ≠ s.layout.regOffset j) : (s.setBits a v).reg j = s.reg j :=
  s.bits_setBits_of_word_ne v h (s.layout.regOffset_spec hj).1 hne

/-- Settles O22: the store writes an aligned word, and the write of `pc` after it another or the same. -/
theorem wrwWritesWord : Obligations.WrwWritesWord := by
  intro a src next s ha hsrc addr halign h0 hbound htape
  have hnat : addr.toNat % 32 = 0 := by omega
  have hwrite := s.memWrite_word_of_ne (a := addr) (s.reg (s32 src).toNat) halign h0 hbound htape
  refine ⟨_, exec_wrw_of_memWrite ha hsrc hwrite, fun hpc => ?stored, fun j hj hne => ?registers, fun hne => ?head,
    State.pc_setPc _ _, rfl, rfl, fun i hpc hword => ?bytes⟩
  case stored =>
    exact (State.bits_setBits_of_word_ne _ next (by decide) hnat (by unfold pcOffset; omega)).trans
      (s.bits_setBits_same _ _)
  case registers =>
    exact (State.reg_setPc _ j next).trans (s.reg_setBits_of_word_ne _ hnat hj (by omega))
  case head =>
    obtain ⟨htapeAlign, -, -⟩ := s.layout.tapeBase_spec
    have hheadAlign : s.layout.headOffset % 32 = 0 := by unfold Layout.headOffset; omega
    have hapart : addr.toNat ≠ s.layout.headOffset := by omega
    exact (State.head_setPc _ next).trans (s.bits_setBits_of_word_ne _ hnat hheadAlign hapart)
  case bytes =>
    exact (State.byte_setBits_of_not_inWord _ next (by decide) hpc).trans
      (s.byte_setBits_of_not_inWord _ (by omega) hword)

/-- The value of a symbol written is that of its two bits. -/
theorem toNat_ofInt_symbol {v : Int} (h : v = 0 ∨ v = 1 ∨ v = 2) : ((BitVec.ofInt 2 v).toNat : Int) = v := by
  obtain rfl | rfl | rfl := h <;> decide

/-- Settles O23: the store writes two bits apart from the layout words, and the write of `pc` after it those of `pc`. -/
theorem wrsWritesSymbol : Obligations.WrsWritesSymbol := by
  intro a src next s ha hsrc addr v heven h32 hbound htape hvalue
  obtain ⟨htapeAlign, -, -⟩ := s.layout.tapeBase_spec
  have hwrite := s.memWrite_sym heven (by omega) hbound ((s.touchesLayout_eq_false addr 2).2 (by omega)) hvalue
  refine ⟨_, exec_wrs_of_memWrite ha hsrc hwrite, fun hpast => ?stored, fun b hpc hb => ?bits, State.pc_setPc _ _, rfl, rfl,
    fun j hj hreg => ?registers, fun i hpc hi => ?bytes⟩
  case stored =>
    have hread : ((s.setBits addr.toNat (BitVec.ofInt 2 v)).setPc next).bits addr.toNat 2 = BitVec.ofInt 2 v :=
      (State.bits_setBits_of_disjoint _ _ next _ _ (by unfold pcOffset; omega)).trans (s.bits_setBits_same _ _)
    exact (congrArg (fun w : BitVec 2 => (w.toNat : Int)) hread).trans (toNat_ofInt_symbol hvalue)
  case bits =>
    rw [State.setPc, State.bit_setBits, if_neg (by unfold pcOffset; omega), State.bit_setBits, if_neg (by omega)]
  case registers =>
    obtain ⟨hregAlign, -, -⟩ := s.layout.regOffset_spec hj
    exact (State.reg_setPc _ j next).trans (s.bits_setBits_of_disjoint _ _ _ _ (by rw [State.setBits_layout]; omega))
  case bytes =>
    exact (State.byte_setBits_of_not_inWord _ next (by decide) hpc).trans
      (s.byte_setBits_of_outside _ _ i (by omega))

/-- Settles O25: RET is the store alone; address 32 is the word of `pc`, any other aligned word is apart from it. -/
theorem retStoresWithoutAdvancing : Obligations.RetStoresWithoutAdvancing := by
  intro a src next s ha hsrc addr halign h0 hbound htape
  have hnat : addr.toNat % 32 = 0 := by omega
  have hwrite := s.memWrite_word_of_ne (a := addr) (s.reg (s32 src).toNat) halign h0 hbound htape
  have hpc := State.pc_of_memWrite_word hwrite
  refine ⟨_, exec_ret_of_memWrite ha hsrc hwrite, s.bits_setBits_same _ _, fun h32 => ?jump, fun h32 => ?stay,
    fun j hj hne => s.reg_setBits_of_word_ne _ hnat hj (by omega), rfl, rfl,
    fun i hi => s.byte_setBits_of_not_inWord _ (by omega) hi⟩
  case jump => rw [hpc, if_pos h32, u32_s32]
  case stay => rw [hpc, if_neg h32]

/-- Settles O43: the bytes stored are those of `pc`, which the write of `next` covers. -/
theorem storeToPcIsLost : Obligations.StoreToPcIsLost := by
  intro a src next s ha hsrc addr v
  obtain ⟨-, hpast, hbound⟩ := s.layout.tapeBase_spec
  refine ⟨fun h32 => ?word, fun heven h32 h64 hvalue => ?symbol⟩
  case word =>
    have hwrite := s.memWrite_word_of_ne (a := addr) (s.reg (s32 src).toNat) (by omega) (by omega) (by omega) (by omega)
    refine ⟨_, exec_wrw_of_memWrite ha hsrc hwrite, State.pc_setPc _ _, rfl, rfl, fun i hi => ?_⟩
    rw [h32]
    exact (State.byte_setBits_of_not_inWord _ next (by decide) hi).trans
      (s.byte_setBits_of_not_inWord (a := pcOffset) _ (by decide) hi)
  case symbol =>
    have hwrite := s.memWrite_sym heven (by omega) (by omega) ((s.touchesLayout_eq_false addr 2).2 (by omega)) hvalue
    refine ⟨_, exec_wrs_of_memWrite ha hsrc hwrite, State.pc_setPc _ _, rfl, rfl, fun i hi => ?_⟩
    exact (State.byte_setBits_of_not_inWord _ next (by decide) hi).trans
      (s.byte_setBits_of_outside _ _ i (by unfold inWord pcOffset at hi; omega))

/-- A word written twice holds what it held after the first time. -/
theorem State.byte_setBits_again (s : State) (a : Nat) {n : Nat} (v : BitVec n) (i : Nat) :
    ((s.setBits a v).setBits a v).byte i = (s.setBits a v).byte i :=
  State.byte_congr fun b _ => by
    rw [State.bit_setBits]
    split_ifs with hb
    · rw [State.bit_setBits, if_pos hb]
    · rfl

/-- Settles O45: the store meets neither `pc`, nor the entry, nor the two registers, so the next step decodes the same RET
with the same address and value, and stores the same word again. -/
theorem retElsewhereRepeats : Obligations.RetElsewhereRepeats := by
  intro s a src next hr hpcAlign hpcBound hdecode ha hsrc addr halign h32 hbound htape hentry hnea hnesrc
  have hnat : addr.toNat % 32 = 0 := by omega
  have hstep {u : State} (hu : u.ctl = .running) (hpc : u.pc = s.pc) (hl : u.layout = s.layout)
      (hbytes : Memory.bytesOf u.mem (s.pc.toNat / 8) 20 = Memory.bytesOf s.mem (s.pc.toNat / 8) 20)
      (hrega : u.reg a.toInt.toNat = s.reg a.toInt.toNat) (hregsrc : u.reg src.toInt.toNat = s.reg src.toInt.toNat) :
      step u = .next (u.setBits addr.toNat (s.reg src.toInt.toNat)) := by
    rw [stepRunsDecodedInstruction u (.ret a src next) hu (by rwa [hpc]) (by rwa [hpc, hl]) (by rwa [hpc, hbytes])]
    refine exec_ret_of_memWrite ha hsrc ?_
    rw [hrega, hregsrc]
    exact u.memWrite_word_of_ne (a := addr) _ halign (by omega) (by rwa [hl]) (by rwa [hl])
  have hpc : (s.setBits addr.toNat (s.reg src.toInt.toNat)).pc = s.pc :=
    s.bits_setBits_of_word_ne _ hnat (by decide) (by unfold pcOffset; omega)
  have hbytes : Memory.bytesOf (s.setBits addr.toNat (s.reg src.toInt.toNat)).mem (s.pc.toNat / 8) 20 =
      Memory.bytesOf s.mem (s.pc.toNat / 8) 20 :=
    (Memory.bytesOf_eq_iff _ _ _ _ _).2 ⟨rfl, fun i hlo hhi =>
      s.byte_setBits_of_not_inWord _ (by omega) (by unfold inWord; omega)⟩
  have hkept {w : Word} (hw : isRegister w = true) (hne : addr ≠ s.layout.regOffset w.toInt.toNat) :
      (s.setBits addr.toNat (s.reg src.toInt.toNat)).reg w.toInt.toNat = s.reg w.toInt.toNat :=
    s.reg_setBits_of_word_ne _ hnat (toNat_lt_of_isRegister hw) (by omega)
  refine ⟨_, hstep hr rfl rfl rfl rfl rfl, hpc, hr, s.bits_setBits_same _ _, _,
    hstep hr hpc rfl hbytes (hkept ha hnea) (hkept hsrc hnesrc), ?_, hr, fun i => s.byte_setBits_again _ _ i⟩
  exact (State.bits_setBits_of_word_ne _ _ hnat (by decide) (by unfold pcOffset; omega)).trans hpc

/-! The host's operations keep the control state (45_host_interface R86, R97). -/

/-- Settles O59: each writing operation is one write of the buffer apart from the registers, and no reading one looks at
`ctl`. -/
theorem hostOperationsKeepCtl : Obligations.HostOperationsKeepCtl := by
  intro s t v c
  refine ⟨fun h => ?symbol, fun h => ?position, ⟨rfl, rfl, fun j => s.reg_setPc j _⟩, rfl, rfl, rfl, rfl, fun _ => rfl⟩
  case symbol =>
    obtain ⟨-, -, rfl⟩ := State.writeSymbolAtHead_ok h
    refine ⟨rfl, rfl, fun j hj => s.bits_setBits_of_disjoint _ _ _ _ (.inl ?_)⟩
    obtain ⟨-, -, htape⟩ := s.layout.regOffset_spec hj
    rw [State.setBits_layout]
    unfold Layout.symBase
    omega
  case position =>
    obtain ⟨-, -, rfl⟩ := State.setHeadPosition_ok h
    exact ⟨rfl, rfl, fun j hj => s.reg_setHead j _ hj⟩

end Sys2Proof.Machine
end

section
/-! Where instructions and fetches trap, in the order of their checks (60_exceptions R98, R102). -/

namespace Sys2Proof.Machine

/-! A computation that raises is a fault taken. -/

/-- An instruction that concludes a raised violation takes that fault. -/
theorem takesFault_of_conclude {i : Instr} {s : State} {op : Word} {r : Except Violation State} {v : Violation}
    (hexec : exec i s = s.conclude op r) (hr : r = .error v) : takesFault i s op v := by
  subst hr
  exact ⟨_, hexec, rfl, rfl, rfl⟩

/-- A violation raised before the write of `next` ends the instruction. -/
theorem then_setPc_error {r : Except Violation State} {next : Word} {v : Violation} (h : r = .error v) :
    (do let u ← r; Except.ok (u.setPc next)) = .error v := by
  subst h; rfl

section Computations
variable {s : State} {a d p q src : Word} {n : Nat} {v : Violation}

/-! Two operands read and a destination index, then the range (41_register_instructions R70, R71). -/

theorem State.arith_error_first (f : Int → Int → Int) (hp : isRegister p = false) :
    s.arith f p q d = .error (.registerIndex (s32 p)) := by
  simp [State.arith, s.readReg_of_not hp]

theorem State.arith_error_second (f : Int → Int → Int) (hp : isRegister p = true) (hq : isRegister q = false) :
    s.arith f p q d = .error (.registerIndex (s32 q)) := by
  simp [State.arith, s.readReg_of_isRegister hp, s.readReg_of_not hq]

theorem State.arith_error_destination (f : Int → Int → Int) (hp : isRegister p = true) (hq : isRegister q = true)
    (hd : isRegister d = false) : s.arith f p q d = .error (.registerIndex (s32 d)) := by
  simp [State.arith, s.readReg_of_isRegister hp, s.readReg_of_isRegister hq, regIndex_of_not hd]

theorem State.arith_error_range (f : Int → Int → Int) (hp : isRegister p = true) (hq : isRegister q = true)
    (hd : isRegister d = true) (hr : inRange (f (s32 (s.reg (s32 p).toNat)) (s32 (s.reg (s32 q).toNat))) = false) :
    s.arith f p q d = .error (.arithOverflow (f (s32 (s.reg (s32 p).toNat)) (s32 (s.reg (s32 q).toNat)))) := by
  simp [State.arith, s.readReg_of_isRegister hp, s.readReg_of_isRegister hq, regIndex_of_isRegister hd, narrow_of_not hr]

/-! The address register, then the other operand, then the access (42_store_instructions R73 to R76). -/

theorem State.loadIndirect_error_address (ha : isRegister a = false) :
    s.loadIndirect n a d = .error (.registerIndex (s32 a)) := by
  simp [State.loadIndirect, s.readAddr_of_not ha]

theorem State.loadIndirect_error_destination (ha : isRegister a = true) (hd : isRegister d = false) :
    s.loadIndirect n a d = .error (.registerIndex (s32 d)) := by
  simp [State.loadIndirect, s.readAddr_of_isRegister ha, regIndex_of_not hd]

theorem State.loadIndirect_error_access (ha : isRegister a = true) (hd : isRegister d = true)
    (h : s.memRead (s32 (s.reg (s32 a).toNat)) n = .error v) : s.loadIndirect n a d = .error v := by
  simp [State.loadIndirect, s.readAddr_of_isRegister ha, regIndex_of_isRegister hd, h]

theorem State.storeIndirect_error_address (ha : isRegister a = false) :
    s.storeIndirect n a src = .error (.registerIndex (s32 a)) := by
  simp [State.storeIndirect, s.readAddr_of_not ha]

theorem State.storeIndirect_error_source (ha : isRegister a = true) (hsrc : isRegister src = false) :
    s.storeIndirect n a src = .error (.registerIndex (s32 src)) := by
  simp [State.storeIndirect, s.readAddr_of_isRegister ha, s.readReg_of_not hsrc]

end Computations

/-! The register instructions. -/

/-- ADD and MUL conclude the same computation, each with its own operation and opcode. -/
theorem exec_add_or_mul {i : Instr} {op p q d next : Word} {r : Int} {s : State}
    (h : i = .add p q d next ∧ op = 7 ∧ r = (s.reg p.toInt.toNat).toInt + (s.reg q.toInt.toNat).toInt ∨
      i = .mul p q d next ∧ op = 6 ∧ r = (s.reg p.toInt.toNat).toInt * (s.reg q.toInt.toNat).toInt) :
    ∃ f : Int → Int → Int, r = f (s32 (s.reg (s32 p).toNat)) (s32 (s.reg (s32 q).toNat)) ∧
      exec i s = s.conclude op (do let t ← s.arith f p q d; .ok (t.setPc next)) := by
  obtain ⟨rfl, rfl, rfl⟩ | ⟨rfl, rfl, rfl⟩ := h
  · exact ⟨fun u w => u + w, rfl, rfl⟩
  · exact ⟨fun u w => u * w, rfl, rfl⟩

/-- Settles O28: LOADC makes one index check; ADD and MUL run one computation, which raises at the first check that
fails. -/
theorem registerInstructionFaults : Obligations.RegisterInstructionFaults := by
  intro v p q d next s
  refine ⟨fun hd => ?loadc, fun i op r hi => ?arith⟩
  case loadc =>
    have hindex := regIndex_of_not (Bool.eq_false_iff.2 hd)
    exact takesFault_of_conclude (op := Opcode.loadc) rfl (by rw [hindex]; rfl)
  case arith =>
    obtain ⟨f, rfl, hexec⟩ := exec_add_or_mul hi
    have hfault {v : Violation} (h : s.arith f p q d = .error v) : takesFault i s op v :=
      takesFault_of_conclude hexec (then_setPc_error h)
    refine ⟨fun hp => hfault (State.arith_error_first f (Bool.eq_false_iff.2 hp)),
      fun hp hq => hfault (State.arith_error_second f hp (Bool.eq_false_iff.2 hq)),
      fun hp hq hd => hfault (State.arith_error_destination f hp hq (Bool.eq_false_iff.2 hd)),
      fun hp hq hd hr => hfault (State.arith_error_range f hp hq hd (Bool.eq_false_iff.2 fun hin => ?_))⟩
    rw [inRange_iff] at hin
    omega

/-! The loads. -/

/-- Settles O29: both loads make the two index checks and then the checked read, in the read's own order. -/
theorem loadFaults : Obligations.LoadFaults := by
  intro a d next s addr
  have hrdw {v : Violation} (h : s.loadIndirect 32 a d = .error v) : takesFault (.rdw a d next) s 2 v :=
    takesFault_of_conclude (op := Opcode.rdw) rfl (then_setPc_error h)
  have hrds {v : Violation} (h : s.loadIndirect 2 a d = .error v) : takesFault (.rds a d next) s 4 v :=
    takesFault_of_conclude (op := Opcode.rds) rfl (then_setPc_error h)
  refine ⟨fun ha => ?address, fun ha hd => ?destination, fun ha hd => ?access⟩
  case address =>
    have ha := Bool.eq_false_iff.2 ha
    exact ⟨hrdw (State.loadIndirect_error_address ha), hrds (State.loadIndirect_error_address ha)⟩
  case destination =>
    have hd := Bool.eq_false_iff.2 hd
    exact ⟨hrdw (State.loadIndirect_error_destination ha hd), hrds (State.loadIndirect_error_destination ha hd)⟩
  case access =>
    have hword {v : Violation} (h : s.memRead addr 32 = .error v) : takesFault (.rdw a d next) s 2 v :=
      hrdw (State.loadIndirect_error_access ha hd h)
    have hsymbol {v : Violation} (h : s.memRead addr 2 = .error v) : takesFault (.rds a d next) s 4 v :=
      hrds (State.loadIndirect_error_access ha hd h)
    exact ⟨fun halign => hword (s.memRead_of_checkAccess_error (s.checkAccess_misalignedWord halign)),
      fun halign hbound => hword (s.memRead_of_checkAccess_error
        (s.checkAccess_outOfBounds (fun _ => halign) (by omega) hbound)),
      fun hodd => hsymbol (s.memRead_of_checkAccess_error (s.checkAccess_misalignedSymbol (.inl hodd))),
      fun heven hbound => hsymbol (s.memRead_of_checkAccess_error
        (s.checkAccess_outOfBounds (by omega) (by omega) hbound)),
      fun heven h0 hbound hpattern =>
        hsymbol (s.memRead_invalidPattern (s.checkAccess_sym heven h0 hbound) hpattern)⟩

/-! The stores. -/

section Stores
variable {s : State} {a src next : Word} {v : Violation}

theorem takesFault_wrw (h : s.storeIndirect 32 a src = .error v) : takesFault (.wrw a src next) s 3 v :=
  takesFault_of_conclude (op := Opcode.wrw) rfl (then_setPc_error h)

theorem takesFault_ret (h : s.storeIndirect 32 a src = .error v) : takesFault (.ret a src next) s 9 v :=
  takesFault_of_conclude (op := Opcode.ret) rfl h

theorem takesFault_wrs (h : s.storeIndirect 2 a src = .error v) : takesFault (.wrs a src next) s 5 v :=
  takesFault_of_conclude (op := Opcode.wrs) rfl (then_setPc_error h)

/-- WRW and RET make the same store. -/
theorem takesFault_word_store {i : Instr} {op : Word} (hi : i = .wrw a src next ∧ op = 3 ∨ i = .ret a src next ∧ op = 9)
    (h : s.storeIndirect 32 a src = .error v) : takesFault i s op v := by
  obtain ⟨rfl, rfl⟩ | ⟨rfl, rfl⟩ := hi
  · exact takesFault_wrw h
  · exact takesFault_ret h

/-- A violation that the index checks raise is raised by all three stores. -/
theorem takesFault_store {i : Instr} {op : Word}
    (hi : i = .wrw a src next ∧ op = 3 ∨ i = .ret a src next ∧ op = 9 ∨ i = .wrs a src next ∧ op = 5)
    (h : ∀ n, s.storeIndirect n a src = .error v) : takesFault i s op v := by
  obtain ⟨rfl, rfl⟩ | ⟨rfl, rfl⟩ | ⟨rfl, rfl⟩ := hi
  · exact takesFault_wrw (h 32)
  · exact takesFault_ret (h 32)
  · exact takesFault_wrs (h 2)

end Stores

/-- Settles O30: the stores make the two index checks and then the checked write, in the write's own order. -/
theorem storeFaults : Obligations.StoreFaults := by
  intro a src next s addr v
  refine ⟨fun i op hi => ⟨fun ha => ?address, fun ha hsrc => ?source⟩, fun ha hsrc => ?access⟩
  case address => exact takesFault_store hi fun _ => State.storeIndirect_error_address (Bool.eq_false_iff.2 ha)
  case source => exact takesFault_store hi fun _ => State.storeIndirect_error_source ha (Bool.eq_false_iff.2 hsrc)
  case access =>
    obtain ⟨htapeAlign, hpast, htapeBound⟩ := s.layout.tapeBase_spec
    have hstore (n : Nat) : s.storeIndirect n a src = s.memWrite addr n v := s.storeIndirect_of_isRegister n ha hsrc
    have hsymbol {x : Violation} (h : s.memWrite addr 2 v = .error x) : takesFault (.wrs a src next) s 5 x :=
      takesFault_wrs ((hstore 2).trans h)
    refine ⟨fun i op hi => ?word,
      fun hodd => hsymbol (s.memWrite_of_checkAccess_error (s.checkAccess_misalignedSymbol (.inl hodd))),
      fun heven hbound => hsymbol (s.memWrite_of_checkAccess_error
        (s.checkAccess_outOfBounds (by omega) (by omega) hbound)),
      fun heven hlayout => hsymbol (s.memWrite_layoutWord (s.checkAccess_sym heven (by omega) (by omega))
        ((s.touchesLayout_iff addr 2).2 (by omega))),
      fun heven h32 hbound hapart hvalue => hsymbol (s.memWrite_invalidValue (s.checkAccess_sym heven (by omega) hbound)
        ((s.touchesLayout_eq_false addr 2).2 (by omega)) hvalue)⟩
    have hword {x : Violation} (h : s.memWrite addr 32 v = .error x) : takesFault i s op x :=
      takesFault_word_store hi ((hstore 32).trans h)
    exact ⟨fun halign => hword (s.memWrite_of_checkAccess_error (s.checkAccess_misalignedWord halign)),
      fun halign hbound => hword (s.memWrite_of_checkAccess_error
        (s.checkAccess_outOfBounds (fun _ => halign) (by omega) hbound)),
      fun hlayout => hword (s.memWrite_layoutWord (s.checkAccess_word (by omega) (by omega) (by omega))
        ((s.touchesLayout_iff addr 32).2 (by omega)))⟩

/-! The dispatch. -/

/-- Settles O31: past the halt test, a head field that names no symbol raises HEAD_OUT_OF_TAPE. -/
theorem headOffTapeFaults : Obligations.HeadOffTapeFaults := by
  intro e s hp hoff
  have hinvalid := s.headValid_eq_false_iff.2 hoff
  obtain ⟨hhalt, -⟩ | ⟨-, hvalid, -⟩ | ⟨-, -, hd⟩ := s.tmDispatch_cases
  · exact absurd hhalt hp
  · rw [hinvalid] at hvalid; cases hvalid
  · exact takesFault_of_conclude (op := Opcode.tmstate) rfl (by rw [hd]; rfl)

/-! Fetching (40_step_loop R62, R63). -/

/-- Word `k` of the entry at an aligned `pc` is read where it lies in the buffer. -/
theorem State.memRead_entryWord {s : State} {k : Nat} (halign : s.pc.toNat % 32 = 0)
    (h : s.pc.toNat + 32 * k + 32 ≤ s.layout.bits) :
    s.memRead ((s.pc.toNat : Int) + (32 * k : Nat)) 32 = .ok (s.entryWord s.pc.toNat k) := by
  have hplace : ((s.pc.toNat : Int) + (32 * k : Nat)).toNat = s.pc.toNat + 32 * k := by omega
  rw [s.memRead_word (by omega) (by omega) (by omega), hplace]
  rfl

/-- Past the marker test, a fetch reads the words 1 to 4 in order and then looks at the opcode (40_step_loop R63). -/
theorem State.fetch_of_generic {s : State} (halign : s.pc.toNat % 32 = 0) (hbound : s.pc.toNat + 32 ≤ s.layout.bits)
    (hgeneric : s.entryWord s.pc.toNat 0 ≠ Opcode.tmstate) :
    s.fetch = (do
      let w1 ← raised (some (s.entryWord s.pc.toNat 0)) (s.memRead ((s.pc.toNat : Int) + (32 * 1 : Nat)) 32)
      let w2 ← raised (some (s.entryWord s.pc.toNat 0)) (s.memRead ((s.pc.toNat : Int) + (32 * 2 : Nat)) 32)
      let w3 ← raised (some (s.entryWord s.pc.toNat 0)) (s.memRead ((s.pc.toNat : Int) + (32 * 3 : Nat)) 32)
      let w4 ← raised (some (s.entryWord s.pc.toNat 0)) (s.memRead ((s.pc.toNat : Int) + (32 * 4 : Nat)) 32)
      match decodeWords (s.entryWord s.pc.toNat 0) w1 w2 w3 w4 with
      | .ok i => .ok i
      | .error _ => .error (some (s.entryWord s.pc.toNat 0), .illegalOpcode (s.entryWord s.pc.toNat 0))) := by
  have hopcode := State.memRead_entryWord (s := s) (k := 0) halign (by omega)
  rw [Nat.mul_zero, Nat.cast_zero, add_zero] at hopcode
  simp only [State.fetch, hopcode, raised_ok, except_ok_bind, if_neg hgeneric] <;> rfl

/-- A generic entry cut off by the buffer's end faults at the first word that does not fit, before its opcode is looked
at (40_step_loop R63, 60_exceptions R102). -/
theorem State.fetch_cutOff {s : State} {k : Nat} (halign : s.pc.toNat % 32 = 0)
    (hgeneric : s.entryWord s.pc.toNat 0 ≠ Opcode.tmstate) (h1 : 1 ≤ k) (h4 : k ≤ 4)
    (hfits : s.pc.toNat + 32 * k ≤ s.layout.bits) (hcut : s.layout.bits < s.pc.toNat + 32 * k + 32) :
    s.fetch = .error (some (s.entryWord s.pc.toNat 0), .outOfBounds (s.pc.toNat + 32 * k : Nat)) := by
  have hread (j : Nat) (hj : j < k) := State.memRead_entryWord (s := s) (k := j) halign (by omega)
  have hraise : s.memRead ((s.pc.toNat : Int) + (32 * k : Nat)) 32 = .error (.outOfBounds (s.pc.toNat + 32 * k : Nat)) :=
    s.memRead_of_checkAccess_error (s.checkAccess_outOfBounds (by omega) (by omega) (by omega))
  rw [State.fetch_of_generic halign (by omega) hgeneric]
  obtain rfl | rfl | rfl | rfl : k = 1 ∨ k = 2 ∨ k = 3 ∨ k = 4 := by omega
  · rw [hraise]; rfl
  · rw [hread 1 (by omega), hraise]; rfl
  · rw [hread 1 (by omega), hread 2 (by omega), hraise]; rfl
  · rw [hread 1 (by omega), hread 2 (by omega), hread 3 (by omega), hraise]; rfl

/-- A whole entry whose opcode word is 11 or more faults ILLEGAL_OPCODE (30_encoding R56). -/
theorem State.fetch_illegalOpcode {s : State} (halign : s.pc.toNat % 32 = 0)
    (hbound : s.pc.toNat + 160 ≤ s.layout.bits) (h : 11 ≤ (s.entryWord s.pc.toNat 0).toNat) :
    s.fetch = .error (some (s.entryWord s.pc.toNat 0), .illegalOpcode (s.entryWord s.pc.toNat 0)) := by
  have hgeneric : s.entryWord s.pc.toNat 0 ≠ Opcode.tmstate := fun hmarker => by
    rw [hmarker] at h; exact absurd h (by decide)
  rw [s.fetch_generic halign hbound hgeneric, decodeWords_of_illegal _ _ _ _ h]

/-- Settles O32: the fetch checks its words in order, and looks at the opcode when all five are read. -/
theorem fetchFaults : Obligations.FetchFaults := fun _ hr =>
  ⟨stepFaults_of_misaligned_pc hr, stepFaults_of_outOfBounds_pc hr,
    fun _ halign hgeneric h1 h4 hfits hcut =>
      stepFaults_of_fetch_error hr (State.fetch_cutOff halign hgeneric h1 h4 hfits hcut),
    fun halign hbound h => stepFaults_of_fetch_error hr (State.fetch_illegalOpcode halign hbound h)⟩

end Sys2Proof.Machine
end

section
/-! Running: the host's loop is the machine's iterated step, and what it counts (45_host_interface R92). -/

namespace Sys2Proof.Machine

/-! The iterated step. -/

theorem run_succ_of_step {s t : State} (k : Nat) (h : step s = .next t) :
    Sys2Proof.core.run (k + 1) s = Sys2Proof.core.run k t := by
  have hcore : Sys2Proof.core.step s = .next t := h
  simp only [Host.Core.run, hcore]

/-- A step after a run of `k` steps makes a run of `k + 1`. -/
theorem run_succ_of_run {s t u : State} {k : Nat} (hrun : Sys2Proof.core.run k s = .next t) (h : step t = .next u) :
    Sys2Proof.core.run (k + 1) s = .next u := by
  induction k generalizing s with
  | zero =>
    have hst : s = t := Host.Outcome.next.inj hrun
    rw [hst, run_succ_of_step 0 h]
    rfl
  | succ k ih =>
    obtain ⟨s', hs'⟩ := exists_step_next s
    rw [run_succ_of_step k hs'] at hrun
    rw [run_succ_of_step (k + 1) hs', ih hrun]

/-- A stopped machine is where it was, however many more steps are asked for. -/
theorem run_of_stopped {s : State} (h : s.ctl ≠ .running) (k : Nat) : Sys2Proof.core.run k s = .next s := by
  induction k with
  | zero => rfl
  | succ k ih => rw [run_succ_of_step k (step_of_stopped h), ih]

/-- A run that ended in a stopped machine ends there with any larger number of steps. -/
theorem run_add_of_stopped {s t : State} {k : Nat} (hrun : Sys2Proof.core.run k s = .next t) (h : t.ctl ≠ .running)
    (n : Nat) : Sys2Proof.core.run (k + n) s = .next t := by
  induction n with
  | zero => exact hrun
  | succ n ih => exact run_succ_of_run ih (step_of_stopped h)

/-! The loop of `run`. -/

/-- The machine of a run is the loop's, whatever the counters start at. -/
theorem State.machine_run (s : State) (k : Nat) (silent : Bool) : (s.run k silent).machine = (runLoop k s 0 0).1 := rfl

theorem State.steps_run (s : State) (k : Nat) (silent : Bool) : (s.run k silent).steps = (runLoop k s 0 0).2.1 := rfl

theorem State.transitions_run (s : State) (k : Nat) (silent : Bool) :
    (s.run k silent).transitions = (runLoop k s 0 0).2.2 := rfl

theorem State.outcome_run (s : State) (k : Nat) (silent : Bool) :
    (s.run k silent).outcome = (s.run k silent).machine.ctl.outcome := rfl

/-- One more step of budget for a running machine: the run from the next state, counted one step on, and one transition
on if the step is printable. -/
theorem runLoop_succ_of_running {s : State} (k : Nat) (h : s.ctl = .running) :
    runLoop (k + 1) s 0 0 = ((runLoop k s.hostStep.1 0 0).1, 1 + (runLoop k s.hostStep.1 0 0).2.1,
      (if s.hostStep.2 then 1 else 0) + (runLoop k s.hostStep.1 0 0).2.2) := by
  rw [runLoop_of_running k 0 0 h, runLoop_shift]

/-- Settles O51: the loop and the iterated step take the same steps, and neither leaves a stopped machine. -/
theorem runIsIteratedStep : Obligations.RunIsIteratedStep := by
  intro k s silent
  rw [State.machine_run]
  induction k generalizing s with
  | zero => rfl
  | succ k ih =>
    by_cases hr : s.ctl = .running
    · obtain ⟨t, ht⟩ := exists_step_next s
      rw [run_succ_of_step k ht, ih, runLoop_succ_of_running k hr, State.hostStep_of_next ht]
    · rw [run_of_stopped hr, runLoop_of_stopped _ _ _ hr]

/-- What the loop counts: at most the budget, all of it where the machine still runs, and no more transitions than steps.
-/
theorem runLoop_counts (k : Nat) (s : State) :
    (runLoop k s 0 0).2.1 ≤ k ∧ (runLoop k s 0 0).2.2 ≤ (runLoop k s 0 0).2.1 ∧
      ((runLoop k s 0 0).1.ctl = .running → (runLoop k s 0 0).2.1 = k) := by
  induction k generalizing s with
  | zero => exact ⟨le_refl _, le_refl _, fun _ => rfl⟩
  | succ k ih =>
    by_cases hr : s.ctl = .running
    · obtain ⟨hsteps, htransitions, hspent⟩ := ih s.hostStep.1
      have hshown : (if s.hostStep.2 then 1 else 0) ≤ 1 := by split_ifs <;> omega
      rw [runLoop_succ_of_running k hr]
      simp only
      exact ⟨by omega, by omega, fun hrunning => by rw [hspent hrunning]; omega⟩
    · rw [runLoop_of_stopped _ _ _ hr]
      exact ⟨Nat.zero_le _, le_refl _, fun hrunning => absurd hrunning hr⟩

/-- Settles O52: the loop's counts, its outcome read off the control state, and its one-step recurrence. -/
theorem runCountsAndOutcome : Obligations.RunCountsAndOutcome := by
  intro k s silent
  obtain ⟨hsteps, htransitions, hspent⟩ := runLoop_counts k s
  refine ⟨hsteps, htransitions, fun hr => ⟨?budget, hspent hr⟩, fun hh => ?halted, fun f hf => ?faulted,
    fun hr => ?stopped, fun hr => ?running⟩
  case budget => rw [State.outcome_run, hr]; rfl
  case halted => rw [State.outcome_run, hh]; rfl
  case faulted => rw [State.outcome_run, hf]; rfl
  case stopped =>
    rw [State.steps_run, State.transitions_run, State.machine_run, runLoop_of_stopped k 0 0 hr]
    exact ⟨rfl, rfl, rfl⟩
  case running =>
    simp only [State.steps_run, State.transitions_run, State.machine_run, runLoop_succ_of_running k hr, and_self]

end Sys2Proof.Machine
end

section
/-! Images: saving and loading (45_host_interface R94, 70_reset_and_hazards R112). -/

namespace Sys2Proof.Machine

/-- Every byte of the image is the buffer's byte at its place (45_host_interface R94). -/
theorem State.getElem?_toBytes (s : State) (i : Nat) :
    s.toBytes[i]? = if i < s.layout.size then some (s.byte i) else none := by
  rw [State.toBytes, Memory.getElem?_bytesOf, Nat.zero_add]
  rfl

theorem State.length_toBytes (s : State) : s.toBytes.length = s.layout.size := Memory.length_bytesOf _ _ _

/-- The image of a machine inside its buffer holds the whole memory. -/
theorem State.ofBytes_toBytes {s : State} (hwf : Memory.wf s.mem = true)
    (hbelow : Memory.below s.mem s.layout.size = true) : Memory.ofBytes s.toBytes = s.mem := by
  refine Memory.ext_of_wf (Memory.wf_ofBytes _) hwf fun i => ?_
  rw [Memory.byte_ofBytes, List.getD_eq_getElem?_getD, State.getElem?_toBytes]
  split_ifs with hi
  · rfl
  · exact (Memory.byte_of_below hbelow (by omega)).symm

/-- An image is accepted where it has the size of a legal layout whose two word counts stand in their places
(70_reset_and_hazards R112). -/
theorem imageLayout_of_layout {bytes : List Byte} {y : Layout} (hy : y.wf = true) (hsize : bytes.length = y.size)
    (hcount : imageWord bytes 0 = y.wordCount)
    (htape : imageWord bytes (4 * y.wordCount + 4 * maxRegs) = y.tapeWordCount) : imageLayout bytes = .ok y := by
  obtain ⟨hmod, hbits⟩ := y.wf_iff.1 hy
  have hwords : y.wordCount = 2 + 5 * y.entries := rfl
  have htapeWords : y.tapeWordCount = 2 + y.tapeLen / 16 := rfl
  have hsum : y.size = 4 * y.wordCount + 4 * maxRegs + 4 * y.tapeWordCount := rfl
  have hbitsEq : y.bits = 8 * y.size := rfl
  unfold imageLayout
  simp only [hsize, hcount, htape]
  rw [if_neg (by omega), if_neg (by unfold maxBits; omega), if_neg (by omega), if_neg (by omega), if_neg (by omega)]
  have hentries : (y.wordCount - 2) / 5 = y.entries := by omega
  have htapeLen : 16 * (y.tapeWordCount - 2) = y.tapeLen := by omega
  rw [hentries, htapeLen]

/-- The layout words of a machine that meets the invariant, as numbers: both fit their words (10_state R15, R22). -/
theorem State.layoutWords_toNat {s : State} (h : s.wf = true) :
    (s.bits 0 32).toNat = s.layout.wordCount ∧ (s.bits s.layout.tapeBase 32).toNat = s.layout.tapeWordCount := by
  obtain ⟨hlayout, -, -, hcount, htape⟩ := s.wf_iff.1 h
  obtain ⟨-, hbits⟩ := s.layout.wf_iff.1 hlayout
  have hsum : s.layout.bits = 8 * (4 * s.layout.wordCount + 4 * maxRegs + 4 * s.layout.tapeWordCount) := rfl
  have hfits : s.layout.wordCount < 2 ^ 32 ∧ s.layout.tapeWordCount < 2 ^ 32 := by omega
  constructor
  · exact (congrArg BitVec.toNat hcount).trans (by rw [BitVec.toNat_ofNat, Nat.mod_eq_of_lt hfits.1])
  · rw [htape, BitVec.toNat_ofNat, Nat.mod_eq_of_lt hfits.2]

/-- Settles O53: the image holds the whole memory, so load reads the layout's own word counts off it and builds the same
memory. -/
theorem savedMachineLoadsBack : Obligations.SavedMachineLoadsBack := by
  intro s h
  obtain ⟨hlayout, hcanonical, hbelow, -⟩ := s.wf_iff.1 h
  obtain ⟨hcount, htape⟩ := State.layoutWords_toNat h
  have hmem := State.ofBytes_toBytes hcanonical hbelow
  have hplace : 8 * (4 * s.layout.wordCount + 4 * maxRegs) = s.layout.tapeBase := by
    unfold Layout.tapeBase Layout.regBase; omega
  have himage : imageLayout s.toBytes = .ok s.layout := by
    refine imageLayout_of_layout hlayout s.length_toBytes ?_ ?_
    · rw [imageWord, hmem]; exact hcount
    · rw [imageWord, hmem, hplace]; exact htape
  refine ⟨s.length_toBytes, fun i hi => by rw [State.getElem?_toBytes, if_pos hi], ?_⟩
  rw [loadFromBytes, himage, except_ok_bind, hmem]

/-- A loaded machine meets the invariant: the layout was read off the image's own words. -/
theorem wf_of_loadFromBytes {bytes : List Byte} {s : State} (h : loadFromBytes bytes = .ok s) : s.wf = true := by
  obtain ⟨y, himage, rfl⟩ := loadFromBytes_ok h
  obtain ⟨hsize, hlayout, hcount, htape⟩ := imageLayout_ok himage
  have hplace : 8 * (4 * y.wordCount + 4 * maxRegs) = y.tapeBase := by
    unfold Layout.tapeBase Layout.regBase; omega
  rw [State.wf_iff]
  refine ⟨hlayout, Memory.wf_ofBytes bytes, ?_, ?_, ?_⟩
  · rw [hsize]; exact Memory.below_ofBytes bytes
  · rw [← hcount, imageWord, BitVec.ofNat_toNat, BitVec.setWidth_eq]; rfl
  · rw [← htape, imageWord, hplace, BitVec.ofNat_toNat, BitVec.setWidth_eq]; rfl

/-- Saving a loaded machine gives the image back. -/
theorem toBytes_of_loadFromBytes {bytes : List Byte} {s : State} (h : loadFromBytes bytes = .ok s) :
    s.layout.size = bytes.length ∧ s.toBytes = bytes := by
  obtain ⟨y, himage, rfl⟩ := loadFromBytes_ok h
  obtain ⟨hsize, -⟩ := imageLayout_ok himage
  refine ⟨hsize, List.ext_getElem? fun i => ?_⟩
  rw [State.getElem?_toBytes, State.byte, Memory.byte_ofBytes, hsize]
  split_ifs with hi
  · simp [hi]
  · rw [List.getElem?_eq_none (by omega)]

/-- The exact conditions on an image for it to have a layout (70_reset_and_hazards R112). -/
theorem exists_imageLayout_iff (bytes : List Byte) :
    (∃ y, imageLayout bytes = .ok y) ↔
      8 ≤ bytes.length ∧ bytes.length % 4 = 0 ∧ 8 * bytes.length ≤ 2 ^ 31 ∧ 2 ≤ imageWord bytes 0 ∧
        (imageWord bytes 0 - 2) % 5 = 0 ∧ 4 * imageWord bytes 0 + 64 + 8 ≤ bytes.length ∧
        2 ≤ imageWord bytes (4 * imageWord bytes 0 + 64) ∧
        4 * imageWord bytes 0 + 64 + 4 * imageWord bytes (4 * imageWord bytes 0 + 64) = bytes.length := by
  have hregs : 4 * maxRegs = 64 := rfl
  have hmax : maxBits = 2 ^ 31 := rfl
  have hrefused {P : Prop} (h : ¬P) : (∃ _ : Layout, False) ↔ P := iff_of_false (fun ⟨_, hy⟩ => hy) h
  unfold imageLayout
  simp only [hregs, hmax]
  split_ifs with h1 h2 h3 h4 h5
  · exact hrefused (by omega)
  · exact hrefused (by omega)
  · exact hrefused (by omega)
  · exact hrefused (by omega)
  · exact hrefused (by omega)
  · exact iff_of_true ⟨_, rfl⟩ (by omega)

/-- Every check of load that fails answers LOAD_FAILURE. -/
theorem imageLayout_error {bytes : List Byte} {e : HostError} (h : imageLayout bytes = .error e) : e = .loadFailure := by
  unfold imageLayout at h
  simp only at h
  split_ifs at h
  all_goals exact (Except.error.inj h).symm

/-- Load succeeds where the image has a layout, and fails as the layout's checks do. -/
theorem loadFromBytes_eq (bytes : List Byte) :
    loadFromBytes bytes = match imageLayout bytes with
      | .ok y => .ok { layout := y, mem := Memory.ofBytes bytes, ctl := .running }
      | .error e => .error e := by
  unfold loadFromBytes
  cases imageLayout bytes <;> rfl

/-- Settles O54: load checks the layout alone, and what it builds holds the image. -/
theorem loadedMachineHoldsTheImage : Obligations.LoadedMachineHoldsTheImage := by
  refine ⟨fun bytes s h => ?loaded, fun bytes => ⟨?accepted, fun e h => ?refused⟩⟩
  case loaded =>
    obtain ⟨hsize, hbytes⟩ := toBytes_of_loadFromBytes h
    obtain ⟨y, -, hs⟩ := loadFromBytes_ok h
    exact ⟨wf_of_loadFromBytes h, by rw [hs], hsize, hbytes⟩
  case accepted =>
    have hload : (∃ s, loadFromBytes bytes = .ok s) ↔ ∃ y, imageLayout bytes = .ok y := by
      rw [loadFromBytes_eq]
      cases imageLayout bytes with
      | ok y => exact iff_of_true ⟨_, rfl⟩ ⟨y, rfl⟩
      | error e => simp
    rw [hload, exists_imageLayout_iff]
    simp only [imageWord_eq]
  case refused =>
    rw [loadFromBytes_eq] at h
    cases himage : imageLayout bytes with
    | ok y => rw [himage] at h; cases h
    | error e' =>
      rw [himage] at h
      cases h
      rw [imageLayout_error himage]
      exact ⟨rfl, rfl⟩

end Sys2Proof.Machine
end

section
/-! Construction: the arguments it accepts and the machine it writes (70_reset_and_hazards R111). -/

namespace Sys2Proof.Machine

/-! The arguments. -/

/-- The characters that stand for a symbol (70_reset_and_hazards R111). -/
theorem charSymbol_isSome_iff (c : Char) : (charSymbol c).isSome = true ↔ c = '0' ∨ c = '1' ∨ c = '_' ∨ c = ' ' := by
  unfold charSymbol
  split_ifs with h0 h1 h2 h3
  · simp [h0]
  · simp [h1]
  · simp [h2]
  · simp [h3]
  · simp [h0, h1, h2, h3]

/-- An input has symbols where each of its characters has one. -/
theorem inputSymbols_isSome_iff (input : List Char) :
    (∃ symbols, inputSymbols input = some symbols) ↔ ∀ c ∈ input, c = '0' ∨ c = '1' ∨ c = '_' ∨ c = ' ' := by
  induction input with
  | nil => exact iff_of_true ⟨[], rfl⟩ (by simp)
  | cons c rest ih =>
    rw [List.forall_mem_cons, ← ih, ← charSymbol_isSome_iff]
    constructor
    · rintro ⟨symbols, h⟩
      obtain ⟨x, hx, h⟩ := Option.bind_eq_some_iff.1 h
      obtain ⟨xs, hxs, -⟩ := Option.bind_eq_some_iff.1 h
      exact ⟨by rw [hx]; rfl, xs, hxs⟩
    · rintro ⟨hc, xs, hxs⟩
      obtain ⟨x, hx⟩ := Option.isSome_iff_exists.1 hc
      exact ⟨x :: xs, by rw [inputSymbols, hx, hxs]; rfl⟩

/-- Symbol `k` of an input is that of its character `k`. -/
theorem getElem?_inputSymbols {input : List Char} {symbols : List (BitVec 2)} (h : inputSymbols input = some symbols)
    (k : Nat) : symbols[k]? = input[k]?.bind charSymbol := by
  induction input generalizing symbols k with
  | nil => cases h; rfl
  | cons c rest ih =>
    obtain ⟨x, hx, h⟩ := Option.bind_eq_some_iff.1 h
    obtain ⟨xs, hxs, h⟩ := Option.bind_eq_some_iff.1 h
    cases h
    cases k with
    | zero => simp [hx]
    | succ k => simpa using ih hxs k

/-- A row's requirements, written out (70_reset_and_hazards R111). -/
theorem TableRow.valid_iff (r : TableRow) (n : Nat) :
    r.valid n = true ↔
      (0 ≤ r.w0 ∧ r.w0 ≤ 2) ∧ (0 ≤ r.w1 ∧ r.w1 ≤ 2) ∧ (0 ≤ r.w2 ∧ r.w2 ≤ 2) ∧
      (0 ≤ r.d0 ∧ r.d0 ≤ 2) ∧ (0 ≤ r.d1 ∧ r.d1 ≤ 2) ∧ (0 ≤ r.d2 ∧ r.d2 ≤ 2) ∧
      (0 ≤ r.n0 ∧ r.n0 ≤ n) ∧ (0 ≤ r.n1 ∧ r.n1 ≤ n) ∧ (0 ≤ r.n2 ∧ r.n2 ≤ n) := by
  simp [TableRow.valid, and_assoc]

/-- The size of a constructed machine in bits (20_memory R41). -/
theorem constructLayout_bits (n : Nat) {len : Nat} (h : len % 16 = 0) :
    (constructLayout n len).bits = 8 * (720 + 20 * n + len / 4) := by
  rw [Layout.bits, (bufferSizeInClosedForm.2 n len h).2]

/-- The requirements on the arguments but those on the input, written out (70_reset_and_hazards R111). -/
theorem constructValid_iff (table : List TableRow) (len start headPos : Int) :
    constructValid table len start headPos = true ↔
      1 ≤ table.length ∧ (∀ r ∈ table, r.valid table.length = true) ∧ len % 16 = 0 ∧ 16 ≤ len ∧ 0 ≤ start ∧
        start < table.length ∧ 0 ≤ headPos ∧ headPos < len ∧ (constructLayout table.length len.toNat).bits ≤ 2 ^ 31 := by
  simp [constructValid, maxBits, and_assoc]

/-- Construction answers one error (log entry 9). -/
theorem construct_error {table : List TableRow} {len start headPos inputPos : Int} {input : List Char} {e : HostError}
    (h : construct table len start headPos input inputPos = .error e) : e = .hostArgument .construction := by
  unfold construct at h
  split at h
  · exact (Except.error.inj h).symm
  · split at h
    · cases h
    · exact (Except.error.inj h).symm

/-- The machine of construction's image, for arguments that need not be valid. -/
def constructedState (table : List TableRow) (len start headPos : Nat) (symbols : List (BitVec 2)) (inputPos : Nat) :
    State where
  layout := constructLayout table.length len
  mem := Memory.ofBytes (constructImage table len start headPos symbols inputPos)
  ctl := .running

/-- Construction succeeds where the input has symbols that fit and the other arguments are valid. -/
theorem exists_construct_iff (table : List TableRow) (len start headPos : Int) (input : List Char) (inputPos : Int) :
    (∃ s, construct table len start headPos input inputPos = .ok s) ↔
      (∃ symbols, inputSymbols input = some symbols) ∧ constructValid table len start headPos = true ∧ 0 ≤ inputPos ∧
        inputPos + input.length ≤ len := by
  constructor
  · rintro ⟨s, h⟩
    obtain ⟨symbols, hsymbols, hvalid, hpos, hfits, -⟩ := construct_ok h
    rw [length_inputSymbols hsymbols] at hfits
    exact ⟨⟨symbols, hsymbols⟩, hvalid, hpos, hfits⟩
  · rintro ⟨⟨symbols, hsymbols⟩, hvalid, hpos, hfits⟩
    rw [← length_inputSymbols hsymbols] at hfits
    refine ⟨constructedState table len.toNat start.toNat headPos.toNat symbols inputPos.toNat, ?_⟩
    unfold construct
    rw [hsymbols]
    exact if_pos ⟨hvalid, hpos, hfits⟩

/-- Settles O55: the two checks of construction, each written out; the size limit in the closed form of the layout. -/
theorem constructAcceptsExactlyValidArguments : Obligations.ConstructAcceptsExactlyValidArguments := by
  intro table len start headPos input inputPos
  refine ⟨?_, fun e h => construct_error h⟩
  rw [exists_construct_iff, inputSymbols_isSome_iff, constructValid_iff]
  simp only [TableRow.valid_iff]
  constructor
  · rintro ⟨hchars, ⟨hrows, htable, hmod, hlen, hs0, hs1, hh0, hh1, hbits⟩, hpos, hfits⟩
    rw [constructLayout_bits _ (by omega)] at hbits
    exact ⟨hrows, htable, hmod, hlen, hs0, hs1, hh0, hh1, hchars, hpos, hfits, by omega⟩
  · rintro ⟨hrows, htable, hmod, hlen, hs0, hs1, hh0, hh1, hchars, hpos, hfits, hbits⟩
    refine ⟨hchars, ⟨hrows, htable, hmod, hlen, hs0, hs1, hh0, hh1, ?_⟩, hpos, hfits⟩
    rw [constructLayout_bits _ (by omega)]
    omega

/-! The machine written. -/

theorem reset_eq_constructedState : State.reset = constructedState [] 16 0 0 [] 0 := rfl

/-- Construction answers the machine of its image. -/
theorem eq_constructedState_of_construct {table : List TableRow} {len start headPos inputPos : Int} {input : List Char}
    {s : State} (h : construct table len start headPos input inputPos = .ok s) :
    ∃ symbols, inputSymbols input = some symbols ∧ constructValid table len start headPos = true ∧ 0 ≤ inputPos ∧
      inputPos + symbols.length ≤ len ∧
      s = constructedState table len.toNat start.toNat headPos.toNat symbols inputPos.toNat := by
  obtain ⟨symbols, hsymbols, hvalid, hpos, hfits, hlayout, hctl, hmem⟩ := construct_ok h
  refine ⟨symbols, hsymbols, hvalid, hpos, hfits, ?_⟩
  obtain ⟨layout, mem, ctl⟩ := s
  cases hlayout
  cases hctl
  cases hmem
  rfl

/-- The entries of a constructed machine: the bootstrap, the states, the halt entry (70_reset_and_hazards R111). -/
def constructedEntries (table : List TableRow) : List Instr :=
  bootstrap ++ (table.map fun r => .tmstate r.transition) ++ [.tmstate haltTransition]

theorem tableBytes_eq (table : List TableRow) (len start : Nat) :
    tableBytes table len start =
      wordBytes (BitVec.ofNat 32 (constructLayout table.length len).wordCount) ++
        (wordBytes (stateWord start) ++ (constructedEntries table).flatMap encode) := by
  simp [tableBytes, constructedEntries, List.flatMap_append, List.flatMap_map, List.append_assoc]

theorem constructedEntries_bootstrap (table : List TableRow) {k : Nat} (h : k < bootLen) :
    (constructedEntries table)[k]? = bootstrap[k]? := by
  have hk : k < bootstrap.length := by rw [length_bootstrap]; exact h
  rw [constructedEntries, List.append_assoc, List.getElem?_append_left hk]

theorem constructedEntries_state {table : List TableRow} {k : Nat} {r : TableRow} (h : table[k]? = some r) :
    (constructedEntries table)[bootLen + k]? = some (.tmstate r.transition) := by
  obtain ⟨hk, -⟩ := List.getElem?_eq_some_iff.1 h
  rw [constructedEntries, List.append_assoc, List.getElem?_append_right (by rw [length_bootstrap]; omega),
    length_bootstrap, Nat.add_sub_cancel_left, List.getElem?_append_left (by rwa [List.length_map]), List.getElem?_map, h]
  rfl

theorem constructedEntries_halt (table : List TableRow) :
    (constructedEntries table)[bootLen + table.length]? = some (.tmstate haltTransition) := by
  have hlength : (bootstrap ++ table.map fun r => Instr.tmstate r.transition).length = bootLen + table.length := by
    rw [List.length_append, List.length_map, length_bootstrap]
  rw [constructedEntries, List.getElem?_append_right (by rw [hlength]), hlength, Nat.sub_self]
  rfl

/-- Word `j` of entry `k` of a list of entries laid out one after the other (30_encoding R49, R50). -/
theorem Memory.rawRead_entries (pre rest : List Byte) (l : List Instr) {k j : Nat} {i : Instr} {w : Word}
    (hk : l[k]? = some i) (hj : (encodeWords i)[j]? = some w) :
    Memory.rawRead (Memory.ofBytes (pre ++ (l.flatMap encode ++ rest))) (8 * pre.length + 160 * k + 32 * j) 32 = w := by
  obtain ⟨hlt, rfl⟩ := List.getElem?_eq_some_iff.1 hk
  have hsplit : l = l.take k ++ l[k] :: l.drop (k + 1) := by rw [List.getElem_cons_drop, List.take_append_drop]
  have hbefore : (pre ++ (l.take k).flatMap encode).length = pre.length + 20 * k := by
    rw [List.length_append, length_flatMap_encode, List.length_take, Nat.min_eq_left (Nat.le_of_lt hlt)]
  have hread := Memory.rawRead_entry_at (pre ++ (l.take k).flatMap encode) l[k]
    ((l.drop (k + 1)).flatMap encode ++ rest) j w hj
  have hbytes : pre ++ (l.flatMap encode ++ rest) =
      pre ++ (l.take k).flatMap encode ++ (encode l[k] ++ ((l.drop (k + 1)).flatMap encode ++ rest)) := by
    conv_lhs => rw [hsplit]
    simp only [List.flatMap_append, List.flatMap_cons, List.append_assoc]
  rw [hbytes, show 8 * pre.length + 160 * k + 32 * j = 8 * (pre.length + 20 * k) + 32 * j by omega, ← hbefore]
  exact hread

section Constructed
variable (table : List TableRow) (len start headPos : Nat) (symbols : List (BitVec 2)) (inputPos : Nat)

theorem constructedState_bits (a n : Nat) : (constructedState table len start headPos symbols inputPos).bits a n =
    Memory.rawRead (Memory.ofBytes (constructImage table len start headPos symbols inputPos)) a n := rfl

theorem constructedState_layout :
    (constructedState table len start headPos symbols inputPos).layout = constructLayout table.length len := rfl

/-- The header's first word is the word count (10_state R15). -/
theorem constructedState_wordCount : (constructedState table len start headPos symbols inputPos).bits 0 32 =
    BitVec.ofNat 32 (constructLayout table.length len).wordCount := by
  rw [constructedState_bits, constructImage, tableBytes_eq]
  simp only [List.append_assoc]
  exact Memory.rawRead_ofBytes_word _ _

/-- `pc` is the start state's offset. -/
theorem constructedState_pc : (constructedState table len start headPos symbols inputPos).pc = stateWord start := by
  have hread := Memory.rawRead_word_at (wordBytes (BitVec.ofNat 32 (constructLayout table.length len).wordCount))
    (stateWord start) ((constructedEntries table).flatMap encode ++
      (registerBytes table.length ++ tapeBytes table.length len headPos symbols inputPos))
  rw [State.pc, constructedState_bits, constructImage, tableBytes_eq]
  simp only [List.append_assoc]
  exact hread

/-- The entries stand in their places (30_encoding R50). -/
theorem constructedState_entryWord {k j : Nat} {i : Instr} {w : Word} (hk : (constructedEntries table)[k]? = some i)
    (hj : (encodeWords i)[j]? = some w) :
    (constructedState table len start headPos symbols inputPos).entryWord (entryOffset k) j = w := by
  have hread := Memory.rawRead_entries
    (wordBytes (BitVec.ofNat 32 (constructLayout table.length len).wordCount) ++ wordBytes (stateWord start))
    (registerBytes table.length ++ tapeBytes table.length len headPos symbols inputPos) (constructedEntries table) hk hj
  have hplace : 8 * (4 + 4) + 160 * k + 32 * j = entryOffset k + 32 * j := by unfold entryOffset; omega
  rw [State.entryWord, constructedState_bits, constructImage, tableBytes_eq]
  simpa only [List.append_assoc, List.length_append, length_wordBytes, hplace] using hread

theorem constructedState_entryWords {k : Nat} {i : Instr} (hk : (constructedEntries table)[k]? = some i) :
    (constructedState table len start headPos symbols inputPos).entryWords (entryOffset k) = encodeWords i := by
  obtain ⟨w0, w1, w2, w3, w4, hwords⟩ := exists_encodeWords_eq i
  have hword (j : Nat) (w : Word) (hj : [w0, w1, w2, w3, w4][j]? = some w) :=
    constructedState_entryWord table len start headPos symbols inputPos hk (hwords.symm ▸ hj)
  rw [State.entryWords, hwords, hword 0 w0 rfl, hword 1 w1 rfl, hword 2 w2 rfl, hword 3 w3 rfl, hword 4 w4 rfl]

/-- A read at or past the registers reads the register and tape bytes. -/
theorem constructedState_bits_regBase (a n : Nat) :
    (constructedState table len start headPos symbols inputPos).bits
        ((constructLayout table.length len).regBase + a) n =
      Memory.rawRead (Memory.ofBytes
        (registerBytes table.length ++ tapeBytes table.length len headPos symbols inputPos)) a n := by
  have hplace : (constructLayout table.length len).regBase = 8 * (tableBytes table len start).length := by
    rw [length_tableBytes]; unfold Layout.regBase; omega
  rw [constructedState_bits, constructImage, List.append_assoc, hplace, Memory.rawRead_ofBytes_append]

/-- A read at or past the tape header reads the tape bytes. -/
theorem constructedState_bits_tapeBase (a n : Nat) :
    (constructedState table len start headPos symbols inputPos).bits
        ((constructLayout table.length len).tapeBase + a) n =
      Memory.rawRead (Memory.ofBytes (tapeBytes table.length len headPos symbols inputPos)) a n := by
  have hplace : (constructLayout table.length len).tapeBase =
      (constructLayout table.length len).regBase + 8 * (registerBytes table.length).length := by
    rw [length_registerBytes]; unfold Layout.tapeBase; omega
  rw [hplace, Nat.add_assoc, constructedState_bits_regBase, Memory.rawRead_ofBytes_append]

/-- `x[0]` is the halt entry's offset (10_state R21). -/
theorem constructedState_reg_zero :
    (constructedState table len start headPos symbols inputPos).reg 0 = stateWord table.length := by
  have hread := constructedState_bits_regBase table len start headPos symbols inputPos 0 32
  rw [registerBytes, List.append_assoc, Memory.rawRead_ofBytes_word] at hread
  exact hread

/-- The other registers are 0 (10_state R21). -/
theorem constructedState_reg_of_pos {j : Nat} (h1 : 1 ≤ j) (h16 : j < 16) :
    (constructedState table len start headPos symbols inputPos).reg j = 0 := by
  have hread := constructedState_bits_regBase table len start headPos symbols inputPos (32 * j) 32
  refine hread.trans (BitVec.eq_of_getLsbD_eq fun b hb => ?_)
  have hbyte : (registerBytes table.length ++ tapeBytes table.length len headPos symbols inputPos).getD
      ((32 * j + b) / 8) 0 = 0 := by
    rw [List.getD_append _ _ _ _ (by rw [length_registerBytes]; unfold maxRegs; omega), registerBytes,
      List.getD_append_right _ _ _ _ (by rw [length_wordBytes]; omega), List.getD_replicate]
    rw [length_wordBytes]; omega
  rw [Memory.getLsbD_rawRead, Memory.bit, Memory.byte_ofBytes, hbyte]
  simp

/-- The tape header's first word is the tape word count (10_state R22). -/
theorem constructedState_tapeWordCount :
    (constructedState table len start headPos symbols inputPos).bits (constructLayout table.length len).tapeBase 32 =
      BitVec.ofNat 32 (constructLayout table.length len).tapeWordCount := by
  have hread := constructedState_bits_tapeBase table len start headPos symbols inputPos 0 32
  rw [tapeBytes, List.append_assoc, Memory.rawRead_ofBytes_word] at hread
  exact hread

/-- The head field holds twice the head position (10_state R23). -/
theorem constructedState_head :
    (constructedState table len start headPos symbols inputPos).head = BitVec.ofNat 32 (2 * headPos) := by
  have hread := constructedState_bits_tapeBase table len start headPos symbols inputPos 32 32
  have hword := Memory.rawRead_word_at (wordBytes (BitVec.ofNat 32 (constructLayout table.length len).tapeWordCount))
    (BitVec.ofNat 32 (2 * headPos)) (packSymbols (tapeSymbols len symbols inputPos))
  rw [tapeBytes, List.append_assoc] at hread
  exact hread.trans hword

/-- The tape: blank but for the input in its place. -/
theorem getD_tapeSymbols {j : Nat} (hj : j < len) :
    (tapeSymbols len symbols inputPos).getD j 0 =
      if inputPos ≤ j ∧ j < inputPos + symbols.length then symbols.getD (j - inputPos) 0 else blankSymbol := by
  rw [tapeSymbols]
  split_ifs with hin
  · rw [List.getD_append _ _ _ _ (by simp; omega), List.getD_append_right _ _ _ _ (by simp; omega), List.length_replicate]
  · by_cases hlt : j < inputPos
    · rw [List.append_assoc, List.getD_append _ _ _ _ (by simpa using hlt), List.getD_replicate _ hlt]
    · have hlength : (List.replicate inputPos blankSymbol ++ symbols).length = inputPos + symbols.length := by simp
      rw [List.getD_append_right _ _ _ _ (by rw [hlength]; omega), hlength, List.getD_replicate]
      omega

/-- A tape symbol of the machine is that of the tape written (10_state R24). -/
theorem constructedState_sym {j : Nat} (hlen : len % 16 = 0) (hfits : inputPos + symbols.length ≤ len) (hj : j < len) :
    (constructedState table len start headPos symbols inputPos).sym j =
      if inputPos ≤ j ∧ j < inputPos + symbols.length then symbols.getD (j - inputPos) 0 else blankSymbol := by
  have hlength := length_tapeSymbols len symbols inputPos hfits
  have hread := constructedState_bits_tapeBase table len start headPos symbols inputPos (64 + 2 * j) 2
  have htape := Memory.rawRead_ofBytes_append
    (wordBytes (BitVec.ofNat 32 (constructLayout table.length len).tapeWordCount) ++
      wordBytes (BitVec.ofNat 32 (2 * headPos))) (packSymbols (tapeSymbols len symbols inputPos)) (2 * j) 2
  rw [← getD_tapeSymbols _ _ _ hj, ← Memory.rawRead_packSymbols _ _ (by rw [hlength]; omega) (by rw [hlength]; exact hj),
    ← htape]
  refine Eq.trans ?_ hread
  rw [State.sym, Layout.symOffset, Layout.symBase, constructedState_layout, Nat.add_assoc]

/-- A legal layout makes the machine meet the invariant. -/
theorem constructedState_wf (hlayout : (constructLayout table.length len).wf = true)
    (hfits : inputPos + symbols.length ≤ len) :
    (constructedState table len start headPos symbols inputPos).wf = true := by
  obtain ⟨hlen, -⟩ := (Layout.wf_iff _).1 hlayout
  rw [State.wf_iff]
  refine ⟨hlayout, Memory.wf_ofBytes _, ?_, constructedState_wordCount .., constructedState_tapeWordCount ..⟩
  rw [constructedState_layout, ← length_constructImage table len start headPos symbols inputPos hlen hfits]
  exact Memory.below_ofBytes _

/-- The bootstrap stands in entries 0 to 30. -/
theorem constructedState_bootstrap {k : Nat} (h : k < bootLen) :
    bootstrap[k]?.map encodeWords =
      some ((constructedState table len start headPos symbols inputPos).entryWords (entryOffset k)) := by
  have hk : k < bootstrap.length := by rw [length_bootstrap]; exact h
  have hentry : (constructedEntries table)[k]? = some bootstrap[k] := by
    rw [constructedEntries_bootstrap table h, List.getElem?_eq_getElem hk]
  rw [constructedState_entryWords table len start headPos symbols inputPos hentry, List.getElem?_eq_getElem hk]
  rfl

theorem constructedState_bootstrapLoaded :
    (constructedState table len start headPos symbols inputPos).bootstrapLoaded = true := by
  unfold State.bootstrapLoaded
  rw [Bool.and_eq_true, decide_eq_true_iff, constructedState_layout, constructLayout_entries, List.all_eq_true]
  refine ⟨by unfold bootLen; omega, fun k hk => decide_eq_true ?_⟩
  exact constructedState_bootstrap table len start headPos symbols inputPos (List.mem_range.1 hk)

end Constructed

/-! Reset. -/

/-- Settles O42: reset is a constructed machine, of an empty table and an empty input. -/
theorem resetMeetsTheInvariant : Obligations.ResetMeetsTheInvariant := by
  have hlayout : (constructLayout ([] : List TableRow).length 16).wf = true := by decide
  rw [Obligations.ResetMeetsTheInvariant, reset_eq_constructedState]
  refine ⟨constructedState_wf _ _ _ _ _ _ hlayout (by decide), constructedState_bootstrapLoaded .., rfl,
    constructedState_pc .., constructedState_reg_zero .., constructedState_head ..,
    fun j h1 h16 => constructedState_reg_of_pos _ _ _ _ _ _ h1 h16, fun j hj => ?_⟩
  rw [constructedState_sym _ _ _ _ _ _ (by decide) (by decide) hj]
  exact if_neg (by simp)

end Sys2Proof.Machine
end

section
/-! What a constructed machine holds, and that the TM layer works on it (70_reset_and_hazards R111, R113). -/

namespace Sys2Proof.Machine

/-! Packed values. -/

/-- A 2-bit field holds any value up to 2. -/
theorem toNat_ofInt_code {v : Int} (h0 : 0 ≤ v) (h2 : v ≤ 2) : ((BitVec.ofInt 2 v).toNat : Int) = v :=
  toNat_ofInt_symbol (by omega)

/-- A valid row's symbols and directions pack as R111 says, each two bits wide (70_reset_and_hazards R111). -/
theorem fieldsWord_of_valid {r : TableRow} {n : Nat} (h : r.valid n = true) :
    r.transition.fieldsWord = u32 (r.w0 + 4 * r.w1 + 16 * r.w2 + 256 * (r.d0 + 4 * r.d1 + 16 * r.d2)) := by
  obtain ⟨hw0, hw1, hw2, hd0, hd1, hd2, -⟩ := (r.valid_iff n).1 h
  have h0 : (r.transition.sym0.toNat : Int) = r.w0 := toNat_ofInt_code hw0.1 hw0.2
  have h1 : (r.transition.sym1.toNat : Int) = r.w1 := toNat_ofInt_code hw1.1 hw1.2
  have h2 : (r.transition.sym2.toNat : Int) = r.w2 := toNat_ofInt_code hw2.1 hw2.2
  have h3 : (r.transition.dir0.toNat : Int) = r.d0 := toNat_ofInt_code hd0.1 hd0.2
  have h4 : (r.transition.dir1.toNat : Int) = r.d1 := toNat_ofInt_code hd1.1 hd1.2
  have h5 : (r.transition.dir2.toNat : Int) = r.d2 := toNat_ofInt_code hd2.1 hd2.2
  have hpacked : r.w0 + 4 * r.w1 + 16 * r.w2 + 256 * (r.d0 + 4 * r.d1 + 16 * r.d2) =
      (r.transition.fieldsWord.toNat : Int) := by
    rw [toNat_fieldsWord]; omega
  rw [hpacked, u32, BitVec.ofInt_natCast, BitVec.ofNat_toNat, BitVec.setWidth_eq]

/-- The words of a valid row's entry (30_encoding R53, 70_reset_and_hazards R111). -/
theorem encodeWords_of_valid {r : TableRow} {n : Nat} (h : r.valid n = true) :
    encodeWords (.tmstate r.transition) =
      [10, u32 (r.w0 + 4 * r.w1 + 16 * r.w2 + 256 * (r.d0 + 4 * r.d1 + 16 * r.d2)),
        u32 (stateOffset r.n0.toNat), u32 (stateOffset r.n1.toNat), u32 (stateOffset r.n2.toNat)] := by
  have hnext (i : Nat) : stateWord i = u32 (stateOffset i) := (BitVec.ofInt_natCast 32 _).symm
  rw [← fieldsWord_of_valid h, ← hnext, ← hnext, ← hnext]
  rfl

/-! The machine of valid arguments. -/

/-- The symbol of a constructed tape, in terms of the input's characters: blank where there is none. -/
theorem getD_inputSymbols {input : List Char} {symbols : List (BitVec 2)} (h : inputSymbols input = some symbols) {k : Nat}
    (hk : k < input.length) : symbols.getD k 0 = (charSymbol (input.getD k '_')).getD 2 := by
  have hlength := length_inputSymbols h
  have hget := getElem?_inputSymbols h k
  rw [List.getElem?_eq_getElem hk, List.getElem?_eq_getElem (by omega), Option.bind_some] at hget
  rw [List.getD_eq_getElem _ _ hk, List.getD_eq_getElem _ _ (by omega), ← hget]
  rfl

/-- A constructed layout that is legal, in closed form (20_memory R41). -/
theorem constructLayout_fits {n len : Nat} (h : (constructLayout n len).wf = true) :
    len % 16 = 0 ∧ 8 * (720 + 20 * n + len / 4) ≤ 2 ^ 31 := by
  obtain ⟨hlen, hbits⟩ := (Layout.wf_iff _).1 h
  exact ⟨hlen, (constructLayout_bits n hlen).symm.trans_le hbits⟩

/-- A head position of a legal tape, doubled, fits the head field (10_state R23). -/
theorem constructedState_head_toNat (table : List TableRow) {len : Nat} (start : Nat) {headPos : Nat}
    (symbols : List (BitVec 2)) (inputPos : Nat) (hlayout : (constructLayout table.length len).wf = true)
    (hhead : headPos < len) :
    (constructedState table len start headPos symbols inputPos).head.toNat = 2 * headPos := by
  obtain ⟨hlen, hbits⟩ := constructLayout_fits hlayout
  rw [constructedState_head, BitVec.toNat_ofNat, Nat.mod_eq_of_lt (by omega)]

/-- Everything valid arguments say of the machine's layout. -/
theorem constructLayout_wf_of_valid {table : List TableRow} {len start headPos : Int}
    (h : constructValid table len start headPos = true) : (constructLayout table.length len.toNat).wf = true := by
  obtain ⟨-, -, hmod, hlen, -, -, -, -, hbits⟩ := (constructValid_iff ..).1 h
  have htape : (constructLayout table.length len.toNat).tapeLen = len.toNat := rfl
  rw [Layout.wf_iff, htape]
  omega

/-- Settles O56: each region of the image, read at its place. -/
theorem constructedValues : Obligations.ConstructedValues := by
  intro table len start headPos input inputPos s h
  obtain ⟨symbols, hsymbols, hvalid, hpos, hfits, rfl⟩ := eq_constructedState_of_construct h
  have hlayout := constructLayout_wf_of_valid hvalid
  obtain ⟨-, hrows, hmod, hlen, -, -, hhead0, hhead, -⟩ := (constructValid_iff ..).1 hvalid
  have hlength := length_inputSymbols hsymbols
  refine ⟨rfl, ?layout, constructedState_wordCount .., constructedState_tapeWordCount ..,
    fun k hk => constructedState_bootstrap _ _ _ _ _ _ hk, fun k r hr => ?row,
    constructedState_entryWords _ _ _ _ _ _ (constructedEntries_halt table), constructedState_pc ..,
    constructedState_reg_zero .., fun j h1 h16 => constructedState_reg_of_pos _ _ _ _ _ _ h1 h16, ?head,
    fun j hj => ?tape⟩
  case layout =>
    rw [constructedState_layout, ← constructLayout_entries table.length len.toNat]
    rfl
  case row =>
    rw [← encodeWords_of_valid (hrows r (List.mem_of_getElem? hr))]
    exact constructedState_entryWords _ _ _ _ _ _ (constructedEntries_state hr)
  case head => rw [constructedState_head_toNat table _ _ _ hlayout (by omega)]; omega
  case tape =>
    rw [constructedState_sym _ _ _ _ _ _ (by omega) (by omega) hj]
    by_cases hin : inputPos ≤ j ∧ j < inputPos + input.length
    · rw [if_pos hin, if_pos (by omega), getD_inputSymbols hsymbols (by omega)]
    · rw [if_neg hin, if_neg (by omega)]

/-! The six conditions of the TM layer (70_reset_and_hazards R113). -/

/-- No bootstrap entry is a transition entry. -/
theorem bootstrap_generic {k : Nat} {i : Instr} (h : bootstrap[k]? = some i) :
    (encodeWords i)[0]? ≠ some Opcode.tmstate := by
  have hall : ∀ i ∈ bootstrap, (encodeWords i)[0]? ≠ some Opcode.tmstate := by decide
  exact hall i (List.mem_of_getElem? h)

/-- No symbol of an input is the pattern 3. -/
theorem ne_three_of_charSymbol {c : Char} {x : BitVec 2} (h : charSymbol c = some x) : x ≠ 3 := by
  unfold charSymbol at h
  split_ifs at h
  all_goals cases h; decide

/-- A 2-bit field of a value up to 2 is a code. -/
theorem isCode_ofInt {v : Int} (h0 : 0 ≤ v) (h2 : v ≤ 2) : isCode (BitVec.ofInt 2 v) = true := by
  obtain rfl | rfl | rfl : v = 0 ∨ v = 1 ∨ v = 2 := by omega
  all_goals decide

/-- The fields of an entry that encodes a transition are the transition's. -/
theorem State.transitionAt_of_entryWords {s : State} {o : Nat} {t : Transition}
    (h : s.entryWords o = encodeWords (.tmstate t)) : s.transitionAt o = t := by
  obtain ⟨-, h1, h2, h3, h4, -⟩ : s.entryWord o 0 = Opcode.tmstate ∧ s.entryWord o 1 = t.fieldsWord ∧
      s.entryWord o 2 = t.next0 ∧ s.entryWord o 3 = t.next1 ∧ s.entryWord o 4 = t.next2 ∧ True := by
    simpa [State.entryWords, encodeWords] using h
  rw [State.transitionAt, h1, h2, h3, h4, transitionOfWords_fieldsWord]

section Ready
variable {table : List TableRow} {len start headPos : Nat} {symbols : List (BitVec 2)} {inputPos : Nat}

/-- Entries from the bootstrap's end on are transition entries: the states, and the halt entry after them. -/
theorem constructedEntries_transition {i : Nat} (h : i ≤ table.length) :
    ∃ t, (constructedEntries table)[bootLen + i]? = some (.tmstate t) := by
  by_cases hi : i < table.length
  · exact ⟨_, constructedEntries_state (List.getElem?_eq_getElem hi)⟩
  · obtain rfl : i = table.length := by omega
    exact ⟨_, constructedEntries_halt table⟩

/-- The offset of a state of a legal layout fits a word. -/
theorem toNat_stateWord (hlayout : (constructLayout table.length len).wf = true) {i : Nat} (h : i ≤ table.length) :
    (stateWord i).toNat = stateOffset i := by
  obtain ⟨hlen, hbits⟩ := constructLayout_fits hlayout
  rw [stateWord, BitVec.toNat_ofNat, stateOffset_eq, Nat.mod_eq_of_lt (by omega)]

/-- The offset of a state, or of the halt entry, is that of a transition entry. -/
theorem constructedState_isTransitionEntry (hlayout : (constructLayout table.length len).wf = true) {i : Nat}
    (h : i ≤ table.length) :
    (constructedState table len start headPos symbols inputPos).isTransitionEntry (stateWord i) = true := by
  obtain ⟨t, ht⟩ := constructedEntries_transition h
  have hindex : entryIndex (stateOffset i) = some (bootLen + i) := (entryIndex_eq_some_iff _ _).2 rfl
  have hword : (constructedState table len start headPos symbols inputPos).entryWord (stateOffset i) 0 =
      Opcode.tmstate := constructedState_entryWord _ _ _ _ _ _ ht rfl
  rw [State.isTransitionEntry, toNat_stateWord hlayout h, hindex]
  simp only [hword, constructedState_layout, constructLayout_entries, decide_true, Bool.and_true, decide_eq_true_iff]
  unfold bootLen
  omega

/-- A valid row's entry has usable fields (70_reset_and_hazards R113, item 5). -/
theorem constructedState_transitionUsable (hlayout : (constructLayout table.length len).wf = true) {k : Nat} {r : TableRow}
    (hr : table[k]? = some r) (hvalid : r.valid table.length = true) :
    (constructedState table len start headPos symbols inputPos).transitionUsable (stateOffset k) = true := by
  obtain ⟨hw0, hw1, hw2, hd0, hd1, hd2, hn0, hn1, hn2⟩ := (r.valid_iff _).1 hvalid
  have hentry := constructedState_entryWords table len start headPos symbols inputPos (constructedEntries_state hr)
  have hnext {v : Int} (hv : v ≤ table.length) :
      (constructedState table len start headPos symbols inputPos).isTransitionEntry (stateWord v.toNat) = true :=
    constructedState_isTransitionEntry hlayout (by omega)
  have hcodes : r.transition.wf = true := by
    simp only [Transition.wf, TableRow.transition, isCode_ofInt hw0.1 hw0.2, isCode_ofInt hw1.1 hw1.2,
      isCode_ofInt hw2.1 hw2.2, isCode_ofInt hd0.1 hd0.2, isCode_ofInt hd1.1 hd1.2, isCode_ofInt hd2.1 hd2.2, Bool.and_self]
  have hfields : (constructedState table len start headPos symbols inputPos).transitionAt (stateOffset k) =
      r.transition := State.transitionAt_of_entryWords hentry
  simp only [State.transitionUsable, hfields, hcodes, Bool.true_and, Bool.and_eq_true]
  exact ⟨⟨hnext hn0.2, hnext hn1.2⟩, hnext hn2.2⟩

/-- Item 5 of R113, entry by entry: the bootstrap's are generic, the states' usable, the last is the halt entry. -/
theorem constructedState_entry_ready (hlayout : (constructLayout table.length len).wf = true)
    (hrows : ∀ r ∈ table, r.valid table.length = true) {k : Nat} (hk : k < 32 + table.length) :
    (constructedState table len start headPos symbols inputPos).entryWord (entryOffset k) 0 ≠ Opcode.tmstate ∨
      entryOffset k =
        ((constructedState table len start headPos symbols inputPos).reg haltSentinelReg).toNat ∨
      (constructedState table len start headPos symbols inputPos).transitionUsable (entryOffset k) = true := by
  by_cases hboot : k < bootLen
  · left
    have hlt : k < bootstrap.length := by rw [length_bootstrap]; exact hboot
    have hget : bootstrap[k]? = some bootstrap[k] := List.getElem?_eq_getElem hlt
    obtain ⟨w0, w1, w2, w3, w4, hwords⟩ := exists_encodeWords_eq bootstrap[k]
    have hgeneric := bootstrap_generic hget
    rw [hwords] at hgeneric
    rw [constructedState_entryWord _ _ _ _ _ _ ((constructedEntries_bootstrap table hboot).trans hget)
      (show (encodeWords bootstrap[k])[0]? = some w0 by rw [hwords]; rfl)]
    exact fun hmarker => hgeneric (congrArg some hmarker)
  · obtain ⟨i, rfl⟩ : ∃ i, k = bootLen + i := ⟨k - bootLen, by omega⟩
    right
    by_cases hstate : i < table.length
    · have hr : table[i]? = some table[i] := List.getElem?_eq_getElem hstate
      exact .inr (constructedState_transitionUsable hlayout hr (hrows _ (List.getElem_mem hstate)))
    · left
      obtain rfl : i = table.length := by unfold bootLen at hk; omega
      rw [constructedState_reg_zero, toNat_stateWord hlayout (le_refl _)]
      rfl

/-- No symbol of a constructed tape is the pattern 3 (70_reset_and_hazards R113, item 6). -/
theorem constructedState_sym_ne_three {input : List Char} (hsymbols : inputSymbols input = some symbols)
    (hlen : len % 16 = 0) (hfits : inputPos + symbols.length ≤ len) {j : Nat} (hj : j < len) :
    (constructedState table len start headPos symbols inputPos).sym j ≠ 3 := by
  rw [constructedState_sym _ _ _ _ _ _ hlen hfits hj]
  split_ifs with hin
  · have hlt : j - inputPos < symbols.length := by omega
    have hget := getElem?_inputSymbols hsymbols (j - inputPos)
    rw [List.getElem?_eq_getElem hlt] at hget
    obtain ⟨c, -, hc⟩ := Option.bind_eq_some_iff.1 hget.symm
    rw [List.getD_eq_getElem _ _ hlt]
    exact ne_three_of_charSymbol hc
  · decide

end Ready

/-- Settles O57: the invariant, and the six conditions one by one. -/
theorem constructedMachineIsReady : Obligations.ConstructedMachineIsReady := by
  intro table len start headPos input inputPos s h
  obtain ⟨symbols, hsymbols, hvalid, hpos, hfits, rfl⟩ := eq_constructedState_of_construct h
  have hlayout := constructLayout_wf_of_valid hvalid
  obtain ⟨-, hrows, hmod, hlen, hstart0, hstart, hhead0, hhead, -⟩ := (constructValid_iff ..).1 hvalid
  refine ⟨constructedState_wf _ _ _ _ _ _ hlayout (by omega), ?_⟩
  simp only [State.tmReady, Bool.and_eq_true, List.all_eq_true, List.mem_range, Bool.or_eq_true, decide_eq_true_eq, ne_eq]
  refine ⟨⟨⟨⟨⟨constructedState_bootstrapLoaded .., ?haltEntry⟩, ?pc⟩, ?head⟩, fun k hk => ?entries⟩, fun j hj => ?tape⟩
  case haltEntry =>
    rw [constructedState_reg_zero]
    exact constructedState_isTransitionEntry hlayout (le_refl _)
  case pc =>
    rw [constructedState_pc]
    exact constructedState_isTransitionEntry hlayout (by omega)
  case head =>
    rw [State.headValid_iff, constructedState_head_toNat table _ _ _ hlayout (by omega), constructedState_layout]
    exact ⟨by omega, show 2 * headPos.toNat < 2 * len.toNat by omega⟩
  case entries =>
    rw [constructedState_layout, constructLayout_entries] at hk
    exact or_assoc.2 (constructedState_entry_ready hlayout hrows hk)
  case tape => exact constructedState_sym_ne_three hsymbols (by omega) (by omega) hj

end Sys2Proof.Machine
end

section
/-! Running the bootstrap one entry at a time: what the machine holds at each entry, and one rule per instruction of the
listing (44_bootstrap R82). -/

namespace Sys2Proof.Machine

/-! The bootstrap in place. -/

/-- Machines of one layout that agree on the bits of entries 0 to 30 have the bootstrap in place or not alike. -/
theorem State.bootstrapLoaded_congr {s t : State} (hl : t.layout = s.layout)
    (h : ∀ b, 64 ≤ b → b < 5024 → t.bit b = s.bit b) (hs : s.bootstrapLoaded = true) : t.bootstrapLoaded = true := by
  unfold State.bootstrapLoaded at hs ⊢
  rw [Bool.and_eq_true, decide_eq_true_iff, List.all_eq_true] at hs ⊢
  refine ⟨by rw [hl]; exact hs.1, fun k hk => ?_⟩
  have hlt := List.mem_range.1 hk
  have hwords : t.entryWords (entryOffset k) = s.entryWords (entryOffset k) := by
    have hword (j : Nat) (hj : j < 5) : t.entryWord (entryOffset k) j = s.entryWord (entryOffset k) j :=
      State.bits_congr fun b hlo hhi => h b (by unfold entryOffset at hlo; omega)
        (by unfold entryOffset at hhi; unfold bootLen at hlt; omega)
    rw [State.entryWords, State.entryWords, hword 0 (by omega), hword 1 (by omega), hword 2 (by omega),
      hword 3 (by omega), hword 4 (by omega)]
  rw [hwords]
  exact hs.2 k hk

/-- The bootstrap's entries lie below the registers. -/
theorem State.bootLen_le_of_bootstrapLoaded {s : State} (h : s.bootstrapLoaded = true) : 31 ≤ s.layout.entries := by
  unfold State.bootstrapLoaded at h
  rw [Bool.and_eq_true, decide_eq_true_iff] at h
  exact h.1

/-- The bootstrap has 31 entries. -/
theorem lt_bootLen_of_getElem? {k : Nat} {i : Instr} (h : bootstrap[k]? = some i) : k < 31 := by
  obtain ⟨hk, -⟩ := List.getElem?_eq_some_iff.1 h
  rwa [length_bootstrap] at hk

/-- An entry of the bootstrap is no transition entry. -/
theorem ne_tmstate_of_bootstrap {k : Nat} {i : Instr} (h : bootstrap[k]? = some i) (e : Transition) : i ≠ .tmstate e := by
  rintro rfl
  exact bootstrap_generic h rfl

/-- With the bootstrap in place and `pc` at entry `k`, that entry is fetched. -/
theorem State.fetch_bootstrap {s : State} {k : Nat} {i : Instr} (hs : s.bootstrapLoaded = true)
    (hpc : s.pc = BitVec.ofNat 32 (entryOffset k)) (hk : bootstrap[k]? = some i) : s.fetch = .ok i := by
  have hlt := lt_bootLen_of_getElem? hk
  have hentries := State.bootLen_le_of_bootstrapLoaded hs
  have hpcNat : s.pc.toNat = entryOffset k := by
    rw [hpc, BitVec.toNat_ofNat, Nat.mod_eq_of_lt]; unfold entryOffset; omega
  unfold State.bootstrapLoaded at hs
  rw [Bool.and_eq_true, List.all_eq_true] at hs
  have hwords := of_decide_eq_true (hs.2 k (List.mem_range.2 hlt))
  rw [hk, ← hpcNat] at hwords
  have hwords : encodeWords i = s.entryWords s.pc.toNat := Option.some.inj hwords
  have hgeneric : s.entryWord s.pc.toNat 0 ≠ Opcode.tmstate := fun hmarker =>
    bootstrap_generic hk (by rw [hwords, State.entryWords, ← hmarker]; rfl)
  rw [s.fetch_generic (by rw [hpcNat]; exact entryOffset_mod_word k)
    (by rw [hpcNat, Layout.bits_eq]; unfold entryOffset; omega) hgeneric, decodeWords_of_encodeWords hwords]

/-! What the machine holds. -/

/-- The signed values of the registers. -/
def State.regValues (s : State) : List Int := (List.range maxRegs).map fun i => s32 (s.reg i)

/-- The machine `t` runs, its registers hold the values `z`, and every bit but those of `pc` and of `x[1]` to `x[15]` is
that of `base`. -/
structure Holds (base : State) (z : List Int) (t : State) : Prop where
  running : t.ctl = .running
  layout : t.layout = base.layout
  length : z.length = 16
  regs : ∀ i, i < 16 → s32 (t.reg i) = z.getD i 0
  frame : ∀ b, (b < 32 ∨ 64 ≤ b) → (b < base.layout.regOffset 1 ∨ base.layout.tapeBase ≤ b) → t.bit b = base.bit b

theorem Holds.refl {s : State} (h : s.ctl = .running) : Holds s s.regValues s where
  running := h
  layout := rfl
  length := by simp [State.regValues]
  regs i hi := by simp [State.regValues, List.getD_eq_getElem?_getD, hi]
  frame _ _ _ := rfl

section Holds
variable {base t : State} {z : List Int}

theorem Holds.setReg (h : Holds base z t) {d : Nat} (hd1 : 1 ≤ d) (hd : d < 16) (w : Word) :
    Holds base (z.set d (s32 w)) (t.setReg d w) where
  running := h.running
  layout := h.layout
  length := by rw [List.length_set, h.length]
  regs i hi := by
    rw [State.reg_setReg, List.getD_eq_getElem?_getD, List.getElem?_set]
    by_cases hid : i = d
    · subst hid
      simp [h.length, hi]
    · rw [if_neg hid, if_neg (Ne.symm hid), ← List.getD_eq_getElem?_getD, h.regs i hi]
  frame b hpc hregs := by
    rw [← h.frame b hpc hregs]
    refine t.bit_setReg_of_outside d w ?_
    rw [h.layout]
    rw [Layout.regOffset_eq, Layout.tapeBase_eq] at hregs
    rw [Layout.regOffset_eq]
    omega

theorem Holds.setPc (h : Holds base z t) (w : Word) : Holds base z (t.setPc w) where
  running := h.running
  layout := h.layout
  length := h.length
  regs i hi := by rw [State.reg_setPc, h.regs i hi]
  frame b hpc hregs := by
    rw [State.setPc, State.bit_setBits, if_neg (by unfold pcOffset; omega), h.frame b hpc hregs]

/-- A store to the tape region is the same store made in the base. -/
theorem Holds.setBits (h : Holds base z t) {a n : Nat} (v : BitVec n) (ha : base.layout.tapeBase ≤ a) :
    Holds (base.setBits a v) z (t.setBits a v) where
  running := h.running
  layout := h.layout
  length := h.length
  regs i hi := by
    obtain ⟨-, -, htape⟩ := base.layout.regOffset_spec hi
    rw [← h.regs i hi]
    refine congrArg _ (t.bits_setBits_of_disjoint a v _ _ ?_)
    rw [State.setBits_layout, h.layout]
    omega
  frame b hpc hregs := by
    rw [State.bit_setBits, State.bit_setBits, h.frame b hpc hregs]

/-- A read apart from `pc` and `x[1]` to `x[15]` reads what the base holds. -/
theorem Holds.bits (h : Holds base z t) {a n : Nat} (hpc : a + n ≤ 32 ∨ 64 ≤ a)
    (hregs : a + n ≤ base.layout.regOffset 1 ∨ base.layout.tapeBase ≤ a) : t.bits a n = base.bits a n :=
  State.bits_congr fun b hlo hhi => h.frame b (by omega) (by omega)

theorem Holds.bootstrapLoaded (h : Holds base z t) (hbase : base.bootstrapLoaded = true) : t.bootstrapLoaded = true := by
  have hentries := State.bootLen_le_of_bootstrapLoaded hbase
  exact State.bootstrapLoaded_congr h.layout
    (fun b hlo hhi => h.frame b (.inr hlo) (.inl (by rw [Layout.regOffset_eq]; omega))) hbase

end Holds

/-! Reaching an entry. -/

/-- The `k + 1` steps from the dispatch at `s` reach entry `k` of the bootstrap: the machine holds the values `z` over
`base`, in which the bootstrap is in place, and after none of the steps it was stopped or printable. -/
structure ReachesBy (s base : State) (k : Nat) (z : List Int) (t : State) : Prop where
  run : Sys2Proof.core.run (k + 1) s = .next t
  holds : Holds base z t
  pc : t.pc = BitVec.ofNat 32 (entryOffset k)
  loaded : base.bootstrapLoaded = true
  quiet : ∀ j u, 1 ≤ j → j ≤ k + 1 → Sys2Proof.core.run j s = .next u → u.ctl = .running ∧ u.printable = false

/-- Some machine reaches entry `k` so. -/
def Reaches (s base : State) (k : Nat) (z : List Int) : Prop := ∃ t, ReachesBy s base k z t

/-- A step that fetched an entry of the bootstrap is not printable. -/
theorem State.printable_of_bootstrap {s : State} {k : Nat} {i : Instr} (hf : s.fetch = .ok i)
    (hk : bootstrap[k]? = some i) : s.printable = false := by
  refine Bool.eq_false_iff.2 fun hp => ?_
  obtain ⟨-, e, hfetch, -⟩ := State.printable_spec hp
  exact ne_tmstate_of_bootstrap hk e (Except.ok.inj (hf.symm.trans hfetch))

section Reaches
variable {s base base' : State} {k : Nat} {z z' : List Int} {i : Instr} {t u : State}

/-- At an entry the machine's step executes it. -/
theorem ReachesBy.step_eq (h : ReachesBy s base k z t) (hk : bootstrap[k]? = some i) : step t = exec i t :=
  step_of_fetch_ok h.holds.running (State.fetch_bootstrap (h.holds.bootstrapLoaded h.loaded) h.pc hk)

/-- From an entry to the next: the machine there is again in the bootstrap, so its step is not printable. -/
theorem ReachesBy.next (h : ReachesBy s base k z t) (hk : bootstrap[k]? = some i) (hlast : k < 30)
    (hexec : exec i t = .next (u.setPc (BitVec.ofNat 32 (entryOffset (k + 1))))) (hu : Holds base' z' u)
    (hloaded : base'.bootstrapLoaded = true) :
    ReachesBy s base' (k + 1) z' (u.setPc (BitVec.ofNat 32 (entryOffset (k + 1)))) := by
  have hrun := run_succ_of_run h.run ((h.step_eq hk).trans hexec)
  have hholds := hu.setPc (BitVec.ofNat 32 (entryOffset (k + 1)))
  have hlt : k + 1 < bootstrap.length := by rw [length_bootstrap]; unfold bootLen; omega
  have hget : bootstrap[k + 1]? = some bootstrap[k + 1] := List.getElem?_eq_getElem hlt
  have hfetch := State.fetch_bootstrap (hholds.bootstrapLoaded hloaded) (u.pc_setPc _) hget
  refine ⟨hrun, hholds, u.pc_setPc _, hloaded, fun j v hj1 hj hv => ?_⟩
  by_cases hold : j ≤ k + 1
  · exact h.quiet j v hj1 hold hv
  · obtain rfl : j = k + 1 + 1 := by omega
    rw [← Host.Outcome.next.inj (hrun.symm.trans hv)]
    exact ⟨hholds.running, State.printable_of_bootstrap hfetch hget⟩

/-! Register operands that a listing names. -/

theorem s32_ofNat_of_lt {n : Nat} (h : n < 16) : s32 (BitVec.ofNat 32 n) = n := by
  have hsmall : n < 2 ^ 32 := by omega
  rw [s32, BitVec.toInt_eq_toNat_bmod, BitVec.toNat_ofNat, Nat.mod_eq_of_lt hsmall, Int.bmod_eq_of_le] <;> omega

theorem isRegister_ofNat {n : Nat} (h : n < 16) : isRegister (BitVec.ofNat 32 n) = true := by
  rw [isRegister_iff, s32_ofNat_of_lt h]; omega

theorem toNat_s32_ofNat {n : Nat} (h : n < 16) : (s32 (BitVec.ofNat 32 n)).toNat = n := by
  rw [s32_ofNat_of_lt h]; rfl

/-! One rule per instruction of the listing, each telling the register written and its value. -/

/-- An entry that writes register `d` and goes on. -/
theorem Reaches.write (h : Reaches s base k z) (hk : bootstrap[k]? = some i) (hlast : k < 30) {d : Nat} {v : Int}
    (hd1 : 1 ≤ d) (hd : d < 16)
    (hexec : ∀ t, Holds base z t → ∃ w, s32 w = v ∧
      exec i t = .next ((t.setReg d w).setPc (BitVec.ofNat 32 (entryOffset (k + 1))))) :
    Reaches s base (k + 1) (z.set d v) := by
  obtain ⟨t, ht⟩ := h
  obtain ⟨w, rfl, hw⟩ := hexec t ht.holds
  exact ⟨_, ht.next hk hlast hw (ht.holds.setReg hd1 hd w) ht.loaded⟩

theorem Reaches.loadc (h : Reaches s base k z) (c : Word) (d : Nat) (v : Int)
    (hk : bootstrap[k]? = some (.loadc c (BitVec.ofNat 32 d) (BitVec.ofNat 32 (entryOffset (k + 1)))) := by rfl)
    (hlast : k < 30 := by decide) (hd : 1 ≤ d ∧ d < 16 := by decide) (hv : s32 c = v := by rfl) :
    Reaches s base (k + 1) (z.set d v) := by
  refine h.write hk hlast hd.1 hd.2 fun t _ => ⟨c, hv, ?_⟩
  rw [exec_loadc_of_isRegister c _ t (isRegister_ofNat hd.2), toNat_s32_ofNat hd.2]

/-- A computation's entry, for the operation of ADD or of MUL. -/
theorem Reaches.arith (h : Reaches s base k z) (f : Int → Int → Int) {p q d : Nat} {v : Int}
    (hk : bootstrap[k]? = some i) (hlast : k < 30) (hd : 1 ≤ d ∧ d < 16 ∧ p < 16 ∧ q < 16)
    (hv : f (z.getD p 0) (z.getD q 0) = v) (hr : -2147483648 ≤ v ∧ v < 2147483648)
    (hexec : ∀ t u, t.arith f (BitVec.ofNat 32 p) (BitVec.ofNat 32 q) (BitVec.ofNat 32 d) = .ok u →
      exec i t = .next (u.setPc (BitVec.ofNat 32 (entryOffset (k + 1))))) :
    Reaches s base (k + 1) (z.set d v) := by
  obtain ⟨hd1, hd, hp, hq⟩ := hd
  have hin : inRange v = true := (inRange_iff v).2 hr
  refine h.write hk hlast hd1 hd fun t ht => ⟨u32 v, s32_u32_of_inRange hin, ?_⟩
  have hvalue : f (s32 (t.reg (s32 (BitVec.ofNat 32 p)).toNat)) (s32 (t.reg (s32 (BitVec.ofNat 32 q)).toNat)) = v := by
    rw [toNat_s32_ofNat hp, toNat_s32_ofNat hq, ht.regs p hp, ht.regs q hq, hv]
  have harith := t.arith_of_ok f (isRegister_ofNat hp) (isRegister_ofNat hq) (isRegister_ofNat hd) (by rw [hvalue]; exact hin)
  rw [hvalue, toNat_s32_ofNat hd] at harith
  exact hexec t _ harith

theorem Reaches.add (h : Reaches s base k z) (p q d : Nat) (v : Int) (hr : -2147483648 ≤ v ∧ v < 2147483648)
    (hk : bootstrap[k]? = some (.add (BitVec.ofNat 32 p) (BitVec.ofNat 32 q) (BitVec.ofNat 32 d)
      (BitVec.ofNat 32 (entryOffset (k + 1)))) := by rfl)
    (hlast : k < 30 := by decide) (hd : 1 ≤ d ∧ d < 16 ∧ p < 16 ∧ q < 16 := by decide)
    (hv : z.getD p 0 + z.getD q 0 = v := by rfl) : Reaches s base (k + 1) (z.set d v) :=
  h.arith (fun u w => u + w) hk hlast hd hv hr fun _ _ => exec_add_of_arith

theorem Reaches.mul (h : Reaches s base k z) (p q d : Nat) (v : Int) (hr : -2147483648 ≤ v ∧ v < 2147483648)
    (hk : bootstrap[k]? = some (.mul (BitVec.ofNat 32 p) (BitVec.ofNat 32 q) (BitVec.ofNat 32 d)
      (BitVec.ofNat 32 (entryOffset (k + 1)))) := by rfl)
    (hlast : k < 30 := by decide) (hd : 1 ≤ d ∧ d < 16 ∧ p < 16 ∧ q < 16 := by decide)
    (hv : z.getD p 0 * z.getD q 0 = v := by rfl) : Reaches s base (k + 1) (z.set d v) :=
  h.arith (fun u w => u * w) hk hlast hd hv hr fun _ _ => exec_mul_of_arith

/-- A place of the buffer where neither the write of `pc` nor that of a register `x[1]` to `x[15]` reaches. -/
structure Reachable (y : Layout) (addr n : Nat) : Prop where
  bound : addr + n ≤ y.bits
  pc : addr + n ≤ 32 ∨ 64 ≤ addr
  regs : addr + n ≤ y.regOffset 1 ∨ y.tapeBase ≤ addr

/-- The address that register `a` holds. -/
theorem Holds.address (h : Holds base z t) {a addr : Nat} (ha : a < 16) (hz : z.getD a 0 = addr) :
    s32 (t.reg (s32 (BitVec.ofNat 32 a)).toNat) = (addr : Int) := by
  rw [toNat_s32_ofNat ha, h.regs a ha, hz]

theorem Reaches.rdw (h : Reaches s base k z) (a d addr : Nat) (v : Int) (hplace : Reachable base.layout addr 32)
    (halign : addr % 32 = 0) (hv : s32 (base.bits addr 32) = v)
    (hk : bootstrap[k]? = some (.rdw (BitVec.ofNat 32 a) (BitVec.ofNat 32 d)
      (BitVec.ofNat 32 (entryOffset (k + 1)))) := by rfl)
    (hlast : k < 30 := by decide) (hd : 1 ≤ d ∧ d < 16 ∧ a < 16 := by decide) (hz : z.getD a 0 = addr := by rfl) :
    Reaches s base (k + 1) (z.set d v) := by
  obtain ⟨hd1, hd, ha⟩ := hd
  refine h.write hk hlast hd1 hd fun t ht => ⟨t.bits addr 32, by rw [ht.bits hplace.pc hplace.regs]; exact hv, ?_⟩
  have hbound := hplace.bound
  have hread : t.memRead (s32 (t.reg (s32 (BitVec.ofNat 32 a)).toNat)) 32 = .ok (t.bits addr 32) := by
    rw [ht.address ha hz]
    exact t.memRead_word (by omega) (by omega) (by rw [ht.layout]; omega)
  rw [exec_rdw_of_memRead (isRegister_ofNat ha) (isRegister_ofNat hd) hread, toNat_s32_ofNat hd]

theorem Reaches.rds (h : Reaches s base k z) (a d addr : Nat) (x : BitVec 2) (hplace : Reachable base.layout addr 2)
    (heven : addr % 2 = 0) (hx : base.bits addr 2 = x) (hsymbol : x ≠ 3)
    (hk : bootstrap[k]? = some (.rds (BitVec.ofNat 32 a) (BitVec.ofNat 32 d)
      (BitVec.ofNat 32 (entryOffset (k + 1)))) := by rfl)
    (hlast : k < 30 := by decide) (hd : 1 ≤ d ∧ d < 16 ∧ a < 16 := by decide) (hz : z.getD a 0 = addr := by rfl) :
    Reaches s base (k + 1) (z.set d x.toNat) := by
  obtain ⟨hd1, hd, ha⟩ := hd
  have hbound := hplace.bound
  refine h.write hk hlast hd1 hd fun t ht => ⟨x.setWidth 32, toInt_setWidth_symbol x, ?_⟩
  have hbits : t.bits addr 2 = x := (ht.bits hplace.pc hplace.regs).trans hx
  have hread : t.memRead (s32 (t.reg (s32 (BitVec.ofNat 32 a)).toNat)) 2 = .ok x := by
    rw [ht.address ha hz, ← hbits]
    exact t.memRead_sym (by omega) (by omega) (by rw [ht.layout]; omega) (by rw [Int.toNat_natCast, hbits]; exact hsymbol)
  rw [exec_rds_of_memRead (isRegister_ofNat ha) (isRegister_ofNat hd) hread, toNat_s32_ofNat hd]

/-- What a fault at entry `k` leaves: the machine stopped with the record of that entry, and every bit but those of `pc`
and of `x[1]` to `x[15]` as in `base`. -/
def FaultsAt (s base : State) (k : Nat) (addr : Nat) : Prop :=
  ∃ t : State, Sys2Proof.core.run (k + 2) s = .next t ∧ t.layout = base.layout ∧
    t.ctl = .faulted ⟨BitVec.ofNat 32 (entryOffset k), some 4, .invalidSymbolPattern addr⟩ ∧
    ∀ b, (b < 32 ∨ 64 ≤ b) → (b < base.layout.regOffset 1 ∨ base.layout.tapeBase ≤ b) → t.bit b = base.bit b

/-- RDS of the pattern 3 is the one fault of the listing (44_bootstrap R85). -/
theorem Reaches.rds_fault (h : Reaches s base k z) (a d addr : Nat) (hplace : Reachable base.layout addr 2)
    (heven : addr % 2 = 0) (hx : base.bits addr 2 = 3)
    (hk : bootstrap[k]? = some (.rds (BitVec.ofNat 32 a) (BitVec.ofNat 32 d)
      (BitVec.ofNat 32 (entryOffset (k + 1)))) := by rfl)
    (hd : d < 16 ∧ a < 16 := by decide) (hz : z.getD a 0 = addr := by rfl) : FaultsAt s base k addr := by
  obtain ⟨t, ht⟩ := h
  have hbound := hplace.bound
  have haddr := ht.holds.address hd.2 hz
  have hbits : t.bits addr 2 = 3 := (ht.holds.bits hplace.pc hplace.regs).trans hx
  have hread : t.memRead (s32 (t.reg (s32 (BitVec.ofNat 32 a)).toNat)) 2 = .error (.invalidSymbolPattern addr) := by
    rw [haddr]
    exact t.memRead_invalidPattern (t.checkAccess_sym (by omega) (by omega) (by rw [ht.holds.layout]; omega)) hbits
  have hload := State.loadIndirect_error_access (isRegister_ofNat hd.2) (isRegister_ofNat hd.1) hread
  obtain ⟨u, hexec, hmem, hlayout, hctl⟩ : takesFault (.rds (BitVec.ofNat 32 a) (BitVec.ofNat 32 d)
      (BitVec.ofNat 32 (entryOffset (k + 1)))) t 4 (.invalidSymbolPattern addr) :=
    takesFault_of_conclude (op := Opcode.rds) rfl (then_setPc_error hload)
  refine ⟨u, run_succ_of_run ht.run ((ht.step_eq hk).trans hexec), hlayout.trans ht.holds.layout,
    by rw [hctl, ht.pc], fun b hpc hregs => ?_⟩
  rw [← ht.holds.frame b hpc hregs, State.bit, State.bit, hmem]

/-- A store to the tape region keeps the bootstrap in place. -/
theorem State.bootstrapLoaded_setBits_tape (h : base.bootstrapLoaded = true) {a n : Nat} (v : BitVec n)
    (ha : base.layout.tapeBase ≤ a) : (base.setBits a v).bootstrapLoaded = true := by
  have hentries := State.bootLen_le_of_bootstrapLoaded h
  rw [Layout.tapeBase_eq] at ha
  rw [State.bootstrapLoaded_setBits _ _ _ (by omega), h]

theorem Reaches.wrs (h : Reaches s base k z) (a src addr : Nat) (x : BitVec 2) (heven : addr % 2 = 0)
    (htape : base.layout.tapeBase + 32 ≤ addr) (hbound : addr + 2 ≤ base.layout.bits) (hsymbol : x ≠ 3)
    (hsrc : z.getD src 0 = x.toNat)
    (hk : bootstrap[k]? = some (.wrs (BitVec.ofNat 32 a) (BitVec.ofNat 32 src)
      (BitVec.ofNat 32 (entryOffset (k + 1)))) := by rfl)
    (hlast : k < 30 := by decide) (hregs : a < 16 ∧ src < 16 := by decide) (hz : z.getD a 0 = addr := by rfl) :
    Reaches s (base.setBits addr x) (k + 1) z := by
  obtain ⟨t, ht⟩ := h
  obtain ⟨ha, hsrcLt⟩ := hregs
  obtain ⟨-, hpast, -⟩ := base.layout.tapeBase_spec
  have hvalue : (x.toNat : Int) = 0 ∨ (x.toNat : Int) = 1 ∨ (x.toNat : Int) = 2 := by
    have hlt := x.isLt
    have hne : x.toNat ≠ 3 := fun hc => hsymbol (BitVec.eq_of_toNat_eq hc)
    omega
  have hwrite : t.memWrite (s32 (t.reg (s32 (BitVec.ofNat 32 a)).toNat)) 2
      (s32 (t.reg (s32 (BitVec.ofNat 32 src)).toNat)) = .ok (t.setBits addr x) := by
    rw [ht.holds.address ha hz, ht.holds.address hsrcLt hsrc, t.memWrite_sym (by omega) (by omega)
      (by rw [ht.holds.layout]; omega) ((t.touchesLayout_eq_false _ _).2 (by rw [ht.holds.layout]; omega)) hvalue,
      Int.toNat_natCast, BitVec.ofInt_natCast, BitVec.ofNat_toNat, BitVec.setWidth_eq]
  exact ⟨_, ht.next hk hlast (exec_wrs_of_memWrite (isRegister_ofNat ha) (isRegister_ofNat hsrcLt) hwrite)
    (ht.holds.setBits x (by omega)) (State.bootstrapLoaded_setBits_tape ht.loaded x (by omega))⟩

/-- What register `src` holds, as the word that a store writes. -/
theorem Holds.reg_eq (h : Holds base z t) {src : Nat} {v : Int} (hsrc : src < 16) (hz : z.getD src 0 = v) :
    t.reg src = u32 v := by
  rw [← hz, ← h.regs src hsrc, u32_s32]

theorem Reaches.wrw (h : Reaches s base k z) (a src addr : Nat) (v : Int) (halign : addr % 32 = 0)
    (htape : base.layout.tapeBase < addr) (hbound : addr + 32 ≤ base.layout.bits)
    (hk : bootstrap[k]? = some (.wrw (BitVec.ofNat 32 a) (BitVec.ofNat 32 src)
      (BitVec.ofNat 32 (entryOffset (k + 1)))) := by rfl)
    (hlast : k < 30 := by decide) (hregs : a < 16 ∧ src < 16 := by decide) (hz : z.getD a 0 = addr := by rfl)
    (hsrc : z.getD src 0 = v := by rfl) : Reaches s (base.setBits addr (u32 v)) (k + 1) z := by
  obtain ⟨t, ht⟩ := h
  obtain ⟨ha, hsrcLt⟩ := hregs
  have hwrite : t.memWrite (s32 (t.reg (s32 (BitVec.ofNat 32 a)).toNat)) 32
      (s32 (t.reg (s32 (BitVec.ofNat 32 src)).toNat)) = .ok (t.setBits addr (u32 v)) := by
    rw [ht.holds.address ha hz, toNat_s32_ofNat hsrcLt, ht.holds.reg_eq hsrcLt hsrc]
    exact t.memWrite_word_of_ne _ (by omega) (by omega) (by rw [ht.holds.layout]; omega) (by rw [ht.holds.layout]; omega)
  exact ⟨_, ht.next hk hlast (exec_wrw_of_memWrite (isRegister_ofNat ha) (isRegister_ofNat hsrcLt) hwrite)
    (ht.holds.setBits (u32 v) (by omega)) (State.bootstrapLoaded_setBits_tape ht.loaded _ (by omega))⟩

/-- The last entry, RET to address 32: a jump, and nothing else. -/
theorem Reaches.ret (h : Reaches s base 30 z) (v : Int) (h2 : z.getD 2 0 = 32 := by rfl)
    (h14 : z.getD 14 0 = v := by rfl) :
    ∃ t : State, Sys2Proof.core.run 32 s = .next t ∧ Holds base z t ∧ t.pc = u32 v ∧
      ∀ j u, 1 ≤ j → j ≤ 31 → Sys2Proof.core.run j s = .next u → u.ctl = .running ∧ u.printable = false := by
  obtain ⟨t, ht⟩ := h
  have hk : bootstrap[30]? = some (.ret (BitVec.ofNat 32 2) (BitVec.ofNat 32 14) (BitVec.ofNat 32 (entryOffset 31))) := rfl
  obtain ⟨-, hpast, hbound⟩ := t.layout.tapeBase_spec
  have hwrite : t.memWrite (s32 (t.reg (s32 (BitVec.ofNat 32 2)).toNat)) 32
      (s32 (t.reg (s32 (BitVec.ofNat 32 14)).toNat)) = .ok (t.setPc (u32 v)) := by
    rw [ht.holds.address (addr := 32) (by decide) h2, toNat_s32_ofNat (by decide), ht.holds.reg_eq (by decide) h14]
    exact t.memWrite_word_of_ne _ (by decide) (by decide) (by omega) (by omega)
  have hstep := (ht.step_eq hk).trans (exec_ret_of_memWrite (isRegister_ofNat (by decide)) (isRegister_ofNat (by decide))
    hwrite)
  exact ⟨_, run_succ_of_run ht.run hstep, ht.holds.setPc _, t.pc_setPc _, ht.quiet⟩

end Reaches

end Sys2Proof.Machine
end

section
/-! One transition of the Turing machine: the bootstrap's 31 entries after a dispatch, and the three faults that can stop
them (44_bootstrap R82 to R85). -/

namespace Sys2Proof.Machine

/-- A dispatch that does not halt, of a transition entry that the bootstrap's register writes do not reach. -/
structure Dispatching (s : State) : Prop where
  wf : s.wf = true
  running : s.ctl = .running
  loaded : s.bootstrapLoaded = true
  past : 64 ≤ s.pc.toNat
  align : s.pc.toNat % 32 = 0
  region : s.pc.toNat + 160 ≤ s.layout.regBase ∨ s.layout.tapeBase ≤ s.pc.toNat ∧ s.pc.toNat + 160 ≤ s.layout.bits
  marker : s.bits s.pc.toNat 32 = 10
  noHalt : s.pc ≠ s.reg 0
  head : s.headValid = true

/-! The register values at the entries that can fault or store, by the names of 44_bootstrap R83; `x` is the symbol read,
`w` the symbol to write, `d` the direction code, `n` the next state. -/

/-- At entry 10, which reads the symbol under the head. -/
def valuesAtSymbol (s : State) : List Int :=
  [s32 (s.reg 0), s.pc.toNat, 32, 0, s.layout.wordCount, 16, s.layout.wordCount + 16, s.layout.tapeBase,
    s.layout.headOffset, s.head.toNat, s.layout.symBase, (s.layout.symBase + s.head.toNat : Nat),
    s32 (s.reg 12), s32 (s.reg 13), s32 (s.reg 14), s32 (s.reg 15)]

/-- At entry 14, which reads the symbol to write. -/
def valuesAtWrite (s : State) (x : Nat) : List Int :=
  [s32 (s.reg 0), s.pc.toNat, 32, 0, s.layout.wordCount, 16, s.layout.wordCount + 16, s.layout.tapeBase,
    s.layout.headOffset, s.head.toNat, s.layout.symBase, (s.layout.symBase + s.head.toNat : Nat),
    x, 2 * x, s.pc.toNat + 2 * x, (s.pc.toNat + 32 + 2 * x : Nat)]

/-- At entry 17, which reads the direction. -/
def valuesAtDirection (s : State) (x w : Nat) : List Int :=
  [s32 (s.reg 0), s.pc.toNat, 32, 8, s.layout.wordCount, w, s.layout.wordCount + 16, s.layout.tapeBase,
    s.layout.headOffset, s.head.toNat, s.layout.symBase, (s.layout.symBase + s.head.toNat : Nat),
    x, 2 * x, s.pc.toNat + 2 * x, (s.pc.toNat + 40 + 2 * x : Nat)]

/-- From entry 28 on, which stores the symbol: the values the bootstrap leaves (44_bootstrap R83). -/
def valuesAtStore (s : State) (x w d : Nat) (n : Word) : List Int :=
  [s32 (s.reg 0), s.pc.toNat, 32, -1, s.layout.wordCount, w, 2 * ((d : Int) - 1), s.layout.tapeBase,
    s.layout.headOffset, s.head.toNat + 2 * ((d : Int) - 1), s.layout.symBase, (s.layout.symBase + s.head.toNat : Nat),
    x, (s.pc.toNat + 64 + 32 * x : Nat), s32 n, (s.pc.toNat + 40 + 2 * x : Nat)]

section Dispatching
variable {s : State} {x w d : BitVec 2}

/-- The layout's places in a machine that dispatches: all of them, the entry and the symbol under the head lie in the
buffer, which a signed word can address. -/
structure Places (s : State) : Prop where
  tapeBase : s.layout.tapeBase = 32 * (s.layout.wordCount + 16)
  headOffset : s.layout.headOffset = s.layout.tapeBase + 32
  symBase : s.layout.symBase = s.layout.tapeBase + 64
  regOne : s.layout.regOffset 1 = s.layout.regBase + 32
  header : 5024 ≤ s.layout.regBase
  registers : s.layout.tapeBase = s.layout.regBase + 512
  head : s.head.toNat % 2 = 0
  symbol : s.layout.symBase + s.head.toNat + 2 ≤ s.layout.bits
  entry : s.pc.toNat + 160 ≤ s.layout.bits
  bits : s.layout.bits ≤ 2147483648

theorem Dispatching.places (h : Dispatching s) : Places s := by
  obtain ⟨hlayout, -⟩ := s.wf_iff.1 h.wf
  obtain ⟨hmod, hbits⟩ := s.layout.wf_iff.1 hlayout
  obtain ⟨heven, hbelow⟩ := s.headValid_iff.1 h.head
  have hentries := State.bootLen_le_of_bootstrapLoaded h.loaded
  have hregion := h.region
  have htape := s.layout.tapeBase_eq
  have hregs := s.layout.regBase_eq
  have hsyms := s.layout.symBase_eq
  have hsize := s.layout.bits_eq
  have hcount := s.layout.wordCount_eq
  refine ⟨by omega, rfl, rfl, rfl, by omega, by omega, heven, by omega, by omega, hbits⟩

/-- A word below `2^31` is its own signed value. -/
theorem s32_of_toNat_lt {v : Word} (h : v.toNat < 2147483648) : s32 v = v.toNat := by
  rw [s32, BitVec.toInt_eq_toNat_bmod, Int.bmod_eq_of_le] <;> omega

/-- The step of the dispatch: `x[1]` holds the entry's offset, `pc` is at entry 0 (43_control_instructions R79). -/
theorem Dispatching.reaches_entry (h : Dispatching s) : Reaches s s 0 (s.regValues.set 1 s.pc.toNat) := by
  have hplaces := h.places
  have hpc : s32 s.pc = s.pc.toNat := s32_of_toNat_lt (by have := hplaces.entry; have := hplaces.bits; omega)
  have hstep := State.hostStep_of_dispatch h.running
    (s.fetch_marker h.align (by have := hplaces.entry; omega) h.marker) h.noHalt h.head
  obtain ⟨t, ht⟩ := exists_step_next s
  rw [State.hostStep_of_next ht] at hstep
  obtain ⟨rfl, -⟩ := Prod.mk.inj hstep
  have hholds := ((Holds.refl h.running).setReg (d := activeStateReg) (by decide) (by decide) s.pc).setPc bootstrapEntry
  rw [hpc] at hholds
  have hrun : Sys2Proof.core.run (0 + 1) s = .next ((s.setReg activeStateReg s.pc).setPc bootstrapEntry) :=
    run_succ_of_step 0 ht
  have hfetch := State.fetch_bootstrap (k := 0) (hholds.bootstrapLoaded h.loaded) (State.pc_setPc _ _) rfl
  refine ⟨_, hrun, hholds, State.pc_setPc _ _, h.loaded, fun j u hj1 hj hu => ?_⟩
  obtain rfl : j = 0 + 1 := by omega
  rw [← Host.Outcome.next.inj (hrun.symm.trans hu)]
  exact ⟨hholds.running, State.printable_of_bootstrap (k := 0) hfetch rfl⟩

/-- The word count in the header, and the head field, as `RDW` reads them. -/
theorem Dispatching.header_values (h : Dispatching s) :
    s32 (s.bits 0 32) = s.layout.wordCount ∧ s32 (s.bits s.layout.headOffset 32) = s.head.toNat := by
  obtain ⟨htape, -, hsym, -, -, -, -, hsymbol, -, hbits⟩ := h.places
  obtain ⟨hcount, -⟩ := State.layoutWords_toNat h.wf
  constructor
  · rw [s32_of_toNat_lt (by omega), hcount]
  · exact s32_of_toNat_lt (by unfold State.head at hsymbol; omega)

/-- Entries 0 to 9: the layout's places, computed from the word count, and the place of the symbol under the head. -/
theorem Dispatching.reaches_symbol (h : Dispatching s) : Reaches s s 10 (valuesAtSymbol s) := by
  obtain ⟨hcountValue, hheadValue⟩ := h.header_values
  obtain ⟨htape, hhead, hsym, hregOne, hheader, hregs, heven, hsymbol, hentry, hbits⟩ := h.places
  have e1 := h.reaches_entry.loadc 0 3 0
  have e2 := e1.loadc 32 2 32
  have e3 := e2.rdw 3 4 0 s.layout.wordCount ⟨by omega, by omega, by omega⟩ rfl hcountValue
  have e4 := e3.loadc 16 5 16
  have e5 := e4.add 4 5 6 (s.layout.wordCount + 16) (by omega)
  have e6 := e5.mul 6 2 7 s.layout.tapeBase (by omega)
    (hv := by change ((s.layout.wordCount : Int) + 16) * 32 = _; omega)
  have e7 := e6.add 7 2 8 s.layout.headOffset (by omega)
  have e8 := e7.rdw 8 9 s.layout.headOffset s.head.toNat ⟨by omega, by omega, by omega⟩ (by omega) hheadValue
  have e9 := e8.add 8 2 10 s.layout.symBase (by omega) (hv := by change (s.layout.headOffset : Int) + 32 = _; omega)
  exact e9.add 9 10 11 (s.layout.symBase + s.head.toNat : Nat) (by omega)
    (hv := by change (s.head.toNat : Int) + s.layout.symBase = _; omega)

/-- The symbol under the head, where entry 10 reads it. -/
theorem Dispatching.symbol_bits (h : Dispatching s) :
    s.bits (s.layout.symBase + s.head.toNat) 2 = s.sym (s.head.toNat / 2) := by
  rw [State.sym, State.symOffset_head h.head]

/-- Where entry 10 reads. -/
theorem Dispatching.symbol_place (h : Dispatching s) : Reachable s.layout (s.layout.symBase + s.head.toNat) 2 := by
  obtain ⟨-, -, hsym, -, -, -, -, hsymbol, -, -⟩ := h.places
  exact ⟨hsymbol, by omega, by omega⟩

/-- A field of the transition entry is read where the entry stands. -/
theorem Dispatching.field_place (h : Dispatching s) {addr n : Nat} (hlo : s.pc.toNat ≤ addr)
    (hhi : addr + n ≤ s.pc.toNat + 160) : Reachable s.layout addr n := by
  obtain ⟨-, -, -, hregOne, -, -, -, -, hentry, -⟩ := h.places
  have hpast := h.past
  have hregion := h.region
  exact ⟨by omega, by omega, by omega⟩

theorem Dispatching.faults_symbol (h : Dispatching s) (hx : s.sym (s.head.toNat / 2) = 3) :
    FaultsAt s s 10 (s.layout.symBase + s.head.toNat) := by
  obtain ⟨htape, -, hsym, -, -, -, heven, -⟩ := h.places
  exact h.reaches_symbol.rds_fault 11 12 _ h.symbol_place (by omega) (h.symbol_bits.trans hx)

/-- Entries 10 to 13: the symbol, and the place of the symbol to write. -/
theorem Dispatching.reaches_write (h : Dispatching s) (hx : s.sym (s.head.toNat / 2) = x) (hx3 : x ≠ 3) :
    Reaches s s 14 (valuesAtWrite s x.toNat) := by
  obtain ⟨htape, -, hsym, -, -, -, heven, -, hentry, hbits⟩ := h.places
  have hlt := x.isLt
  have e11 := h.reaches_symbol.rds 11 12 (s.layout.symBase + s.head.toNat) x h.symbol_place (by omega)
    (h.symbol_bits.trans hx) hx3
  have e12 := e11.add 12 12 13 (2 * x.toNat) (by omega) (hv := by change (x.toNat : Int) + x.toNat = _; omega)
  have e13 := e12.add 1 13 14 (s.pc.toNat + 2 * x.toNat) (by omega)
  exact e13.add 14 2 15 (s.pc.toNat + 32 + 2 * x.toNat : Nat) (by omega)
    (hv := by change (s.pc.toNat : Int) + 2 * x.toNat + 32 = _; omega)

theorem Dispatching.faults_write (h : Dispatching s) (hx : s.sym (s.head.toNat / 2) = x) (hx3 : x ≠ 3)
    (hw : s.bits (s.pc.toNat + 32 + 2 * x.toNat) 2 = 3) : FaultsAt s s 14 (s.pc.toNat + 32 + 2 * x.toNat) := by
  have halign := h.align
  have hlt := x.isLt
  exact (h.reaches_write hx hx3).rds_fault 15 5 _ (h.field_place (by omega) (by omega)) (by omega) hw

/-- Entries 14 to 16: the symbol to write, and the place of the direction. -/
theorem Dispatching.reaches_direction (h : Dispatching s) (hx : s.sym (s.head.toNat / 2) = x) (hx3 : x ≠ 3)
    (hw : s.bits (s.pc.toNat + 32 + 2 * x.toNat) 2 = w) (hw3 : w ≠ 3) :
    Reaches s s 17 (valuesAtDirection s x.toNat w.toNat) := by
  obtain ⟨-, -, -, -, -, -, -, -, hentry, hbits⟩ := h.places
  have halign := h.align
  have hlt := x.isLt
  have e15 := (h.reaches_write hx hx3).rds 15 5 (s.pc.toNat + 32 + 2 * x.toNat) w
    (h.field_place (by omega) (by omega)) (by omega) hw hw3
  have e16 := e15.loadc 8 3 8
  exact e16.add 15 3 15 (s.pc.toNat + 40 + 2 * x.toNat : Nat) (by omega)
    (hv := by change ((s.pc.toNat + 32 + 2 * x.toNat : Nat) : Int) + 8 = _; omega)

theorem Dispatching.faults_direction (h : Dispatching s) (hx : s.sym (s.head.toNat / 2) = x) (hx3 : x ≠ 3)
    (hw : s.bits (s.pc.toNat + 32 + 2 * x.toNat) 2 = w) (hw3 : w ≠ 3)
    (hd : s.bits (s.pc.toNat + 40 + 2 * x.toNat) 2 = 3) : FaultsAt s s 17 (s.pc.toNat + 40 + 2 * x.toNat) := by
  have halign := h.align
  have hlt := x.isLt
  exact (h.reaches_direction hx hx3 hw hw3).rds_fault 15 6 _ (h.field_place (by omega) (by omega)) (by omega) hd

/-- Entries 17 to 27: the direction, the next state, and the moved head. -/
theorem Dispatching.reaches_store (h : Dispatching s) (hx : s.sym (s.head.toNat / 2) = x) (hx3 : x ≠ 3)
    (hw : s.bits (s.pc.toNat + 32 + 2 * x.toNat) 2 = w) (hw3 : w ≠ 3)
    (hd : s.bits (s.pc.toNat + 40 + 2 * x.toNat) 2 = d) (hd3 : d ≠ 3) :
    Reaches s s 28 (valuesAtStore s x.toNat w.toNat d.toNat (s.bits (s.pc.toNat + 64 + 32 * x.toNat) 32)) := by
  obtain ⟨htape, -, hsym, -, -, -, -, hsymbol, hentry, hbits⟩ := h.places
  have halign := h.align
  have hlt := x.isLt
  have hlt3 : x.toNat ≠ 3 := fun hc => hx3 (BitVec.eq_of_toNat_eq hc)
  have hltd := d.isLt
  have e18 := (h.reaches_direction hx hx3 hw hw3).rds 15 6 (s.pc.toNat + 40 + 2 * x.toNat) d
    (h.field_place (by omega) (by omega)) (by omega) hd hd3
  have e19 := e18.loadc 16 3 16
  have e20 := e19.mul 13 3 13 (32 * x.toNat) (by omega) (hv := by change 2 * (x.toNat : Int) * 16 = _; omega)
  have e21 := e20.add 1 13 13 (s.pc.toNat + 32 * x.toNat) (by omega)
  have e22 := e21.loadc 64 3 64
  have e23 := e22.add 13 3 13 (s.pc.toNat + 64 + 32 * x.toNat : Nat) (by omega)
    (hv := by change (s.pc.toNat : Int) + 32 * x.toNat + 64 = _; omega)
  have e24 := e23.rdw 13 14 (s.pc.toNat + 64 + 32 * x.toNat) _ (h.field_place (by omega) (by omega)) (by omega) rfl
  have e25 := e24.loadc (-1) 3 (-1)
  have e26 := e25.add 6 3 6 ((d.toNat : Int) - 1) (by omega) (hv := by change (d.toNat : Int) + -1 = _; omega)
  have e27 := e26.add 6 6 6 (2 * ((d.toNat : Int) - 1)) (by omega)
    (hv := by change (d.toNat : Int) - 1 + (d.toNat - 1) = _; omega)
  exact e27.add 9 6 9 (s.head.toNat + 2 * ((d.toNat : Int) - 1)) (by omega)

/-- The machine that the bootstrap's two stores make of `s`: the symbol `w` under the head, and the head moved by `d`. -/
def State.transitioned (s : State) (w d : BitVec 2) : State :=
  (s.setBits (s.layout.symBase + s.head.toNat) w).setBits s.layout.headOffset
    (u32 (s.head.toNat + 2 * ((d.toNat : Int) - 1)))

/-- Entries 28 to 30: the symbol, the head and the jump to the next state. -/
theorem Dispatching.completes (h : Dispatching s) (hx : s.sym (s.head.toNat / 2) = x) (hx3 : x ≠ 3)
    (hw : s.bits (s.pc.toNat + 32 + 2 * x.toNat) 2 = w) (hw3 : w ≠ 3)
    (hd : s.bits (s.pc.toNat + 40 + 2 * x.toNat) 2 = d) (hd3 : d ≠ 3) :
    ∃ t : State, Sys2Proof.core.run 32 s = .next t ∧
      Holds (s.transitioned w d)
        (valuesAtStore s x.toNat w.toNat d.toNat (s.bits (s.pc.toNat + 64 + 32 * x.toNat) 32)) t ∧
      t.pc = u32 (s32 (s.bits (s.pc.toNat + 64 + 32 * x.toNat) 32)) ∧
      ∀ j u, 1 ≤ j → j ≤ 31 → Sys2Proof.core.run j s = .next u → u.ctl = .running ∧ u.printable = false := by
  obtain ⟨htape, hhead, hsym, -, -, -, heven, hsymbol, -, -⟩ := h.places
  have e29 := (h.reaches_store hx hx3 hw hw3 hd hd3).wrs 11 5 (s.layout.symBase + s.head.toNat) w (by omega) (by omega)
    (by omega) hw3 rfl
  have e30 := e29.wrw 8 9 s.layout.headOffset (s.head.toNat + 2 * ((d.toNat : Int) - 1)) (by omega)
    (by rw [State.setBits_layout]; omega) (by rw [State.setBits_layout]; omega)
  exact e30.ret (s32 (s.bits (s.pc.toNat + 64 + 32 * x.toNat) 32))

/-! What the two stores leave. -/

/-- The symbol stored reads back, past the head field. -/
theorem State.transitioned_symbol (s : State) (w d : BitVec 2) :
    (s.transitioned w d).bits (s.layout.symBase + s.head.toNat) 2 = w :=
  (State.bits_setBits_of_disjoint _ _ _ _ _ (by unfold Layout.symBase Layout.headOffset; omega)).trans
    (s.bits_setBits_same _ w)

theorem State.transitioned_head (s : State) (w d : BitVec 2) :
    (s.transitioned w d).bits s.layout.headOffset 32 = u32 (s.head.toNat + 2 * ((d.toNat : Int) - 1)) :=
  State.bits_setBits_same _ _ _

theorem State.transitioned_bit (s : State) (w d : BitVec 2) {b : Nat} (hhead : b < s.layout.headOffset ∨ s.layout.symBase ≤ b)
    (hsym : b < s.layout.symBase + s.head.toNat ∨ s.layout.symBase + s.head.toNat + 2 ≤ b) :
    (s.transitioned w d).bit b = s.bit b := by
  unfold State.transitioned
  rw [State.bit_setBits, if_neg (by unfold Layout.symBase Layout.headOffset at *; omega), State.bit_setBits,
    if_neg (by omega)]

/-- The symbol under the old head and the head field, after the bootstrap. -/
theorem Dispatching.tape_after (h : Dispatching s) {z : List Int} {t : State} (ht : Holds (s.transitioned w d) z t) :
    t.sym (s.head.toNat / 2) = w ∧ t.head = u32 (s.head.toNat + 2 * ((d.toNat : Int) - 1)) := by
  obtain ⟨-, hheadOffset, hsymBase, -, hheader, hregs, -, -, -, -⟩ := h.places
  have hlayout : t.layout = s.layout := ht.layout
  have htape : (s.transitioned w d).layout.tapeBase = s.layout.tapeBase := rfl
  constructor
  · rw [State.sym, hlayout, State.symOffset_head h.head, ht.bits (by omega) (by omega), State.transitioned_symbol]
  · rw [State.head, hlayout, ht.bits (by omega) (by omega), State.transitioned_head]

/-- The dispatch is printable (40_step_loop R66). -/
theorem Dispatching.printable (h : Dispatching s) : s.printable = true :=
  State.printable_of_hostStep ((printableExactlyAtDispatch s).2
    ⟨h.running, h.align, by have := h.places.entry; omega, h.marker, h.noHalt, s.headValid_iff.1 h.head⟩)

end Dispatching

/-- The word of a natural number that a word holds. -/
theorem u32_toNat (v : Word) : u32 v.toNat = v := by
  rw [u32, BitVec.ofInt_natCast, BitVec.ofNat_toNat, BitVec.setWidth_eq]

/-- Settles O46: with no pattern 3 in its way the bootstrap completes; its registers are those of `valuesAtStore`, and its
two stores are the only bits it leaves changed beside `pc` and the registers. -/
theorem transitionTakesThirtyTwoSteps : Obligations.TransitionTakesThirtyTwoSteps := by
  intro s hwf hr hloaded p h hpast halign hregion hmarker hnoHalt hhead x w d n hx3 hw3 hd3
  have hs : Dispatching s := ⟨hwf, hr, hloaded, hpast, halign, .inl hregion, hmarker, hnoHalt, hhead⟩
  obtain ⟨t, hrun, ht, hpc, hquiet⟩ :=
    hs.completes (w := w) (d := d) rfl (fun hc => hx3 (congrArg BitVec.toNat hc)) rfl hw3 rfl hd3
  obtain ⟨hsym, hheadAfter⟩ := hs.tape_after ht
  have hreg {i : Nat} {v : Int} (hi : i < 16) (hv : (valuesAtStore s x w.toNat d.toNat n).getD i 0 = v) :
      t.reg i = u32 v := ht.reg_eq hi hv
  refine ⟨t, hrun, ht.running, ht.layout, hsym, hheadAfter, hpc.trans (u32_s32 n),
    (hreg (i := 0) (by decide) rfl).trans (u32_s32 _), (hreg (i := 1) (by decide) rfl).trans (u32_toNat s.pc),
    hreg (i := 2) (by decide) rfl, hreg (i := 3) (by decide) rfl, hreg (i := 4) (by decide) rfl,
    hreg (i := 5) (by decide) rfl, hreg (i := 6) (by decide) rfl, hreg (i := 7) (by decide) rfl,
    hreg (i := 8) (by decide) rfl, hreg (i := 9) (by decide) rfl, hreg (i := 10) (by decide) rfl,
    hreg (i := 11) (by decide) rfl, hreg (i := 12) (by decide) rfl, hreg (i := 13) (by decide) rfl,
    (hreg (i := 14) (by decide) rfl).trans (u32_s32 n), hreg (i := 15) (by decide) rfl,
    fun b hpcBit hregBit hheadBit hsymBit => ?_, hs.printable, fun k u hk1 hk31 hu => hquiet k u hk1 hk31 hu⟩
  rw [ht.frame b hpcBit hregBit, State.transitioned_bit s w d hheadBit hsymBit]

/-- A fault of the bootstrap is where the 32 steps end: a stopped machine stays. -/
theorem FaultsAt.run_thirtyTwo {s : State} {k addr : Nat} (h : FaultsAt s s k addr) (hk : k ≤ 30) :
    ∃ t : State, Sys2Proof.core.run 32 s = .next t ∧ t.layout = s.layout ∧
      t.ctl = .faulted ⟨BitVec.ofNat 32 (entryOffset k), some 4, .invalidSymbolPattern addr⟩ ∧
      t.head = s.head ∧ ∀ b, (b < 32 ∨ 64 ≤ b) → (b < s.layout.regOffset 1 ∨ s.layout.tapeBase ≤ b) → t.bit b = s.bit b := by
  obtain ⟨t, hrun, hlayout, hctl, hframe⟩ := h
  have hstopped := run_add_of_stopped hrun (by rw [hctl]; exact nofun) (30 - k)
  rw [show k + 2 + (30 - k) = 32 by omega] at hstopped
  refine ⟨t, hstopped, hlayout, hctl, ?_, hframe⟩
  rw [State.head, State.head, hlayout]
  exact State.bits_congr fun b hlo _ => hframe b (.inr (by rw [Layout.headOffset_eq] at hlo; omega))
    (.inr (by unfold Layout.headOffset at hlo; omega))

/-- Settles O60: each of the three symbol reads of the listing faults on the pattern 3, and with none of them the bootstrap
completes. -/
theorem bootstrapFaultsExactlyOnPattern3 : Obligations.BootstrapFaultsExactlyOnPattern3 := by
  intro s hwf hr hloaded p h hpast halign hregion hmarker hnoHalt hhead x w d
  have hs : Dispatching s := ⟨hwf, hr, hloaded, hpast, halign, hregion, hmarker, hnoHalt, hhead⟩
  by_cases hx3 : x = 3
  · obtain ⟨t, hrun, hlayout, hctl, hkept, hframe⟩ :=
      (hs.faults_symbol (BitVec.eq_of_toNat_eq hx3)).run_thirtyTwo (by decide)
    exact ⟨t, hrun, hlayout, fun _ => hctl, fun hne => absurd hx3 hne, fun hne => absurd hx3 hne,
      fun _ => ⟨hkept, hframe⟩, fun hne => absurd hx3 hne⟩
  have hsym3 : s.sym (h / 2) ≠ 3 := fun hc => hx3 (congrArg BitVec.toNat hc)
  by_cases hw3 : w = 3
  · obtain ⟨t, hrun, hlayout, hctl, hkept, hframe⟩ := (hs.faults_write rfl hsym3 hw3).run_thirtyTwo (by decide)
    exact ⟨t, hrun, hlayout, fun hc => absurd hc hx3, fun _ _ => hctl, fun _ hne => absurd hw3 hne,
      fun _ => ⟨hkept, hframe⟩, fun _ hne => absurd hw3 hne⟩
  by_cases hd3 : d = 3
  · obtain ⟨t, hrun, hlayout, hctl, hkept, hframe⟩ :=
      (hs.faults_direction rfl hsym3 rfl hw3 hd3).run_thirtyTwo (by decide)
    exact ⟨t, hrun, hlayout, fun hc => absurd hc hx3, fun _ hc => absurd hc hw3, fun _ _ _ => hctl,
      fun _ => ⟨hkept, hframe⟩, fun _ _ hne => absurd hd3 hne⟩
  · obtain ⟨t, hrun, ht, hpc, -⟩ := hs.completes (w := w) (d := d) rfl hsym3 rfl hw3 rfl hd3
    obtain ⟨hsym, hheadAfter⟩ := hs.tape_after ht
    exact ⟨t, hrun, ht.layout, fun hc => absurd hc hx3, fun _ hc => absurd hc hw3, fun _ _ hc => absurd hc hd3,
      fun hc => absurd hc (not_or.2 ⟨hx3, not_or.2 ⟨hw3, hd3⟩⟩), fun _ _ _ => ⟨ht.running, hsym, hheadAfter, hpc.trans (u32_s32 _)⟩⟩

end Sys2Proof.Machine
end
